-- ==== Sys2Proof/Word.lean ====
section
/-! DEFINITION. The words of the block: bytes and radio register addresses (00_scope.md R7, 20_memory.md R40). -/

namespace Sys2Proof

/-- A byte: bit 7 is the most significant, bit 0 the least (R7). -/
abbrev Byte := BitVec 8

/-- A radio register address, "0x00–0x7F": 7 bits (R40), so that no address above 0x7F can be issued (U12). -/
abbrev RegAddr := BitVec 7

end Sys2Proof
end

