-- ==== Sys2Proof/Syntax.lean ====
section
/-! DEFINITION. The instructions: one constructor for each row of spec/opcode_table.json, that is the nine commands of the
command port (30_encoding.md R87) and the three event kinds of the arbiter (R96), with their operands. -/

namespace Sys2Proof

/-- RadioParameters (10_state.md R15), with the field widths of the command port (R92). Every bit pattern can be presented;
R113 decides which are accepted. -/
structure RadioParameters where
  frequencyHz : BitVec 64
  bandwidthHz : BitVec 32
  spreadingFactor : BitVec 8
  codingRate : BitVec 8
  preambleLength : BitVec 16
  deriving DecidableEq, Repr, Inhabited

/-- The three event kinds the arbiter reacts to (R96, R140). -/
inductive EventKind where
  | irq
  | msg
  | stop
  deriving DecidableEq, Repr, Inhabited

/-- One constructor for each row of the opcode table. -/
inductive Instr where
  /-- CONFIGURE, opcode 0x01 (R122). -/
  | configure (p : RadioParameters)
  /-- START, opcode 0x02 (R141). -/
  | start
  /-- STOP, opcode 0x03 (R142). -/
  | stop
  /-- SEND, opcode 0x04 (R143). -/
  | send (msg : List Byte)
  /-- SEND_SYNC, opcode 0x05 (R144, R145). -/
  | sendSync (msg : List Byte)
  /-- FLUSH_RX, opcode 0x06 (R146). -/
  | flushRx
  /-- PACKET_ENCODE, opcode 0x07: exactly 200 bytes (R201). -/
  | packetEncode (plain : List Byte)
  /-- PACKET_DECODE, opcode 0x08: exactly 255 bytes (R202). -/
  | packetDecode (rx : List Byte)
  /-- RECONFIGURE, opcode 0x09 (R123). -/
  | reconfigure (p : RadioParameters)
  /-- EV_IRQ, event kind 0 (R148). -/
  | evIrq
  /-- EV_MSG, event kind 1 (R153). -/
  | evMsg
  /-- EV_STOP, event kind 2 (R154). -/
  | evStop
  deriving DecidableEq, Repr

/-- The event step of a kind, as an instruction. -/
def EventKind.instr : EventKind → Instr
  | .irq => .evIrq
  | .msg => .evMsg
  | .stop => .evStop

end Sys2Proof
end

