-- ==== Sys2Proof/Config.lean ====
section
/-! DEFINITION. The arguments of the model (00_scope.md R6), and the free values. Decided holds the parameters to which R6 gives
the spec's decided default (those defaults: Machine/Parameters.lean), Config besides them those that R6 leaves OPEN or
unbounded. A parameter that the source fixes is a constant where it is used. -/

namespace Sys2Proof

/-- Which agent takes the next step (R10, R51): plain data of the state, or a free value (U14; log entry 1). -/
inductive Turn where
  /-- A HOST caller: the next command of the command port is taken. -/
  | host
  /-- ARB takes an event step of this kind (R147). -/
  | arb (kind : EventKind)
  /-- The agent of this SEND_SYNC takes a step (R144, R145). -/
  | sync (id : Nat)
  /-- ENV raises one interrupt edge (R232). -/
  | edge
  deriving DecidableEq, Repr, Inhabited

/-- The names of the chip's modes (R16, R75). -/
inductive RadioMode where
  | sleep
  | standby
  | fstx
  | tx
  | fsrx
  | rxContinuous
  | rxSingle
  | cad
  deriving DecidableEq, Repr

/-- `MODE_CODE` (R75, D12): the 3-bit code of each mode. -/
structure ModeCodes where
  sleep : BitVec 3
  standby : BitVec 3
  fstx : BitVec 3
  tx : BitVec 3
  fsrx : BitVec 3
  rxContinuous : BitVec 3
  rxSingle : BitVec 3
  cad : BitVec 3
  deriving DecidableEq, Repr

/-- The parameters to which R6 gives the spec's decided default: the values that a reader who matches another chip or another
codec replaces (93_implementation_defined.md Part 2). -/
structure Machine.Decided where
  /-- `GF_POLY` (D4). -/
  gfPoly : BitVec 9
  /-- `GF_GEN` (D4), the base of EXP and LOG (R183). -/
  gfGen : Byte
  /-- `RS_PARITY`, three rows of 40 bytes (R188, D5). -/
  rsParityRows : List (List Byte)
  /-- `CRC_POLY_REFLECTED` (D7). -/
  crcPolyReflected : Byte
  /-- `CRC_INIT` (D7). -/
  crcInit : Byte
  /-- `CRC_XOROUT` (D7). -/
  crcXorOut : Byte
  /-- `BW_TABLE`, the ten bandwidths in hertz, each with its code (R77, D16). -/
  bwTable : List (BitVec 32 × BitVec 4)
  /-- `MODE_CODE` (R75, D12). -/
  modeCodes : ModeCodes
  /-- `MODE_LORA_BIT` (R74, D12). -/
  modeLoraBit : Byte
  /-- `IRQ_RXTIMEOUT` (R82, D20). The receive-timeout flag has no effect (R150), so no rule reads it. -/
  irqRxTimeout : Byte
  /-- `IRQ_RXDONE` (R82, D20). -/
  irqRxDone : Byte
  /-- `IRQ_CRCERR` (R82, D20). -/
  irqCrcErr : Byte
  /-- `IRQ_TXDONE` (R82, D20). -/
  irqTxDone : Byte
  /-- `DIO_MAP_RXDONE` (R83, D20). -/
  dioMapRxDone : Byte
  /-- `DIO_MAP_TXDONE` (R83, D20). -/
  dioMapTxDone : Byte
  /-- `REG_FIFO`, the register of both bulk transactions (R45, D21). -/
  regFifo : RegAddr
  deriving DecidableEq, Repr

/-- The arguments of the model (R6) but for those the source fixes. The state carries them and no step writes them, so that a
statement about every state holds for every choice of them (log entries 5 and 27). `none` is "unbounded". -/
structure Config extends Machine.Decided where
  /-- `PILEUP_LIMIT`, at least 1 (R6, D22). -/
  pileupLimit : Nat
  /-- `LNA_GAIN_BYTE` (R6, D19). -/
  lnaGainByte : Byte
  /-- `TX_POWER_BYTE` (R6, D19). -/
  txPowerByte : Byte
  /-- `SYNC_POLL_MAX`, default unbounded (R6, D29). -/
  syncPollMax : Option Nat
  /-- `IRQ_Q_DEPTH`, unbounded in the model (R6, D36). -/
  irqQueueDepth : Option Nat
  /-- `RXBUF_CAP`, unbounded in the model (R6, D36). -/
  rxbufCap : Option Nat
  deriving DecidableEq, Repr

namespace Config

/-- OPEN (D22): `PILEUP_LIMIT` less 1, a free value. -/
opaque openPileupLimitLessOne : Nat
/-- OPEN (D19): `LNA_GAIN_BYTE`, a free value. -/
opaque openLnaGainByte : Byte
/-- OPEN (D19): `TX_POWER_BYTE`, a free value. -/
opaque openTxPowerByte : Byte

/-- Free: whether a bus transaction succeeds (R44, U3; log entry 2). -/
opaque freeOk : Nat → Bool
/-- Free: a byte the chip answers (R44), or a data byte of a failed PACKET_DECODE (U1; log entries 2 and 14). -/
opaque freeByte : Nat → Byte
/-- Free: how far time moves on between two samplings (R242; log entry 3). -/
opaque freeTick : Nat → Nat
/-- Free: the logarithm of a byte that is no power of `GF_GEN`, 00 for one (R183, "undefined"; log entry 27). -/
opaque undefinedLog : Byte → Nat
/-- Free: which agent moves next (U14; log entry 1). -/
opaque freeTurn : Nat → Turn

/-- `n` free bytes, from the counter value `base` on. -/
def freeBytes (base n : Nat) : List Byte :=
  (List.range n).map fun i => freeByte (base + i)

end Config

end Sys2Proof
end

