-- ==== Sys2Proof/Machine/Parameters.lean ====
section
/-! DEFINITION. The values the model's arguments have after reset (00_scope.md R6): the spec's decided defaults, which are its
decisions D4, D5, D7, D12, D16, D20 and D21, marked there as general knowledge (log entry 21), and the OPEN ones as free values.
Every definition takes them from the state's `cfg` (log entry 27). -/

namespace Sys2Proof.Machine

/-- Row 0 of `RS_PARITY` (R188). -/
def rsParityRow0 : List Byte :=
  [0x1C, 0x34, 0xCE, 0x9C, 0x87, 0xEB, 0xC5, 0x95, 0xB1, 0x51, 0xE9, 0xEE, 0x76, 0xA0, 0x1E, 0x69, 0x50, 0x22, 0xCF, 0xA9]
    ++ [0xAB, 0x0C, 0x15, 0xE1, 0x74, 0x1F, 0x11, 0xE5, 0xA5, 0x01, 0xC1, 0xBD, 0x1A, 0x84, 0xBA, 0x33, 0xE7, 0x10, 0xC6, 0x27]

/-- Row 1 of `RS_PARITY` (R188). -/
def rsParityRow1 : List Byte :=
  [0x34, 0x1C, 0x9C, 0xCE, 0xEB, 0x87, 0x95, 0xC5, 0x51, 0xB1, 0xEE, 0xE9, 0xA0, 0x76, 0x69, 0x1E, 0x22, 0x50, 0xA9, 0xCF]
    ++ [0x0C, 0xAB, 0xE1, 0x15, 0x1F, 0x74, 0xE5, 0x11, 0x01, 0xA5, 0xBD, 0xC1, 0x84, 0x1A, 0x33, 0xBA, 0x10, 0xE7, 0x27, 0xC6]

/-- Row 2 of `RS_PARITY` (R188). -/
def rsParityRow2 : List Byte :=
  [0xCE, 0x9C, 0x1C, 0x34, 0xC5, 0x95, 0x87, 0xEB, 0xE9, 0xEE, 0xB1, 0x51, 0x1E, 0x69, 0x76, 0xA0, 0xCF, 0xA9, 0x50, 0x22]
    ++ [0x15, 0xE1, 0xAB, 0x0C, 0x11, 0xE5, 0x74, 0x1F, 0xC1, 0xBD, 0xA5, 0x01, 0xBA, 0x33, 0x1A, 0x84, 0xC6, 0x27, 0xE7, 0x10]

/-- The ten bandwidths with their codes, in the source's order (R77). -/
def bwCodes : List (BitVec 32 × BitVec 4) :=
  [(7800, 0), (10400, 1), (15600, 2), (20800, 3), (31250, 4), (41700, 5), (62500, 6), (125000, 7), (250000, 8), (500000, 9)]

/-- The decided defaults of R6. The codes of the modes are 0 to 7 in the source's order (R75). -/
def Decided.standard : Decided where
  gfPoly := 0x11D
  gfGen := 0x02
  rsParityRows := [rsParityRow0, rsParityRow1, rsParityRow2]
  crcPolyReflected := 0x8C
  crcInit := 0x00
  crcXorOut := 0x00
  bwTable := bwCodes
  modeCodes := ⟨0, 1, 2, 3, 4, 5, 6, 7⟩
  modeLoraBit := 0x80
  irqRxTimeout := 0x80
  irqRxDone := 0x40
  irqCrcErr := 0x20
  irqTxDone := 0x08
  dioMapRxDone := 0x00
  dioMapTxDone := 0x40
  regFifo := 0x00

/-- The parameters as R6 leaves them: the decided defaults, the OPEN ones free, the three bounds unbounded. -/
def standardConfig : Config where
  toDecided := Decided.standard
  pileupLimit := Config.openPileupLimitLessOne + 1
  lnaGainByte := Config.openLnaGainByte
  txPowerByte := Config.openTxPowerByte
  syncPollMax := none
  irqQueueDepth := none
  rxbufCap := none

end Sys2Proof.Machine
end

