-- ==== Sys2Proof/Machine/State.lean ====
section
/-! DEFINITION. The state of the block as plain data: the record `st` of 10_state.md R11, the agents (R10), the ports
(92_eei_decisions.md D1), the environment's inputs (20_memory.md R44) and the parameters (00_scope.md R6); why a step can stop;
and the state after reset (R30, R260). -/

namespace Sys2Proof.Machine

/-- The status codes of R89: OK and the six errors of the source's taxonomy. -/
inductive Status where
  | ok
  | configurationError
  | ioError
  | initializationError
  | busyError
  | messageTooLongError
  | fecFailure
  deriving DecidableEq, Repr

/-- `st.tx_lock` (R23). -/
inductive TxLock where
  | free
  | arb
  | sync (id : Nat)
  deriving DecidableEq, Repr

/-- ReceivedMessage (R18): the telemetry is kept raw (D41). -/
structure ReceivedMessage where
  payload : List Byte
  rssiRaw : Byte
  snrRaw : Byte
  timestamp : Nat
  params : RadioParameters
  deriving DecidableEq, Repr

/-- The LINK unit's state, the record `st` of R11; `none` is the absence of a value (R12). -/
structure LinkState where
  /-- `st.params` (R15). -/
  params : Option RadioParameters
  /-- `st.mode`, the cached current-mode byte (R21). -/
  mode : Option Byte
  /-- `st.configured` (R24). -/
  configured : Bool
  /-- `st.irq_registered` (R24). -/
  irqRegistered : Bool
  /-- `st.running` (R24). -/
  running : Bool
  /-- `st.backlog`, oldest first (R19). -/
  backlog : List (List Byte)
  /-- `st.rxbuf`, oldest first (R20). -/
  rxbuf : List ReceivedMessage
  /-- `st.tx_start`, a time in nanoseconds (R22, R242). -/
  txStart : Option Nat
  /-- `st.last_tx_elapsed`, a duration in nanoseconds (R22). -/
  lastTxElapsed : Option Nat
  /-- `st.tx_lock` (R23). -/
  txLock : TxLock
  /-- `st.irq_pending` (R25). -/
  irqPending : Nat
  /-- `st.msg_pending` (R25). -/
  msgPending : Nat
  /-- `st.stop_pending` (R25). -/
  stopPending : Bool
  deriving DecidableEq, Repr

/-- Where an outstanding SEND_SYNC stands: suspended before its begin step (R144), or polling, with the number of polls
taken (R145). -/
inductive SyncPhase where
  | waiting (msg : List Byte)
  | polling (polls : Nat)
  deriving DecidableEq, Repr

/-- One outstanding SEND_SYNC command (R10 c). -/
structure SyncAgent where
  id : Nat
  phase : SyncPhase
  deriving DecidableEq, Repr

/-- One transaction on the register-access port with its outcome (R41 to R44); `none` and `false` say that it failed. -/
inductive BusTxn where
  | getByte (reg : RegAddr) (answer : Option Byte)
  | getBytes (reg : RegAddr) (count : Nat) (answer : Option (List Byte))
  | setByte (reg : RegAddr) (val : Byte) (ok : Bool)
  | setBytes (reg : RegAddr) (vals : List Byte) (ok : Bool)
  deriving DecidableEq, Repr

/-- The events of the diagnostic output (R245). -/
inductive LogEvent where
  | initWriteFailed
  | initReadFailed
  | irqIoError
  | txStartFailed
  | stopIoError
  | txElapsed (d : Nat)
  deriving DecidableEq, Repr

/-- What follows the status byte of a response (R87). -/
inductive Results where
  | none
  | messages (ms : List ReceivedMessage)
  | bytes (bs : List Byte)
  deriving DecidableEq, Repr

/-- One response. `sync` names the SEND_SYNC it ends, when that command was suspended or polling before (log entry 20). -/
structure Response where
  sync : Option Nat
  status : Status
  results : Results
  deriving DecidableEq, Repr

/-- What the chip makes of one transaction (R44): it fails, or it succeeds and a read takes its bytes from `data`. -/
inductive ChipAnswer where
  | fails
  | gives (data : List Byte)
  deriving DecidableEq, Repr

/-- The state of one block (R244: one `st`, one ARB, one register-access port, one interrupt input). -/
structure State where
  /-- The record `st` (R11). -/
  st : LinkState
  /-- The outstanding SEND_SYNC commands (R10 c). -/
  syncs : List SyncAgent
  /-- The id the next SEND_SYNC gets (R23). -/
  nextSyncId : Nat
  /-- The bytes presented on the command port and not yet taken (R87). -/
  port : List Byte
  /-- The responses given, oldest first (R87, R89). -/
  responses : List Response
  /-- The bus trace, oldest first (R44). -/
  trace : List BusTxn
  /-- The diagnostic output, oldest first (R245). -/
  log : List LogEvent
  /-- The chip's next answers, one a transaction; after them the answers are free (R44; log entry 2). -/
  chip : List ChipAnswer
  /-- How far time moves on at the next samplings; after them freely (R242; log entry 3). -/
  ticks : List Nat
  /-- The time last sampled, in nanoseconds (R242). -/
  clock : Nat
  /-- Which agents move next; after them freely (R51, U14; log entry 1). -/
  turns : List Turn
  /-- The model's own counter, which the free values are applied to (log entry 6). -/
  draws : Nat
  /-- The arguments of the model, R6; no step writes them (log entries 5 and 27). -/
  cfg : Config
  deriving DecidableEq, Repr

/-- Why the machine stops: the cases in which the spec says that a model faults. All of them are safe. -/
inductive Fault where
  /-- RX_PACKET stamps `st.params` while it is none (R12, U11). Raised by EV_IRQ. Safe. -/
  | noParams
  /-- The TX branch needs `st.tx_start` while it is none (R12, U11). Raised by EV_IRQ. Safe. -/
  | noTxStart
  /-- An interrupt edge while a finite `IRQ_Q_DEPTH` is full (U4). Raised by ENV.irq. Safe. -/
  | irqQueueFull
  /-- A received message while a finite `RXBUF_CAP` is full (U4). Raised by EV_IRQ. Safe. -/
  | rxbufFull
  /-- A poll beyond a finite `SYNC_POLL_MAX` (U8). Raised by a SEND_SYNC poll step. Safe. -/
  | syncPollsExhausted
  deriving DecidableEq, Repr

/-- Why a command is not accepted: no step, no state change, no transaction, no response (93_implementation_defined.md). All
of them are safe: the spec gives the command no effect there. -/
inductive Refusal where
  /-- An instruction without a meaning in this model. Raised by exec's refused arms only. Safe. -/
  | notModelled (mnemonic : String)
  /-- A reserved opcode on the command port (R93 a, U9). Raised by step. Safe. -/
  | reservedOpcode (op : Byte)
  /-- SEND or SEND_SYNC while `st.running` is false (U6). Raised by SEND, SEND_SYNC. Safe. -/
  | notRunning
  /-- SEND or SEND_SYNC of a message of no bytes (U7). Raised by SEND, SEND_SYNC. Safe. -/
  | emptyMessage
  /-- CONFIGURE while `st.running` is true (U10). Raised by CONFIGURE. Safe. -/
  | configureWhileRunning
  /-- A frequency whose step count does not fit 24 bits (U5). Raised by CONFIGURE, RECONFIGURE. Safe. -/
  | frequencyNotEncodable
  /-- An operand of a length the fixed-width FEC ports cannot carry (R48, D11); no decoded command has one. Raised by
  PACKET_ENCODE, PACKET_DECODE. Safe. -/
  | operandLength
  deriving DecidableEq, Repr

/-- The record `st` after reset (R11's reset column, R30, R260). -/
def LinkState.reset : LinkState where
  params := none
  mode := none
  configured := false
  irqRegistered := false
  running := false
  backlog := []
  rxbuf := []
  txStart := none
  lastTxElapsed := none
  txLock := .free
  irqPending := 0
  msgPending := 0
  stopPending := false

/-- The machine right after reset (R30, R260, R261): outstanding commands are discarded, no transaction is issued. The values
of the fields outside `st` are the model's (log entries 5 and 6). -/
def State.reset : State where
  st := LinkState.reset
  syncs := []
  nextSyncId := 1
  port := []
  responses := []
  trace := []
  log := []
  chip := []
  ticks := []
  clock := 0
  turns := []
  draws := 0
  cfg := standardConfig

end Sys2Proof.Machine
end

