-- ==== Sys2Proof/Machine/FecArith.lean ====
section
/-! DEFINITION. The arithmetic of the FEC unit (42_fec_arith.md): the field GF(2^8) with its tables, CRC8, the parity matrix,
the parity shards and the reconstruction of erased shards. The field, the matrix and the CRC are those of a `Decided`, an
argument of the model (R6; log entry 27). -/

namespace Sys2Proof.Machine

/-! ## The field GF(2^8) (R180 to R184) -/

/-- Multiplication by the element x (0x02): shift and reduce modulo `GF_POLY` (R182). -/
def Decided.gfDouble (d : Decided) (a : Byte) : Byte :=
  if a.getLsbD 7 then (a <<< 1) ^^^ d.gfPoly.setWidth 8 else a <<< 1

/-- One turn of the loop of gf_mul, for bit `i` of `b`; the pair is (a, r) (R182). -/
def Decided.gfMulStep (d : Decided) (b : Byte) (ar : Byte × Byte) (i : Nat) : Byte × Byte :=
  (d.gfDouble ar.1, if b.getLsbD i then ar.2 ^^^ ar.1 else ar.2)

/-- gf_mul (R182). -/
def Decided.gfMul (d : Decided) (a b : Byte) : Byte :=
  ((List.range 8).foldl (d.gfMulStep b) (a, 0)).2

/-- `EXP[i]`: the powers of `GF_GEN` (R183). -/
def Decided.gfExp (d : Decided) : Nat → Byte
  | 0 => 1
  | i + 1 => d.gfMul d.gfGen (d.gfExp i)

/-- The first `i` with `GF_GEN^i = a`, searched over the next `n` exponents, of which the first is `i` and its power `p`; a free
value if there is none (R183; log entry 27). -/
def Decided.gfLogFrom (d : Decided) (a : Byte) : Nat → Nat → Byte → Nat
  | 0, _, _ => Config.undefinedLog a
  | n + 1, i, p => if p = a then i else d.gfLogFrom a n (i + 1) (d.gfMul d.gfGen p)

/-- `LOG[a]`, for a non-zero `a` (R183). `LOG[00]` is undefined: a free value, which no rule reads at the
decided defaults. -/
def Decided.gfLog (d : Decided) (a : Byte) : Nat := d.gfLogFrom a 255 0 1

/-- gf_inv (R184), for a non-zero `a`; no rule evaluates it at 00 at the decided defaults. -/
def Decided.gfInv (d : Decided) (a : Byte) : Byte := d.gfExp ((255 - d.gfLog a) % 255)

/-- gf_pow (R184). -/
def Decided.gfPow (d : Decided) (a : Byte) (n : Nat) : Byte :=
  if n = 0 then 1 else if a = 0 then 0 else d.gfExp ((d.gfLog a * n) % 255)

/-! ## CRC8 (R186, R187) -/

/-- One of the 8 shift steps of CRC8 (R186). -/
def Decided.crcShift (d : Decided) (c : Byte) : Byte :=
  if c.getLsbD 0 then (c >>> 1) ^^^ d.crcPolyReflected else c >>> 1

/-- One byte of CRC8: exclusive-or, then 8 shift steps (R186). -/
def Decided.crcByte (d : Decided) (c b : Byte) : Byte :=
  (List.range 8).foldl (fun c _ => d.crcShift c) (c ^^^ b)

/-- CRC8, from `CRC_INIT` and with the final exclusive-or of `CRC_XOROUT` (R186). -/
def Decided.crc8 (d : Decided) (bs : List Byte) : Byte :=
  bs.foldl d.crcByte d.crcInit ^^^ d.crcXorOut

/-- CRC_TABLE (R187): the CRC8 of each single byte. -/
def Decided.crcTable (d : Decided) : List Byte :=
  (List.range 256).map fun v => d.crc8 [BitVec.ofNat 8 v]

/-! ## The Reed-Solomon(43,40) code -/

/-- `K_DATA` (R6). -/
def kData : Nat := 40
/-- `M_PAR` (R6). -/
def mPar : Nat := 3
/-- `SHARD_LEN` (R6). -/
def shardLen : Nat := 5

/-- `RS_PARITY[j][i]` (R188): the weight of data shard `i` in parity shard `j`. -/
def Decided.rsParity (d : Decided) (j i : Nat) : Byte := (d.rsParityRows.getD j []).getD i 0

/-- Byte `k` of shard `i`. -/
def shardByte (d : List (List Byte)) (i k : Nat) : Byte := (d.getD i []).getD k 0

/-- The exclusive-or of a list of bytes, the sum in the field (R181). -/
def gfSum (bs : List Byte) : Byte := bs.foldl (· ^^^ ·) 0

/-- The field sum, over the data shards in `is`, of `RS_PARITY[j][i] ⊗ d[i][k]` (R191, R192). -/
def Decided.parityTerms (g : Decided) (d : List (List Byte)) (j k : Nat) (is : List Nat) : Byte :=
  gfSum (is.map fun i => g.gfMul (g.rsParity j i) (shardByte d i k))

/-- RS_PARITY_SHARDS (R191): parity shard `j`, each byte position by itself. -/
def Decided.parityShard (g : Decided) (d : List (List Byte)) (j : Nat) : List Byte :=
  (List.range shardLen).map fun k => g.parityTerms d j k (List.range kData)

/-- RS_PARITY_SHARDS (R191). -/
def Decided.rsParityShards (g : Decided) (d : List (List Byte)) : List (List Byte) :=
  (List.range mPar).map (g.parityShard d)

/-! ## GF_SOLVE (R193): the unique x with M x = s, for an invertible M

R193 lets any exact method give x and spells out elimination for three unknowns; the model writes that case as the quotient
of determinants too (log entry 13). -/

/-- The determinant of a 2 x 2 matrix, given by rows. -/
def Decided.gfDet2 (g : Decided) (m00 m01 m10 m11 : Byte) : Byte :=
  g.gfMul m00 m11 ^^^ g.gfMul m01 m10

/-- The determinant of a 3 x 3 matrix, given by rows, along its first row. -/
def Decided.gfDet3 (g : Decided) (m00 m01 m02 m10 m11 m12 m20 m21 m22 : Byte) : Byte :=
  g.gfMul m00 (g.gfDet2 m11 m12 m21 m22) ^^^ g.gfMul m01 (g.gfDet2 m10 m12 m20 m22) ^^^
    g.gfMul m02 (g.gfDet2 m10 m11 m20 m21)

/-- GF_SOLVE for the erased shards `E` (at most 3), with `M[j][t] = RS_PARITY[j][E[t]]` (R192, R193) and right sides
`s j`. -/
def Decided.gfSolve (g : Decided) (E : List Nat) (s : Nat → Byte) : List Byte :=
  match E with
  | [a] => [g.gfMul (g.gfInv (g.rsParity 0 a)) (s 0)]
  | [a, b] =>
    let m := g.rsParity
    let di := g.gfInv (g.gfDet2 (m 0 a) (m 0 b) (m 1 a) (m 1 b))
    [g.gfMul di (g.gfMul (m 1 b) (s 0) ^^^ g.gfMul (m 0 b) (s 1)),
      g.gfMul di (g.gfMul (m 1 a) (s 0) ^^^ g.gfMul (m 0 a) (s 1))]
  | [a, b, c] =>
    let m := g.rsParity
    let di := g.gfInv (g.gfDet3 (m 0 a) (m 0 b) (m 0 c) (m 1 a) (m 1 b) (m 1 c) (m 2 a) (m 2 b) (m 2 c))
    [g.gfMul di (g.gfDet3 (s 0) (m 0 b) (m 0 c) (s 1) (m 1 b) (m 1 c) (s 2) (m 2 b) (m 2 c)),
      g.gfMul di (g.gfDet3 (m 0 a) (s 0) (m 0 c) (m 1 a) (s 1) (m 1 c) (m 2 a) (s 2) (m 2 c)),
      g.gfMul di (g.gfDet3 (m 0 a) (m 0 b) (s 0) (m 1 a) (m 1 b) (s 1) (m 2 a) (m 2 b) (s 2))]
  | _ => []

/-! ## RS_RECONSTRUCT (R192) -/

/-- The right side `s[j]` of lane `k`: the parity byte less the terms of the shards that are not erased. -/
def Decided.laneRhs (g : Decided) (d q : List (List Byte)) (E : List Nat) (k j : Nat) : Byte :=
  shardByte q j k ^^^ g.parityTerms d j k ((List.range kData).filter fun i => !E.contains i)

/-- Lane `k` of the erased shards, in the order of `E`. -/
def Decided.laneSolution (g : Decided) (d q : List (List Byte)) (E : List Nat) (k : Nat) : List Byte :=
  g.gfSolve E (g.laneRhs d q E k)

/-- The erased shard that is number `t` in `E`, recomputed. -/
def Decided.rebuiltShard (g : Decided) (d q : List (List Byte)) (E : List Nat) (t : Nat) : List Byte :=
  (List.range shardLen).map fun k => (g.laneSolution d q E k).getD t 0

/-- RS_RECONSTRUCT (R192): the data shards with the erased ones recomputed; parity shards 0 to e-1 are read (D8). -/
def Decided.rsReconstruct (g : Decided) (d q : List (List Byte)) (E : List Nat) : List (List Byte) :=
  (List.range kData).map fun i => if E.contains i then g.rebuiltShard d q E (E.idxOf i) else d.getD i []

end Sys2Proof.Machine
end

