-- ==== Sys2Proof/WellFormed.lean ====
section
/-! DEFINITION. Which instructions the encodings can carry: the operand lengths of 30_encoding.md R87 and R94. The record
operands have the widths of R92 by their types, and every bit pattern of them can be presented. -/

namespace Sys2Proof

/-- SEND and SEND_SYNC carry a 16-bit length (R87), so that a message longer than 255 bytes can be presented and refused;
the FEC operands are exactly 200 and 255 bytes (R48, R200). -/
def Instr.wellFormed : Instr → Bool
  | .configure _ => true
  | .start => true
  | .stop => true
  | .send msg => decide (msg.length < 65536)
  | .sendSync msg => decide (msg.length < 65536)
  | .flushRx => true
  | .packetEncode plain => decide (plain.length = 200)
  | .packetDecode rx => decide (rx.length = 255)
  | .reconfigure _ => true
  | .evIrq => true
  | .evMsg => true
  | .evStop => true

/-- Whether the instruction is a command of the command port (R87) and not an event kind of the arbiter (R96). -/
def Instr.isCommand : Instr → Bool
  | .configure _ => true
  | .start => true
  | .stop => true
  | .send _ => true
  | .sendSync _ => true
  | .flushRx => true
  | .packetEncode _ => true
  | .packetDecode _ => true
  | .reconfigure _ => true
  | .evIrq => false
  | .evMsg => false
  | .evStop => false

end Sys2Proof
end

