-- ==== Sys2Proof/Decode.lean ====
section
/-! DEFINITION. The decoder of the command port (30_encoding.md R87, R88, R92 to R94) and of the event kinds (R96), total and
rejecting by name; after it the encoder, written from the same tables; and the host's reading of a word of the opcode table. -/

namespace Sys2Proof

/-! ## Byte order: multi-byte numbers are big-endian (R87, R92) -/

/-- The number whose big-endian bytes these are. -/
def beNat (bs : List Byte) : Nat :=
  bs.foldl (fun acc b => acc * 256 + b.toNat) 0

/-- The `n` low-order bytes of a number, most significant first. -/
def beBytes : Nat → Nat → List Byte
  | 0, _ => []
  | n + 1, v => beBytes n (v / 256) ++ [BitVec.ofNat 8 v]

/-! ## The decoder -/

/-- Why the bytes on the command port are no command. -/
inductive DecodeError where
  /-- Opcode 0x00 or 0x0A to 0xFF: reserved (R93 a, U9). -/
  | reservedOpcode (op : Byte)
  /-- The bytes end before the command does: no whole command has been presented (log entry 12). -/
  | incomplete
  deriving DecidableEq, Repr

/-- The first `n` bytes and the rest, if there are so many. -/
def takeExact : Nat → List Byte → Option (List Byte × List Byte)
  | 0, bs => some ([], bs)
  | _ + 1, [] => none
  | n + 1, b :: bs => (takeExact n bs).map fun r => (b :: r.1, r.2)

/-- The 16 bytes of RadioParameters (R92). -/
def decodeParams (bs : List Byte) : RadioParameters where
  frequencyHz := BitVec.ofNat 64 (beNat (bs.take 8))
  bandwidthHz := BitVec.ofNat 32 (beNat ((bs.drop 8).take 4))
  spreadingFactor := BitVec.ofNat 8 (beNat ((bs.drop 12).take 1))
  codingRate := BitVec.ofNat 8 (beNat ((bs.drop 13).take 1))
  preambleLength := BitVec.ofNat 16 (beNat ((bs.drop 14).take 2))

/-- A command whose operand is `n` bytes, read by `mk`. -/
def decodeFixed (n : Nat) (mk : List Byte → Instr) (bs : List Byte) : Except DecodeError (Instr × List Byte) :=
  match takeExact n bs with
  | some (operand, rest) => .ok (mk operand, rest)
  | none => .error .incomplete

/-- A command whose operand is a 16-bit length and so many bytes (R94). -/
def decodeMessage (mk : List Byte → Instr) (bs : List Byte) : Except DecodeError (Instr × List Byte) :=
  match takeExact 2 bs with
  | some (len, rest) => decodeFixed (beNat len) mk rest
  | none => .error .incomplete

/-- The command at the front of the bytes on the command port, and the bytes after it (R87, R88, R94). -/
def decodeCommand : List Byte → Except DecodeError (Instr × List Byte)
  | [] => .error .incomplete
  | op :: bs =>
    match op.toNat with
    | 0x01 => decodeFixed 16 (fun o => .configure (decodeParams o)) bs
    | 0x02 => .ok (.start, bs)
    | 0x03 => .ok (.stop, bs)
    | 0x04 => decodeMessage .send bs
    | 0x05 => decodeMessage .sendSync bs
    | 0x06 => .ok (.flushRx, bs)
    | 0x07 => decodeFixed 200 .packetEncode bs
    | 0x08 => decodeFixed 255 .packetDecode bs
    | 0x09 => decodeFixed 16 (fun o => .reconfigure (decodeParams o)) bs
    | _ => .error (.reservedOpcode op)

/-- An event kind's code (R96): 3 is unused. -/
def decodeEvent (code : BitVec 2) : Option EventKind :=
  match code.toNat with
  | 0 => some .irq
  | 1 => some .msg
  | 2 => some .stop
  | _ => none

/-! ## The encoder -/

/-- The two kinds of word of the opcode table: bytes on the command port (R87), or an event code, which stands on no
port (R96). -/
inductive Encoding where
  | portBytes (bytes : List Byte)
  | eventCode (code : BitVec 2)
  deriving DecidableEq, Repr

/-- RadioParameters as 16 bytes (R92). -/
def encodeParams (p : RadioParameters) : List Byte :=
  beBytes 8 p.frequencyHz.toNat ++ beBytes 4 p.bandwidthHz.toNat ++ beBytes 1 p.spreadingFactor.toNat
    ++ beBytes 1 p.codingRate.toNat ++ beBytes 2 p.preambleLength.toNat

/-- The words of a well-formed instruction (R87, R92, R96). -/
def encode : Instr → Encoding
  | .configure p => .portBytes (0x01 :: encodeParams p)
  | .start => .portBytes [0x02]
  | .stop => .portBytes [0x03]
  | .send msg => .portBytes (0x04 :: (beBytes 2 msg.length ++ msg))
  | .sendSync msg => .portBytes (0x05 :: (beBytes 2 msg.length ++ msg))
  | .flushRx => .portBytes [0x06]
  | .packetEncode plain => .portBytes (0x07 :: plain)
  | .packetDecode rx => .portBytes (0x08 :: rx)
  | .reconfigure p => .portBytes (0x09 :: encodeParams p)
  | .evIrq => .eventCode 0
  | .evMsg => .eventCode 1
  | .evStop => .eventCode 2

/-- Decoding either kind of word: the bytes of exactly one command, or an event code. -/
def decode : Encoding → Option Instr
  | .portBytes bytes =>
    match decodeCommand bytes with
    | .ok (i, []) => some i
    | .ok (_, _ :: _) => none
    | .error _ => none
  | .eventCode code => (decodeEvent code).map EventKind.instr

/-! ## The host's reading of a word of the opcode table -/

/-- Byte `k` of a word numbered as spec/opcode_table.json numbers it: bits 8k+7 to 8k. -/
def tableByte (w k : Nat) : Byte :=
  BitVec.ofNat 8 (w >>> (8 * k))

/-- How many bytes a word's opcode asks for after it, by the operand column of R87. -/
def tableOperandLength (w : Nat) : Nat :=
  match (tableByte w 0).toNat with
  | 0x01 => 16
  | 0x04 => 2 + beNat [tableByte w 1, tableByte w 2]
  | 0x05 => 2 + beNat [tableByte w 1, tableByte w 2]
  | 0x07 => 200
  | 0x08 => 255
  | 0x09 => 16
  | _ => 0

/-- The bytes of a table word in the order the command port takes them, then as many zeros as its operand can need. -/
def tableBytes (nbits w : Nat) : List Byte :=
  (List.range ((nbits + 7) / 8)).map (tableByte w) ++ List.replicate (tableOperandLength w) 0

/-- The event kind a table word is. An event row has 2 bits; a word of one whole byte is an event's only where no command
has that opcode and its upper bits are zero, which is the word 0x00 of EV_IRQ (log entry 15). -/
def tableEvent (nbits w : Nat) : Option EventKind :=
  if nbits ≤ 8 ∧ w < 4 then decodeEvent (BitVec.ofNat 2 w) else none

/-- The instruction the decoder reads from a word of the opcode table: fewer than 8 bits are an event code, whole bytes a
command of the port. -/
def decodeTableWord (nbits w : Nat) : Option Instr :=
  if nbits < 8 then (tableEvent nbits w).map EventKind.instr
  else
    match decodeCommand (tableBytes nbits w) with
    | .ok (i, _) => some i
    | .error _ => (tableEvent nbits w).map EventKind.instr

end Sys2Proof
end

