-- ==== Sys2Proof/Machine/Flags.lean ====
section
/-! DEFINITION. The flags and codes of the block: it keeps no condition codes of its own (10_state.md R27); what plays their
part is the chip's IRQ-flags byte (30_encoding.md R82) and the status code of a response (R89). -/

namespace Sys2Proof.Machine

/-- "write-all-ones": what EV_IRQ clears the flags with (R82, R148). -/
def irqClearAll : Byte := 0xFF

/-- Whether a flag of the IRQ-flags byte is set: `flags & mask /= 0`. -/
def flagSet (flags mask : Byte) : Bool :=
  flags &&& mask != 0

/-- What the RX branch does on a flags byte (R150): CRC-error wins over receive-complete, receive-timeout never matters. -/
def Decided.rxPacketReady (d : Decided) (flags : Byte) : Bool :=
  !flagSet flags d.irqCrcErr && flagSet flags d.irqRxDone

/-- The status codes (R89, D3). -/
def Status.code : Status → Byte
  | .ok => 0
  | .configurationError => 1
  | .ioError => 2
  | .initializationError => 3
  | .busyError => 4
  | .messageTooLongError => 5
  | .fecFailure => 6

end Sys2Proof.Machine
end

