-- ==== Sys2Proof/Machine/Operands.lean ====
section
/-! DEFINITION. The operands of the register accesses (20_memory.md R45, 30_encoding.md R74 to R86): register addresses, mode
bytes, field codes, the frequency step count, the telemetry conversions; and the byte layout of the responses (R87, R91).
What R6 makes an argument of the model is taken from a `Decided`. -/

namespace Sys2Proof.Machine

/-! ## Register addresses (R45) -/

def regOpMode : RegAddr := 0x01
def regFrfMsb : RegAddr := 0x06
def regFrfMid : RegAddr := 0x07
def regFrfLsb : RegAddr := 0x08
def regPaConfig : RegAddr := 0x09
def regLna : RegAddr := 0x0C
def regFifoAddrPtr : RegAddr := 0x0D
def regFifoTxBase : RegAddr := 0x0E
def regFifoRxBase : RegAddr := 0x0F
def regFifoRxCurrent : RegAddr := 0x10
def regIrqFlags : RegAddr := 0x12
def regRxNbBytes : RegAddr := 0x13
def regPktSnr : RegAddr := 0x19
def regPktRssi : RegAddr := 0x1A
def regModemConfig1 : RegAddr := 0x1D
def regModemConfig2 : RegAddr := 0x1E
def regPreambleMsb : RegAddr := 0x20
def regPreambleLsb : RegAddr := 0x21
def regPayloadLength : RegAddr := 0x22
def regDioMapping1 : RegAddr := 0x40

/-! ## Mode bytes (R74, R75, D12) -/

/-- The code of a mode (R75). -/
def modeCode (c : ModeCodes) : RadioMode → BitVec 3
  | .sleep => c.sleep
  | .standby => c.standby
  | .fstx => c.fstx
  | .tx => c.tx
  | .fsrx => c.fsrx
  | .rxContinuous => c.rxContinuous
  | .rxSingle => c.rxSingle
  | .cad => c.cad

/-- The byte of a mode with the LoRa bit: bits 6..3 are zero (R16, R74, R75). FSTX, FSRX, RXSINGLE and CAD are never
written. DESIGN CHOICE: the byte follows `MODE_LORA_BIT` and `MODE_CODE` (log entry 29). -/
def Decided.modeByte (d : Decided) (m : RadioMode) : Byte :=
  d.modeLoraBit ||| (modeCode d.modeCodes m).setWidth 8

/-- SLEEP|LORA, 0x80. -/
def Decided.modeSleep (d : Decided) : Byte := d.modeByte .sleep
/-- STANDBY|LORA, 0x81. -/
def Decided.modeStandby (d : Decided) : Byte := d.modeByte .standby
/-- TX|LORA, 0x83. -/
def Decided.modeTx (d : Decided) : Byte := d.modeByte .tx
/-- RXCONTINUOUS|LORA, 0x85. -/
def Decided.modeRxContinuous (d : Decided) : Byte := d.modeByte .rxContinuous

/-- The bits of register 0x01 a RadioMode has, the LoRa bit and the mode code: at the decided defaults the mask 0x87 (R74, R112).
DESIGN CHOICE: the mask follows `MODE_LORA_BIT` (log entry 29). -/
def Decided.maskMode (d : Decided) (v : Byte) : Byte := v &&& (d.modeLoraBit ||| 0x07)

/-! ## Field codes (R76 to R81) -/

/-- The code of a bandwidth, if it is a member of `BW_TABLE` (R77, D16). -/
def Decided.bwCode (d : Decided) (bw : BitVec 32) : Option (BitVec 4) :=
  d.bwTable.lookup bw

/-- 0x1D with a new bandwidth code: bits 3..0 are kept (R76, R114). -/
def withBwCode (v : Byte) (code : BitVec 4) : Byte :=
  (v &&& 0x0F) ||| (code.setWidth 8 <<< 4)

/-- 0x1E with a new spreading factor: bits 3..0 are kept (R79, R115). -/
def withSpreadingFactor (v : Byte) (sf : Byte) : Byte :=
  (v &&& 0x0F) ||| (sf <<< 4)

/-- 0x1D with a new coding rate: bits 7..4 and bit 0 are kept (R76, R78, R116). -/
def withCodingRate (v : Byte) (cr : Byte) : Byte :=
  (v &&& 0xF1) ||| ((cr - 4) <<< 1)

/-- The spreading factors that are accepted: 7 to 12 (R93 b, R113, R115). -/
def spreadingFactorOk (sf : Byte) : Bool :=
  !(decide (sf.toNat < 6) || decide (sf.toNat > 12) || decide (sf.toNat = 6))

/-- The coding rates that are accepted: 5 to 8 (R113, R116). -/
def codingRateOk (cr : Byte) : Bool :=
  !(decide (cr.toNat < 5) || decide (cr.toNat > 8))

/-- The preamble lengths that are accepted: 6 and more (R113, R117). -/
def preambleLengthOk (n : BitVec 16) : Bool :=
  !decide (n.toNat < 6)

/-- VALIDATE_PARAMS (R113): whether all four domains hold. The order of the checks cannot be observed. -/
def Decided.validParams (d : Decided) (p : RadioParameters) : Bool :=
  (d.bwCode p.bandwidthHz).isSome && spreadingFactorOk p.spreadingFactor && codingRateOk p.codingRate
    && preambleLengthOk p.preambleLength

/-- The 24-bit frequency step count, in exact integer arithmetic (R81). -/
def frf (frequencyHz : BitVec 64) : Nat :=
  (frequencyHz.toNat * 512 + 15625) / 31250

/-- Whether the step count fits 24 bits; otherwise the record has no defined encoding (R81, U5). -/
def frequencyEncodable (frequencyHz : BitVec 64) : Bool :=
  decide (frf frequencyHz < 2 ^ 24)

/-- Byte `k` of a number, byte 0 the least significant (R7). -/
def byteOf (v k : Nat) : Byte :=
  BitVec.ofNat 8 (v >>> (8 * k))

/-! ## Telemetry (R18, R85) -/

/-- `rssi_dbm`: a signed integer, no wrap. -/
def rssiDbm (m : ReceivedMessage) : Int :=
  (m.rssiRaw.toNat : Int) - 137

/-- `snr_q`, quarter decibels: the raw byte, sign extended (R7, R85). -/
def snrQuarterDb (m : ReceivedMessage) : Int :=
  m.snrRaw.toInt

/-! ## Responses on the command port (R87, R91) -/

/-- One ReceivedMessage record (R91). -/
def messageBytes (m : ReceivedMessage) : List Byte :=
  beBytes 1 m.payload.length ++ m.payload ++ [m.rssiRaw, m.snrRaw] ++ beBytes 8 m.timestamp ++ encodeParams m.params

/-- The bytes of the results (R87): a count of 4 bytes and the records, or the bytes themselves. -/
def resultBytes : Results → List Byte
  | .none => []
  | .messages ms => beBytes 4 ms.length ++ ms.flatMap messageBytes
  | .bytes bs => bs

/-- A response as bytes: the status byte, then the results (R87, R89). -/
def responseBytes (r : Response) : List Byte :=
  r.status.code :: resultBytes r.results

end Sys2Proof.Machine
end

