-- ==== Sys2Proof/Machine/Ops.lean ====
section
/-! DEFINITION. The shared operations: the four register-access primitives (20_memory.md R41 to R44), time (60_exceptions.md
R242), the log (R245), responses; how a sub-operation's error ends a command (R221), the block's only synchronous exception;
and the sub-operations that commands and event steps share: SET_MODE, GET_MODE, ENTER_RX (40_mode_controller.md), BEGIN_TX,
START_NEXT, TRIM (41_link_arbiter.md). Taking the interrupt (R236) and returning from it (R237) save and restore nothing: they
are the selection of EV_IRQ and its last transaction, in Machine/LinkArbiter.lean. -/

namespace Sys2Proof.Machine

/-- What a step answers. -/
abbrev StepResult := Host.Outcome State Fault Refusal

/-- The answer of a sub-operation: a value, or the status it raises; in both cases the state it left (R110, R221: nothing is
rolled back). -/
inductive Res (α : Type) where
  | done (a : α) (s : State)
  | raised (e : Status) (s : State)

/-- Go on with the next line of the pseudocode unless the line before it raised (R221). -/
def Res.andThen {α β : Type} (r : Res α) (f : α → State → Res β) : Res β :=
  match r with
  | .done a s => f a s
  | .raised e s => .raised e s

/-- The state a sub-operation left, whether it raised or not. -/
def Res.state {α : Type} : Res α → State
  | .done _ s => s
  | .raised _ s => s

/-- Go on after a step that may have stopped the machine. -/
def onNext (r : StepResult) (f : State → StepResult) : StepResult :=
  match r with
  | .next s => f s
  | .fault e => .fault e
  | .refused e => .refused e

/-! ## Outputs -/

/-- Emit an event on the diagnostic output; no other state changes (R245). -/
def State.logEvent (s : State) (e : LogEvent) : State :=
  { s with log := s.log ++ [e] }

/-- Give a response (R87); `sync` names the SEND_SYNC it ends, if that command was outstanding. -/
def State.respond (s : State) (sync : Option Nat) (status : Status) (results : Results) : State :=
  { s with responses := s.responses ++ [{ sync := sync, status := status, results := results }] }

/-- Append a transaction to the bus trace (R44). -/
def State.record (s : State) (t : BusTxn) : State :=
  { s with trace := s.trace ++ [t] }

/-! ## The environment's answers -/

/-- What the chip makes of the next transaction: the next of its answers, or freely (R44; log entry 2). -/
def nextAnswer (s : State) : ChipAnswer :=
  match s.chip with
  | a :: _ => a
  | [] => if Config.freeOk s.draws then .gives [] else .fails

/-- Byte `i` of an answer: the chip's, or free where the answer gives none (R44; log entry 2). -/
def answerByte (data : List Byte) (base i : Nat) : Byte :=
  data.getD i (Config.freeByte (base + i))

/-- The answer has been used; the free values move on past the `n` bytes it may have taken. -/
def State.useAnswer (s : State) (n : Nat) : State :=
  { s with chip := s.chip.tail, draws := s.draws + (n + 1) }

/-- The time at the next sampling: never earlier than the one before (R242; log entry 3). -/
def nextTime (s : State) : Nat :=
  match s.ticks with
  | t :: _ => s.clock + t
  | [] => s.clock + Config.freeTick s.draws

/-- `now()`: the state after sampling `nextTime` (R242). -/
def State.sampleTime (s : State) : State :=
  { s with clock := nextTime s, ticks := s.ticks.tail, draws := s.draws + 1 }

/-! ## The four primitives -/

/-- GetByte (R41): one read transaction. -/
def getByte (reg : RegAddr) (s : State) : Res Byte :=
  match nextAnswer s with
  | .fails => .raised .ioError ((s.useAnswer 1).record (.getByte reg none))
  | .gives data =>
    let b := answerByte data s.draws 0
    .done b ((s.useAnswer 1).record (.getByte reg (some b)))

/-- GetBytes (R42): one bulk read transaction of register `reg`; on failure no bytes are returned. Every rule issues it with
`REG_FIFO` only (log entry 17). -/
def getBytes (reg : RegAddr) (count : Nat) (s : State) : Res (List Byte) :=
  match nextAnswer s with
  | .fails => .raised .ioError ((s.useAnswer count).record (.getBytes reg count none))
  | .gives data =>
    let bs := (List.range count).map (answerByte data s.draws)
    .done bs ((s.useAnswer count).record (.getBytes reg count (some bs)))

/-- SetByte (R43): one write transaction. -/
def setByte (reg : RegAddr) (val : Byte) (s : State) : Res Unit :=
  match nextAnswer s with
  | .fails => .raised .ioError ((s.useAnswer 0).record (.setByte reg val false))
  | .gives _ => .done () ((s.useAnswer 0).record (.setByte reg val true))

/-- SetBytes (R43): one bulk write transaction to register `reg`. Every rule issues it with `REG_FIFO` only (log entry 17). -/
def setBytes (reg : RegAddr) (vals : List Byte) (s : State) : Res Unit :=
  match nextAnswer s with
  | .fails => .raised .ioError ((s.useAnswer 0).record (.setBytes reg vals false))
  | .gives _ => .done () ((s.useAnswer 0).record (.setBytes reg vals true))

/-! ## The end of a command -/

/-- End a command that has no results: its status is OK, or the status a sub-operation raised (R221). -/
def endCommand (r : Res Unit) : StepResult :=
  match r with
  | .done _ s => .next (s.respond none .ok .none)
  | .raised e s => .next (s.respond none e .none)

/-! ## Mode access -/

/-- SET_MODE (R111): the cache is written on success only. -/
def setMode (m : Byte) (s : State) : Res Unit :=
  (setByte regOpMode m s).andThen fun _ s => .done () { s with st := { s.st with mode := some m } }

/-- GET_MODE (R112): the chip's mode under the mask of R74, 0x87; the cache is not written (D13). -/
def getMode (s : State) : Res Byte :=
  (getByte regOpMode s).andThen fun v s => .done (s.cfg.maskMode v) s

/-- ENTER_RX (R124): the DIO mapping, then RXCONTINUOUS. -/
def enterRx (s : State) : Res Unit :=
  (setByte regDioMapping1 s.cfg.dioMapRxDone s).andThen fun _ s => setMode s.cfg.modeRxContinuous s

/-! ## Transmission -/

/-- "Currently transmitting": the cached mode is TX; none is not equal to it (R12, R21). -/
def State.transmitting (s : State) : Bool :=
  s.st.mode == some s.cfg.modeTx

/-- TRIM (R159): the newest `limit` elements. -/
def trim {α : Type} (limit : Nat) (l : List α) : List α :=
  if l.length > limit then l.drop (l.length - limit) else l

/-- BEGIN_TX (R155): the start time is recorded last, and only when every transaction succeeded.
Its messages have 1 to 255 bytes (log entry 26). -/
def beginTx (msg : List Byte) (s : State) : Res Unit :=
  (setMode s.cfg.modeStandby s).andThen fun _ s =>
  (setByte regFifoAddrPtr 0 s).andThen fun _ s =>
  (setBytes s.cfg.regFifo msg s).andThen fun _ s =>
  (setByte regPayloadLength (BitVec.ofNat 8 msg.length) s).andThen fun _ s =>
  (setByte regDioMapping1 s.cfg.dioMapTxDone s).andThen fun _ s =>
  (setMode s.cfg.modeTx s).andThen fun _ s =>
  .done () { s.sampleTime with st := { s.st with txStart := some (nextTime s) } }

/-- START_NEXT (R156): the front message is consumed whether its start succeeds or not; a failed start is logged, frees the
lock and does nothing more (D30). It is called with a non-empty backlog only (log entry 26). -/
def startNext (s : State) : State :=
  match s.st.backlog with
  | [] => s
  | msg :: rest =>
    match beginTx msg { s with st := { s.st with backlog := rest, txLock := .arb } } with
    | .done _ s => s
    | .raised _ s => { s.logEvent .txStartFailed with st := { s.st with txLock := .free } }

end Sys2Proof.Machine
end

