-- ==== Sys2Proof/Machine/FecCodec.lean ====
section
/-! DEFINITION. The FEC codec (43_fec_codec.md): PACKET_ENCODE and PACKET_DECODE over the codeword layout of 30_encoding.md
R71 to R73. Both are pure functions of their operand and the model's
arguments (R200, R6). -/

namespace Sys2Proof.Machine

/-- `PLAIN_LEN` (R6). -/
def plainLen : Nat := 200
/-- `CODE_LEN` (R6). -/
def codeLen : Nat := 255

/-- `n` consecutive pieces of `size` bytes. -/
def chunks (size : Nat) : Nat → List Byte → List (List Byte)
  | 0, _ => []
  | n + 1, bs => bs.take size :: chunks size n (bs.drop size)

/-- A data block: the 5 bytes of a shard and their CRC8 (R72). -/
def Decided.dataBlock (g : Decided) (shard : List Byte) : List Byte :=
  shard ++ [g.crc8 shard]

/-- The codeword of a plaintext (R71, R201). -/
def Decided.packetEncode (g : Decided) (plain : List Byte) : List Byte :=
  let d := chunks shardLen kData plain
  d.flatMap g.dataBlock ++ (g.rsParityShards d).flatten

/-- The 40 data blocks of a received word (R71). -/
def dataBlocks (rx : List Byte) : List (List Byte) :=
  chunks (shardLen + 1) kData rx

/-- The 40 data shards as received (R202). -/
def receivedShards (rx : List Byte) : List (List Byte) :=
  (dataBlocks rx).map (List.take shardLen)

/-- The 3 parity shards as received, "verbatim" (R73, R202). -/
def receivedParity (rx : List Byte) : List (List Byte) :=
  chunks shardLen mPar (rx.drop (kData * (shardLen + 1)))

/-- Whether a data block fails its CRC (R202). -/
def Decided.blockFails (g : Decided) (block : List Byte) : Bool :=
  g.crc8 (block.take shardLen) != block.getD shardLen 0

/-- E: the data blocks that fail their CRC, ascending (R202). -/
def Decided.erasures (g : Decided) (rx : List Byte) : List Nat :=
  (List.range kData).filter fun i => g.blockFails ((dataBlocks rx).getD i [])

/-- The data PACKET_DECODE returns when at most 3 blocks fail (R202, R208). -/
def Decided.packetDecodeData (g : Decided) (rx : List Byte) : List Byte :=
  let d := receivedShards rx
  let E := g.erasures rx
  (if E.isEmpty then d else g.rsReconstruct d (receivedParity rx) E).flatten

/-- PACKET_ENCODE (R201): it always succeeds. -/
def execPacketEncode (plain : List Byte) (s : State) : StepResult :=
  if plain.length = plainLen then .next (s.respond none .ok (.bytes (s.cfg.packetEncode plain)))
  else .refused .operandLength

/-- PACKET_DECODE (R202, R207, R208): with more than 3 erasures the status is FECFailure and the 200 data bytes are free
(U1; log entry 14). -/
def execPacketDecode (rx : List Byte) (s : State) : StepResult :=
  if rx.length = codeLen then
    if (s.cfg.erasures rx).length > mPar then
      .next ({ s with draws := s.draws + plainLen }.respond none .fecFailure (.bytes (Config.freeBytes s.draws plainLen)))
    else .next (s.respond none .ok (.bytes (s.cfg.packetDecodeData rx)))
  else .refused .operandLength

end Sys2Proof.Machine
end

