-- ==== Sys2Proof/Machine/LinkArbiter.lean ====
section
/-! DEFINITION. The LinkArbiter (41_link_arbiter.md): START, STOP, SEND, SEND_SYNC, FLUSH_RX, the steps of a SEND_SYNC agent,
the interrupt edge of the environment (60_exceptions.md R232) and the three event steps of the arbiter. -/

namespace Sys2Proof.Machine

/-! ## Host commands -/

/-- START (R141): it demands `st.configured` and clears the three handoffs before it enters RXCONTINUOUS. -/
def execStart (s : State) : StepResult :=
  if s.st.running then endCommand (.done () s)
  else if s.st.configured then
    endCommand
      ((enterRx { s with st := { s.st with irqPending := 0, msgPending := 0, stopPending := false } }).andThen fun _ s =>
      .done () { s with st := { s.st with running := true } })
  else endCommand (.raised .initializationError s)

/-- STOP (R142): fire-and-forget; EV_STOP does the work. -/
def execStop (s : State) : StepResult :=
  if s.st.running then endCommand (.done () { s with st := { s.st with stopPending := true } })
  else endCommand (.done () s)

/-- `MSG_MAX` (R6): the payload-length register is one byte (R17). -/
def msgMax : Nat := 255

/-- SEND (R143), refused while not running (U6) and for an empty message (U7). -/
def execSend (msg : List Byte) (s : State) : StepResult :=
  if !s.st.running then .refused .notRunning
  else if msg.isEmpty then .refused .emptyMessage
  else if msg.length > msgMax then endCommand (.raised .messageTooLongError s)
  else
    endCommand (.done () { s with st := { s.st with
      backlog := trim s.cfg.pileupLimit (s.st.backlog ++ [msg]), msgPending := s.st.msgPending + 1 } })

/-- FLUSH_RX (R146): one indivisible swap, whether or not the arbiter runs. -/
def execFlushRx (s : State) : StepResult :=
  .next ({ s with st := { s.st with rxbuf := [] } }.respond none .ok (.messages s.st.rxbuf))

/-! ## SEND_SYNC and its agents -/

/-- Whether a SEND_SYNC's begin step is enabled (R144): the lock is free and the radio is not transmitting. It also needs a
running arbiter: a suspended SEND_SYNC does not begin on a stopped one (log entry 7). -/
def State.canBeginSync (s : State) : Bool :=
  s.st.running && s.st.txLock == .free && !s.transmitting

/-- Put the SEND_SYNC agent `id` in another place. -/
def State.setSyncPhase (s : State) (id : Nat) (ph : SyncPhase) : State :=
  { s with syncs := s.syncs.map fun a => if a.id = id then { a with phase := ph } else a }

/-- The SEND_SYNC `id` returns with a status: its agent is gone and its caller has the response. -/
def State.endSync (s : State) (id : Nat) (status : Status) : State :=
  { s with syncs := s.syncs.filter fun a => a.id ≠ id }.respond (some id) status .none

/-- `release(id)`: the lock is freed only if this SEND_SYNC still holds it (R145). -/
def State.releaseSync (s : State) (id : Nat) : State :=
  if s.st.txLock = .sync id then { s with st := { s.st with txLock := .free } } else s

/-- The begin step of SYNC(id) (R144). -/
def syncBegin (id : Nat) (msg : List Byte) (s : State) : StepResult :=
  match beginTx msg { s with st := { s.st with txLock := .sync id } } with
  | .done _ s => .next (s.setSyncPhase id (.polling 0))
  | .raised e s => .next ({ s with st := { s.st with txLock := .free } }.endSync id e)

/-- Whether a finite `SYNC_POLL_MAX` is used up after so many polls (U8; log entry 18). -/
def pollsExhausted (limit : Option Nat) (polls : Nat) : Bool :=
  match limit with
  | none => false
  | some m => decide (m ≤ polls)

/-- A poll step of SYNC(id) after so many polls (R145): it reads the chip, not the cache. -/
def syncPoll (id polls : Nat) (s : State) : StepResult :=
  if pollsExhausted s.cfg.syncPollMax polls then .fault .syncPollsExhausted
  else
    match getMode s with
    | .raised e s => .next ((s.releaseSync id).endSync id e)
    | .done v s =>
      if v = s.cfg.modeTx then .next (s.setSyncPhase id (.polling (polls + 1)))
      else .next ((s.releaseSync id).endSync id .ok)

/-- A step of the SEND_SYNC agent `id`: its begin step if that is enabled, a poll step if it polls; a suspended agent holds,
and where there is no such agent nothing moves (R144, R145). -/
def syncStep (id : Nat) (s : State) : StepResult :=
  match s.syncs.find? (fun a => a.id = id) with
  | none => .next s
  | some a =>
    match a.phase with
    | .waiting msg => if s.canBeginSync then syncBegin id msg s else .next s
    | .polling polls => syncPoll id polls s

/-- Issue a SEND_SYNC: its agent gets the next id and is suspended before its begin step (R144). -/
def State.issueSync (s : State) (msg : List Byte) : State :=
  { s with syncs := s.syncs ++ [{ id := s.nextSyncId, phase := .waiting msg }], nextSyncId := s.nextSyncId + 1 }

/-- SEND_SYNC (R144), refused while not running (U6) and for an empty message (U7). The length is tested at issue; then the
command's agent takes its begin step at once if that is enabled, and its caller is suspended if it is not (log entry 8). -/
def execSendSync (msg : List Byte) (s : State) : StepResult :=
  if !s.st.running then .refused .notRunning
  else if msg.isEmpty then .refused .emptyMessage
  else if msg.length > msgMax then endCommand (.raised .messageTooLongError s)
  else if s.canBeginSync then syncBegin s.nextSyncId msg (s.issueSync msg)
  else .next (s.issueSync msg)

/-! ## The interrupt edge -/

/-- Whether a finite capacity is used up (U4). -/
def capReached (cap : Option Nat) (n : Nat) : Bool :=
  match cap with
  | none => false
  | some c => decide (c ≤ n)

/-- ENV.irq (R232): an edge is counted once the interrupt is registered, and ignored before. -/
def envEdge (s : State) : StepResult :=
  if s.st.irqRegistered then
    if capReached s.cfg.irqQueueDepth s.st.irqPending then .fault .irqQueueFull
    else .next { s with st := { s.st with irqPending := s.st.irqPending + 1 } }
  else .next s

/-! ## The event steps -/

/-- The transactions of RX_PACKET (R152), in its order: the payload (no bulk read when the length is 0, D37), the SNR byte and
the RSSI byte. -/
def readPacket (s : State) : Res (List Byte × Byte × Byte) :=
  (getByte regRxNbBytes s).andThen fun n s =>
  (getByte regFifoRxCurrent s).andThen fun a s =>
  (setByte regFifoAddrPtr a s).andThen fun _ s =>
  (if n = 0 then .done [] s else getBytes s.cfg.regFifo n.toNat s).andThen fun pay s =>
  (getByte regPktSnr s).andThen fun snr s =>
  (getByte regPktRssi s).andThen fun rssi s =>
  .done (pay, snr, rssi) s

/-- RX_PACKET (R152): a failed transaction is logged and nothing is appended (R226). -/
def rxPacket (s : State) : StepResult :=
  match readPacket s with
  | .raised _ s => .next (s.logEvent .irqIoError)
  | .done (pay, snr, rssi) s =>
    match s.st.params with
    | none => .fault .noParams
    | some p =>
      if capReached s.cfg.rxbufCap s.st.rxbuf.length then .fault .rxbufFull
      else
        .next { s.sampleTime with st := { s.st with rxbuf := s.st.rxbuf ++
          [{ payload := pay, rssiRaw := rssi, snrRaw := snr, timestamp := nextTime s, params := p }] } }

/-- RX_BRANCH (R150). -/
def rxBranch (flags : Byte) (s : State) : StepResult :=
  if s.cfg.rxPacketReady flags then rxPacket s else .next s

/-- What follows a transmit-complete once the lock is free (R149): the next message, or back to receive; a failure of the
latter is logged (R226). -/
def afterTx (s : State) : State :=
  if s.st.backlog.isEmpty then
    match enterRx s with
    | .done _ s => s
    | .raised _ s => s.logEvent .irqIoError
  else startNext s

/-- TX_BRANCH (R149): the elapsed time is recorded and the lock freed, whoever held it. -/
def txBranch (flags : Byte) (s : State) : StepResult :=
  if flagSet flags s.cfg.irqTxDone then
    match s.st.txStart with
    | none => .fault .noTxStart
    | some t0 =>
      let elapsed := nextTime s - t0
      .next (afterTx ({ s.sampleTime with st := { s.st with
        lastTxElapsed := some elapsed, txLock := .free } }.logEvent (.txElapsed elapsed)))
  else .next s

/-- The read that begins every EV_IRQ; a failure is logged and gives no flags (R148, R226). -/
def readIrqFlags (s : State) : Option Byte × State :=
  match getByte regIrqFlags s with
  | .done flags s => (some flags, s)
  | .raised _ s => (none, s.logEvent .irqIoError)

/-- The branch of EV_IRQ, chosen by the cached mode (R148, R151); none is taken when the read of the flags failed. -/
def irqBranch (mode flags : Option Byte) (s : State) : StepResult :=
  if mode = some s.cfg.modeTx then
    match flags with
    | some f => txBranch f s
    | none => .next s
  else if mode = some s.cfg.modeRxContinuous then
    match flags with
    | some f => rxBranch f s
    | none => .next s
  else .next s

/-- The last transaction of every EV_IRQ: the flags are cleared; a failure is logged and ignored (R148, R226). -/
def clearIrqFlags (s : State) : State :=
  match setByte regIrqFlags irqClearAll s with
  | .done _ s => s
  | .raised _ s => s.logEvent .irqIoError

/-- The interrupt handler (R148, R226, R236, R237): one unit of the count is consumed, the flags are read, the branch runs,
the flags are cleared. -/
def handleIrq (s : State) : StepResult :=
  let r := readIrqFlags { s with st := { s.st with irqPending := s.st.irqPending - 1 } }
  onNext (irqBranch s.st.mode r.1 r.2) fun s => .next (clearIrqFlags s)

/-- EV_IRQ (R147, R148): enabled while the arbiter runs and an edge is pending; otherwise ARB is suspended and takes no
step (log entry 11). -/
def execEvIrq (s : State) : StepResult :=
  if s.st.running && decide (0 < s.st.irqPending) then handleIrq s else .next s

/-- The new-message handler (R153). -/
def handleMsg (s : State) : State :=
  let s := { s with st := { s.st with msgPending := s.st.msgPending - 1 } }
  if s.transmitting then s else startNext s

/-- EV_MSG (R147, R153): enabled while the arbiter runs and a message notification is pending (log entry 11). -/
def execEvMsg (s : State) : StepResult :=
  if s.st.running && decide (0 < s.st.msgPending) then .next (handleMsg s) else .next s

/-- The STANDBY write of the stop handler; a failure is logged and the stop proceeds (R154, R226). -/
def enterStandbyForStop (s : State) : State :=
  match setMode s.cfg.modeStandby s with
  | .done _ s => s
  | .raised _ s => s.logEvent .stopIoError

/-- The stop handler (R154): the receive buffer is kept. -/
def handleStop (s : State) : State :=
  let s := enterStandbyForStop { s with st := { s.st with stopPending := false } }
  { s with st := { s.st with backlog := [], irqPending := 0, msgPending := 0, txLock := .free, running := false } }

/-- EV_STOP (R147, R154): enabled while the arbiter runs and a stop is pending (log entry 11). -/
def execEvStop (s : State) : StepResult :=
  if s.st.running && s.st.stopPending then .next (handleStop s) else .next s

end Sys2Proof.Machine
end

