-- ==== Sys2Proof/Machine/ModeController.lean ====
section
/-! DEFINITION. The ModeController (40_mode_controller.md): the parameter setters, INITIALIZE, and the commands CONFIGURE and
RECONFIGURE. -/

namespace Sys2Proof.Machine

/-! ## Parameter setters -/

/-- SET_BANDWIDTH (R114). -/
def setBandwidth (bw : BitVec 32) (s : State) : Res Unit :=
  match s.cfg.bwCode bw with
  | none => .raised .configurationError s
  | some code =>
    (getByte regModemConfig1 s).andThen fun v s => setByte regModemConfig1 (withBwCode v code) s

/-- SET_SPREADING_FACTOR (R115). -/
def setSpreadingFactor (sf : Byte) (s : State) : Res Unit :=
  if spreadingFactorOk sf then
    (getByte regModemConfig2 s).andThen fun v s => setByte regModemConfig2 (withSpreadingFactor v sf) s
  else .raised .configurationError s

/-- SET_CODING_RATE (R116). -/
def setCodingRate (cr : Byte) (s : State) : Res Unit :=
  if codingRateOk cr then
    (getByte regModemConfig1 s).andThen fun v s => setByte regModemConfig1 (withCodingRate v cr) s
  else .raised .configurationError s

/-- SET_PREAMBLE (R117): two plain writes, big-endian (R80, D17). -/
def setPreamble (n : BitVec 16) (s : State) : Res Unit :=
  if preambleLengthOk n then
    (setByte regPreambleMsb (byteOf n.toNat 1) s).andThen fun _ s => setByte regPreambleLsb (byteOf n.toNat 0) s
  else .raised .configurationError s

/-- SET_FREQUENCY (R118): three writes, most significant byte first. It is reached with an encodable frequency only (U5). -/
def setFrequency (f : BitVec 64) (s : State) : Res Unit :=
  (setByte regFrfMsb (byteOf (frf f) 2) s).andThen fun _ s =>
  (setByte regFrfMid (byteOf (frf f) 1) s).andThen fun _ s =>
  setByte regFrfLsb (byteOf (frf f) 0) s

/-- SET_LNA (R119). -/
def setLna (s : State) : Res Unit :=
  setByte regLna s.cfg.lnaGainByte s

/-- SET_TX_POWER (R120). -/
def setTxPower (s : State) : Res Unit :=
  setByte regPaConfig s.cfg.txPowerByte s

/-! ## INITIALIZE -/

/-- `INIT_ATTEMPTS` (R6). -/
def initAttempts : Nat := 10

/-- The SLEEP write of an attempt; a failure is logged and not raised (R121, D14). -/
def attemptWrite (s : State) : State :=
  match setMode s.cfg.modeSleep s with
  | .done _ s => s
  | .raised _ s => s.logEvent .initWriteFailed

/-- The read-back of an attempt, after INIT_WAIT (zero time, R241; log entry 4): whether it shows SLEEP|LORA, judged on the
read-back alone; a failure is logged and not raised (R121). -/
def attemptRead (s : State) : Bool × State :=
  match getMode s with
  | .done v s => (v == s.cfg.modeSleep, s)
  | .raised _ s => (false, s.logEvent .initReadFailed)

/-- The bounded retry: up to `n` attempts, ending with the first that verifies (R121). -/
def verifySleep : Nat → State → Bool × State
  | 0, s => (false, s)
  | n + 1, s =>
    match attemptRead (attemptWrite s) with
    | (true, s) => (true, s)
    | (false, s) => verifySleep n s

/-- What INITIALIZE does once the mode is verified: it registers the interrupt and programs the chip; the first failure is
raised (R121). -/
def programChip (p : RadioParameters) (s : State) : Res Unit :=
  (setByte regFifoTxBase 0 { s with st := { s.st with irqRegistered := true } }).andThen fun _ s =>
  (setByte regFifoRxBase 0 s).andThen fun _ s =>
  (setMode s.cfg.modeStandby s).andThen fun _ s =>
  (setBandwidth p.bandwidthHz s).andThen fun _ s =>
  (setSpreadingFactor p.spreadingFactor s).andThen fun _ s =>
  (setCodingRate p.codingRate s).andThen fun _ s =>
  (setPreamble p.preambleLength s).andThen fun _ s =>
  (setFrequency p.frequencyHz s).andThen fun _ s =>
  (setLna s).andThen fun _ s =>
  (setTxPower s).andThen fun _ s =>
  .done () { s with st := { s.st with configured := true } }

/-- INITIALIZE (R121). -/
def initializeChip (p : RadioParameters) (s : State) : Res Unit :=
  match verifySleep initAttempts { s with st := { s.st with configured := false } } with
  | (true, s) => programChip p s
  | (false, s) => .raised .initializationError s

/-! ## Commands -/

/-- CONFIGURE (R122), refused while running (U10) and, once the record is valid, for a frequency that has no encoding (U5;
log entry 10). -/
def execConfigure (p : RadioParameters) (s : State) : StepResult :=
  if s.st.running then .refused .configureWhileRunning
  else if s.cfg.validParams p then
    if frequencyEncodable p.frequencyHz then
      endCommand (initializeChip p { s with st := { s.st with params := some p } })
    else .refused .frequencyNotEncodable
  else endCommand (.raised .configurationError s)

/-- RECONFIGURE (R123): BusyError before everything else, whatever the record is; RXCONTINUOUS is entered again whether or
not the arbiter runs. A failure leaves what the lines before it have written (R221; DEDUCED for `configured`: log entry 28). -/
def execReconfigure (p : RadioParameters) (s : State) : StepResult :=
  if s.transmitting then endCommand (.raised .busyError s)
  else if s.cfg.validParams p then
    if frequencyEncodable p.frequencyHz then
      endCommand
        ((setMode s.cfg.modeStandby s).andThen fun _ s =>
        (initializeChip p { s with st := { s.st with params := some p } }).andThen fun _ s =>
        enterRx s)
    else .refused .frequencyNotEncodable
  else endCommand (.raised .configurationError s)

end Sys2Proof.Machine
end

