-- ==== Sys2Proof/Machine/Dispatch.lean ====
section
/-! DEFINITION. exec: one arm for each instruction, one call of its meaning. -/

namespace Sys2Proof.Machine

/-- The effect of one instruction: a command taken from the port, or an event step of the arbiter. -/
def exec (i : Instr) (s : State) : Host.Outcome State Fault Refusal :=
  match i with
  | .configure p => Sys2Proof.Machine.execConfigure p s
  | .start => Sys2Proof.Machine.execStart s
  | .stop => Sys2Proof.Machine.execStop s
  | .send msg => Sys2Proof.Machine.execSend msg s
  | .sendSync msg => Sys2Proof.Machine.execSendSync msg s
  | .flushRx => Sys2Proof.Machine.execFlushRx s
  | .packetEncode plain => Sys2Proof.Machine.execPacketEncode plain s
  | .packetDecode rx => Sys2Proof.Machine.execPacketDecode rx s
  | .reconfigure p => Sys2Proof.Machine.execReconfigure p s
  | .evIrq => Sys2Proof.Machine.execEvIrq s
  | .evMsg => Sys2Proof.Machine.execEvMsg s
  | .evStop => Sys2Proof.Machine.execEvStop s

end Sys2Proof.Machine
end

