-- ==== Sys2Proof/Machine/Fetch.lean ====
section
/-! DEFINITION. What a step takes up: the next turn (20_memory.md R51), the next command of the port (30_encoding.md R87,
R94), and where the host places an instruction so that the next step runs it. -/

namespace Sys2Proof.Machine

/-- The agent that moves next: the next of the turns, or a free choice (R51, U14; log entry 1). -/
def nextTurn (s : State) : Turn :=
  match s.turns with
  | t :: _ => t
  | [] => Config.freeTurn s.draws

/-- The turn has been taken; the free values move on. -/
def State.takeTurn (s : State) : State :=
  { s with turns := s.turns.tail, draws := s.draws + 1 }

/-- What a HOST turn finds on the command port. -/
inductive Fetched where
  /-- A whole command; the bytes after it stay on the port. -/
  | command (i : Instr) (rest : List Byte)
  /-- No whole command has been presented yet: the caller goes on presenting it (log entry 12). -/
  | nothing
  /-- A reserved opcode (R93 a, U9). -/
  | reserved (op : Byte)
  deriving DecidableEq, Repr

/-- The next command of the port (R87, R94). -/
def fetchCommand (port : List Byte) : Fetched :=
  match decodeCommand port with
  | .ok (i, rest) => .command i rest
  | .error .incomplete => .nothing
  | .error (.reservedOpcode op) => .reserved op

/-- The bytes of the one command a table word stands for, without the zeros after it; for a word that is no command its
first byte. -/
def tableCommandBytes (nbits w : Nat) : List Byte :=
  let bs := tableBytes nbits w
  match decodeCommand bs with
  | .ok (_, rest) => bs.take (bs.length - rest.length)
  | .error _ => [tableByte w 0]

/-- Place a command's bytes at the front of the port and give the next turn to a HOST caller. -/
def State.withCommandBytes (s : State) (bs : List Byte) : State :=
  { s with port := bs ++ s.port, turns := .host :: s.turns }

/-- Make an event of this kind the next step of a running arbiter (R147): the event is pending and the turn is ARB's (log
entry 16). -/
def State.withEvent (s : State) (k : EventKind) : State :=
  match k with
  | .irq => { s with st := { s.st with running := true, irqPending := s.st.irqPending + 1 }, turns := .arb .irq :: s.turns }
  | .msg => { s with st := { s.st with running := true, msgPending := s.st.msgPending + 1 }, turns := .arb .msg :: s.turns }
  | .stop => { s with st := { s.st with running := true, stopPending := true }, turns := .arb .stop :: s.turns }

/-- Place the instruction of a table word where the next step takes it up (log entries 15, 16 and 25). -/
def placeTableWord (s : State) (nbits w : Nat) : State :=
  if nbits < 8 then
    match tableEvent nbits w with
    | some k => s.withEvent k
    | none => s
  else
    match decodeCommand (tableBytes nbits w), tableEvent nbits w with
    | .error _, some k => s.withEvent k
    | _, _ => s.withCommandBytes (tableCommandBytes nbits w)

end Sys2Proof.Machine
end

