-- ==== Sys2Proof/Machine/Step.lean ====
section
/-! DEFINITION. One step of the block: the agent whose turn it is takes one atomic step (20_memory.md R51). -/

namespace Sys2Proof.Machine

/-- One step. A HOST turn takes the next whole command off the port and runs it; an ARB turn runs the event step of its kind;
a SYNC turn is a step of that SEND_SYNC agent; an edge is counted. -/
def step (s : State) : Host.Outcome State Fault Refusal :=
  match nextTurn s with
  | .host =>
    match fetchCommand s.port with
    | .command i rest => exec i { s.takeTurn with port := rest }
    | .nothing => .next s.takeTurn
    | .reserved op => .refused (.reservedOpcode op)
  | .arb k => exec k.instr s.takeTurn
  | .sync id => syncStep id s.takeTurn
  | .edge => envEdge s.takeTurn

/-- `s` with the instruction of a table word placed where the next step takes it up. -/
def State.withFetchWord (s : State) (nbits w : Nat) : State :=
  placeTableWord s nbits w

end Sys2Proof.Machine
end

