-- ==== Sys2Proof/Safety.lean ====
section
/-! DEFINITION. The terms statements use: the invariant of the block (10_state.md R31 and what the rules around it derive), the
mode the bus trace shows, and the transactions the register map lists (20_memory.md R45). -/

namespace Sys2Proof.Machine

/-- The length of a message that may wait for transmission (R31 ii). -/
def messageOk (msg : List Byte) : Prop :=
  1 ≤ msg.length ∧ msg.length ≤ 255

/-- The four mode bytes the block writes (R16, R31 vi). -/
def Decided.legalMode (d : Decided) (m : Byte) : Prop :=
  m = d.modeSleep ∨ m = d.modeStandby ∨ m = d.modeTx ∨ m = d.modeRxContinuous

/-- The arguments of the model that have a decided default are at it (R6), as they are after reset: the state of a block as the
rules print it, with their numbers. A statement that prints such a number is about these states. -/
abbrev State.decidedDefaults (s : State) : Prop :=
  s.cfg.toDecided = Decided.standard

/-- The invariant of the block, for every choice of the model's arguments in which the TX mode has a byte of its own. -/
structure State.Inv (s : State) : Prop where
  /-- The TX mode's byte is none of the other three (R75). -/
  tx_mode_apart : s.cfg.modeTx ≠ s.cfg.modeSleep ∧ s.cfg.modeTx ≠ s.cfg.modeStandby ∧
    s.cfg.modeTx ≠ s.cfg.modeRxContinuous
  /-- `PILEUP_LIMIT` is at least 1 (R6). -/
  pileup_pos : 1 ≤ s.cfg.pileupLimit
  /-- R31 (i), R19. -/
  backlog_bounded : s.st.backlog.length ≤ s.cfg.pileupLimit
  /-- R31 (ii). -/
  backlog_messages : ∀ msg ∈ s.st.backlog, messageOk msg
  /-- R31 (v), R15; and the stored frequency has an encoding (U5). -/
  params_valid : ∀ p, s.st.params = some p → s.cfg.validParams p = true ∧ frequencyEncodable p.frequencyHz = true
  /-- R31 (vi). -/
  mode_legal : ∀ m, s.st.mode = some m → s.cfg.legalMode m
  /-- The start time is set while the cached mode is TX (R149). -/
  tx_start_set : s.transmitting = true → s.st.txStart.isSome = true
  /-- The start time is past, so that the elapsed time is a duration (R97). -/
  tx_start_past : ∀ t, s.st.txStart = some t → t ≤ s.clock
  /-- A held lock implies a running arbiter (R31 iv, R154). -/
  lock_running : s.st.txLock ≠ .free → s.st.running = true
  /-- A held lock implies that the cached mode is TX (R153, C13). -/
  lock_transmitting : s.st.txLock ≠ .free → s.transmitting = true
  /-- SYNC(id) is an outstanding SEND_SYNC that polls (R10 c, R23). -/
  lock_sync : ∀ id, s.st.txLock = .sync id → ∃ n, ⟨id, .polling n⟩ ∈ s.syncs
  /-- A configured block has parameters (R12, R24). -/
  configured_params : s.st.configured = true → s.st.params.isSome = true
  /-- A running arbiter has parameters (R12, R31 iii). -/
  running_params : s.st.running = true → s.st.params.isSome = true
  /-- A stopped arbiter has an empty backlog and no pending message or stop (R141, R142, R154). -/
  stopped_idle : s.st.running = false → s.st.backlog = [] ∧ s.st.msgPending = 0 ∧ s.st.stopPending = false
  /-- Edges are counted only once the interrupt is registered (R231, R232). -/
  irq_counted : 0 < s.st.irqPending → s.st.irqRegistered = true
  /-- A suspended SEND_SYNC holds a message of 1 to 255 bytes (R144). -/
  waiting_messages : ∀ a ∈ s.syncs, ∀ msg, a.phase = .waiting msg → messageOk msg
  /-- The ids of the outstanding SEND_SYNCs are below the next one. -/
  sync_ids_old : ∀ a ∈ s.syncs, a.id < s.nextSyncId
  /-- The ids of the outstanding SEND_SYNCs differ from one another. -/
  sync_ids_distinct : (s.syncs.map SyncAgent.id).Nodup
  /-- A received payload has at most 255 bytes (R18), and valid parameters are stamped on it. -/
  rxbuf_messages : ∀ m ∈ s.st.rxbuf, m.payload.length ≤ 255 ∧ s.cfg.validParams m.params = true ∧ m.timestamp ≤ s.clock
  /-- Received messages stand in the order of their timestamps (R20, R158, R242). -/
  rxbuf_ordered : (s.st.rxbuf.map ReceivedMessage.timestamp).Pairwise (· ≤ ·)

/-- The mode byte last written to register 0x01 successfully, in a piece of the bus trace, if any; `m` if none (R21). -/
def lastModeWrite (m : Option Byte) (trace : List BusTxn) : Option Byte :=
  trace.foldl (fun acc t =>
    match t with
    | .setByte reg val true => if reg = regOpMode then some val else acc
    | _ => acc) m

/-- The registers the block reads with GetByte (R45). -/
def readableRegs : List RegAddr :=
  [0x01, 0x10, 0x12, 0x13, 0x19, 0x1A, 0x1D, 0x1E]

/-- The registers the block writes with SetByte (R45). -/
def writableRegs : List RegAddr :=
  [0x01, 0x06, 0x07, 0x08, 0x09, 0x0C, 0x0D, 0x0E, 0x0F, 0x12, 0x1D, 0x1E, 0x20, 0x21, 0x22, 0x40]

/-- A transaction that the register map lists as an access by this block, with the values it lists where it lists them (R16,
R45, R82 to R84, R93 d); `d` gives the addresses and values that are arguments of the model. -/
def Decided.listedTxn (d : Decided) : BusTxn → Prop
  | .getByte reg _ => reg ∈ readableRegs
  | .getBytes reg count _ => reg = d.regFifo ∧ 1 ≤ count ∧ count ≤ 255
  | .setBytes reg vals _ => reg = d.regFifo ∧ 1 ≤ vals.length ∧ vals.length ≤ 255
  | .setByte reg val _ =>
    reg ∈ writableRegs ∧ (reg = 0x01 → d.legalMode val) ∧ (reg = 0x0E ∨ reg = 0x0F → val = 0) ∧ (reg = 0x12 → val = 0xFF)
      ∧ (reg = 0x40 → val = d.dioMapRxDone ∨ val = d.dioMapTxDone)

/-- The byte an answer gives to a read, if it gives one. -/
def ChipAnswer.byte? : ChipAnswer → Option Byte
  | .fails => none
  | .gives data => data.head?

/-- The transactions of an attempt of INITIALIZE (R121), by the chip's answers to its write and its read; the read's answer has
a byte or is a failure. -/
def attemptTxns (a : ChipAnswer × ChipAnswer) : List BusTxn :=
  [.setByte 0x01 0x80 (decide (a.1 ≠ .fails)), .getByte 0x01 a.2.byte?]

/-- What an attempt of INITIALIZE logs (R121). -/
def attemptLog (a : ChipAnswer × ChipAnswer) : List LogEvent :=
  (if a.1 = .fails then [.initWriteFailed] else []) ++ (if a.2 = .fails then [.initReadFailed] else [])

/-- A transaction of a course: the chip's answer that lets it succeed, how it then stands in the bus trace, and how it stands
there when it fails. -/
abbrev TxnStep : Type := ChipAnswer × BusTxn × BusTxn

/-- A read that the chip answers with `v`. -/
def readStep (reg : RegAddr) (v : Byte) : TxnStep :=
  (.gives [v], .getByte reg (some v), .getByte reg none)

/-- A write, answered with `d`, which no rule looks at. -/
def writeStep (d : List Byte) (reg : RegAddr) (val : Byte) : TxnStep :=
  (.gives d, .setByte reg val true, .setByte reg val false)

/-- The chip's answers that let the first `k` steps succeed. -/
def answersTo (steps : List TxnStep) (k : Nat) : List ChipAnswer :=
  (steps.take k).map fun x => x.1

/-- The transactions of a course whose steps all succeed. -/
def succeeding (steps : List TxnStep) : List BusTxn :=
  steps.map fun x => x.2.1

/-- The transactions of a course whose first `k` steps succeed and whose next one fails: none after it is issued (R221). -/
def failingAt (steps : List TxnStep) (k : Nat) : List BusTxn :=
  succeeding (steps.take k) ++ ((steps.drop k).take 1).map (fun x => x.2.2)

/-- The sixteen transactions of INITIALIZE once the mode is verified (R114 to R121): `code` is the bandwidth's code, `v1`, `v2`,
`v3` are what the chip answers to the reads of 0x1D, 0x1E and 0x1D, and `d i` to the write number `i`. -/
def programmingSteps (p : RadioParameters) (cfg : Config) (code v1 v2 v3 : Byte) (d : Nat → List Byte) : List TxnStep :=
  let steps := (p.frequencyHz.toNat * 512 + 15625) / 31250
  [writeStep (d 0) 0x0E 0x00, writeStep (d 1) 0x0F 0x00, writeStep (d 2) 0x01 0x81,
   readStep 0x1D v1, writeStep (d 3) 0x1D ((v1 &&& 0x0F) ||| (code <<< 4)),
   readStep 0x1E v2, writeStep (d 4) 0x1E ((v2 &&& 0x0F) ||| (p.spreadingFactor <<< 4)),
   readStep 0x1D v3, writeStep (d 5) 0x1D ((v3 &&& 0xF1) ||| ((p.codingRate - 4) <<< 1)),
   writeStep (d 6) 0x20 (BitVec.ofNat 8 (p.preambleLength.toNat / 256)), writeStep (d 7) 0x21 (BitVec.ofNat 8 p.preambleLength.toNat),
   writeStep (d 8) 0x06 (BitVec.ofNat 8 (steps / 65536)), writeStep (d 9) 0x07 (BitVec.ofNat 8 (steps / 256)),
   writeStep (d 10) 0x08 (BitVec.ofNat 8 steps), writeStep (d 11) 0x0C cfg.lnaGainByte, writeStep (d 12) 0x09 cfg.txPowerByte]

/-- The two transactions of ENTER_RX (R124). -/
def enterRxSteps (d : Nat → List Byte) : List TxnStep :=
  [writeStep (d 0) 0x40 0x00, writeStep (d 1) 0x01 0x85]

/-- The six transactions of BEGIN_TX (R155), each still without its outcome. -/
def beginTxTxns (msg : List Byte) : List (Bool → BusTxn) :=
  [.setByte 0x01 0x81, .setByte 0x0D 0x00, .setBytes 0x00 msg, .setByte 0x22 (BitVec.ofNat 8 msg.length), .setByte 0x40 0x40,
   .setByte 0x01 0x83]

/-- The transactions issued when the first `k` succeed and the next one fails: none after it (R155, R221). -/
def cutShort (txns : List (Bool → BusTxn)) (k : Nat) : List BusTxn :=
  (txns.take k).map (fun x => x true) ++ ((txns.drop k).take 1).map (fun x => x false)

/-- The transactions of RX_PACKET (R152). A packet of length 0 has no bulk read. -/
def rxPacketTxns (n a snr rssi : Byte) (d pay : List Byte) : List TxnStep :=
  let payload : List TxnStep :=
    if n = 0 then [] else [(.gives pay, .getBytes 0x00 n.toNat (some pay), .getBytes 0x00 n.toNat none)]
  [readStep 0x13 n, readStep 0x10 a, writeStep d 0x0D a] ++ payload ++ [readStep 0x19 snr, readStep 0x1A rssi]

/-- `t` differs from `s` at most in the record `st`, the outputs and the environment's inputs: the outstanding SEND_SYNCs, the
command port, the turns and the parameters are the same. -/
def State.sameHosts (s t : State) : Prop :=
  t.syncs = s.syncs ∧ t.nextSyncId = s.nextSyncId ∧ t.port = s.port ∧ t.turns = s.turns ∧ t.cfg = s.cfg

/-! ## The tables as the spec prints them -/

/-- EXP as R183 prints it; index 255 repeats index 0. -/
def printedExp : List Byte :=
  [0x01, 0x02, 0x04, 0x08, 0x10, 0x20, 0x40, 0x80, 0x1D, 0x3A, 0x74, 0xE8, 0xCD, 0x87, 0x13, 0x26]
    ++ [0x4C, 0x98, 0x2D, 0x5A, 0xB4, 0x75, 0xEA, 0xC9, 0x8F, 0x03, 0x06, 0x0C, 0x18, 0x30, 0x60, 0xC0]
    ++ [0x9D, 0x27, 0x4E, 0x9C, 0x25, 0x4A, 0x94, 0x35, 0x6A, 0xD4, 0xB5, 0x77, 0xEE, 0xC1, 0x9F, 0x23]
    ++ [0x46, 0x8C, 0x05, 0x0A, 0x14, 0x28, 0x50, 0xA0, 0x5D, 0xBA, 0x69, 0xD2, 0xB9, 0x6F, 0xDE, 0xA1]
    ++ [0x5F, 0xBE, 0x61, 0xC2, 0x99, 0x2F, 0x5E, 0xBC, 0x65, 0xCA, 0x89, 0x0F, 0x1E, 0x3C, 0x78, 0xF0]
    ++ [0xFD, 0xE7, 0xD3, 0xBB, 0x6B, 0xD6, 0xB1, 0x7F, 0xFE, 0xE1, 0xDF, 0xA3, 0x5B, 0xB6, 0x71, 0xE2]
    ++ [0xD9, 0xAF, 0x43, 0x86, 0x11, 0x22, 0x44, 0x88, 0x0D, 0x1A, 0x34, 0x68, 0xD0, 0xBD, 0x67, 0xCE]
    ++ [0x81, 0x1F, 0x3E, 0x7C, 0xF8, 0xED, 0xC7, 0x93, 0x3B, 0x76, 0xEC, 0xC5, 0x97, 0x33, 0x66, 0xCC]
    ++ [0x85, 0x17, 0x2E, 0x5C, 0xB8, 0x6D, 0xDA, 0xA9, 0x4F, 0x9E, 0x21, 0x42, 0x84, 0x15, 0x2A, 0x54]
    ++ [0xA8, 0x4D, 0x9A, 0x29, 0x52, 0xA4, 0x55, 0xAA, 0x49, 0x92, 0x39, 0x72, 0xE4, 0xD5, 0xB7, 0x73]
    ++ [0xE6, 0xD1, 0xBF, 0x63, 0xC6, 0x91, 0x3F, 0x7E, 0xFC, 0xE5, 0xD7, 0xB3, 0x7B, 0xF6, 0xF1, 0xFF]
    ++ [0xE3, 0xDB, 0xAB, 0x4B, 0x96, 0x31, 0x62, 0xC4, 0x95, 0x37, 0x6E, 0xDC, 0xA5, 0x57, 0xAE, 0x41]
    ++ [0x82, 0x19, 0x32, 0x64, 0xC8, 0x8D, 0x07, 0x0E, 0x1C, 0x38, 0x70, 0xE0, 0xDD, 0xA7, 0x53, 0xA6]
    ++ [0x51, 0xA2, 0x59, 0xB2, 0x79, 0xF2, 0xF9, 0xEF, 0xC3, 0x9B, 0x2B, 0x56, 0xAC, 0x45, 0x8A, 0x09]
    ++ [0x12, 0x24, 0x48, 0x90, 0x3D, 0x7A, 0xF4, 0xF5, 0xF7, 0xF3, 0xFB, 0xEB, 0xCB, 0x8B, 0x0B, 0x16]
    ++ [0x2C, 0x58, 0xB0, 0x7D, 0xFA, 0xE9, 0xCF, 0x83, 0x1B, 0x36, 0x6C, 0xD8, 0xAD, 0x47, 0x8E, 0x01]

/-- LOG as R183 prints it, from the entry for 01 on: the one for 00 is undefined. -/
def printedLog : List Byte :=
  [0x00, 0x01, 0x19, 0x02, 0x32, 0x1A, 0xC6, 0x03, 0xDF, 0x33, 0xEE, 0x1B, 0x68, 0xC7, 0x4B]
    ++ [0x04, 0x64, 0xE0, 0x0E, 0x34, 0x8D, 0xEF, 0x81, 0x1C, 0xC1, 0x69, 0xF8, 0xC8, 0x08, 0x4C, 0x71]
    ++ [0x05, 0x8A, 0x65, 0x2F, 0xE1, 0x24, 0x0F, 0x21, 0x35, 0x93, 0x8E, 0xDA, 0xF0, 0x12, 0x82, 0x45]
    ++ [0x1D, 0xB5, 0xC2, 0x7D, 0x6A, 0x27, 0xF9, 0xB9, 0xC9, 0x9A, 0x09, 0x78, 0x4D, 0xE4, 0x72, 0xA6]
    ++ [0x06, 0xBF, 0x8B, 0x62, 0x66, 0xDD, 0x30, 0xFD, 0xE2, 0x98, 0x25, 0xB3, 0x10, 0x91, 0x22, 0x88]
    ++ [0x36, 0xD0, 0x94, 0xCE, 0x8F, 0x96, 0xDB, 0xBD, 0xF1, 0xD2, 0x13, 0x5C, 0x83, 0x38, 0x46, 0x40]
    ++ [0x1E, 0x42, 0xB6, 0xA3, 0xC3, 0x48, 0x7E, 0x6E, 0x6B, 0x3A, 0x28, 0x54, 0xFA, 0x85, 0xBA, 0x3D]
    ++ [0xCA, 0x5E, 0x9B, 0x9F, 0x0A, 0x15, 0x79, 0x2B, 0x4E, 0xD4, 0xE5, 0xAC, 0x73, 0xF3, 0xA7, 0x57]
    ++ [0x07, 0x70, 0xC0, 0xF7, 0x8C, 0x80, 0x63, 0x0D, 0x67, 0x4A, 0xDE, 0xED, 0x31, 0xC5, 0xFE, 0x18]
    ++ [0xE3, 0xA5, 0x99, 0x77, 0x26, 0xB8, 0xB4, 0x7C, 0x11, 0x44, 0x92, 0xD9, 0x23, 0x20, 0x89, 0x2E]
    ++ [0x37, 0x3F, 0xD1, 0x5B, 0x95, 0xBC, 0xCF, 0xCD, 0x90, 0x87, 0x97, 0xB2, 0xDC, 0xFC, 0xBE, 0x61]
    ++ [0xF2, 0x56, 0xD3, 0xAB, 0x14, 0x2A, 0x5D, 0x9E, 0x84, 0x3C, 0x39, 0x53, 0x47, 0x6D, 0x41, 0xA2]
    ++ [0x1F, 0x2D, 0x43, 0xD8, 0xB7, 0x7B, 0xA4, 0x76, 0xC4, 0x17, 0x49, 0xEC, 0x7F, 0x0C, 0x6F, 0xF6]
    ++ [0x6C, 0xA1, 0x3B, 0x52, 0x29, 0x9D, 0x55, 0xAA, 0xFB, 0x60, 0x86, 0xB1, 0xBB, 0xCC, 0x3E, 0x5A]
    ++ [0xCB, 0x59, 0x5F, 0xB0, 0x9C, 0xA9, 0xA0, 0x51, 0x0B, 0xF5, 0x16, 0xEB, 0x7A, 0x75, 0x2C, 0xD7]
    ++ [0x4F, 0xAE, 0xD5, 0xE9, 0xE6, 0xE7, 0xAD, 0xE8, 0x74, 0xD6, 0xF4, 0xEA, 0xA8, 0x50, 0x58, 0xAF]

/-- CRC_TABLE as R187 prints it. -/
def printedCrcTable : List Byte :=
  [0x00, 0x5E, 0xBC, 0xE2, 0x61, 0x3F, 0xDD, 0x83, 0xC2, 0x9C, 0x7E, 0x20, 0xA3, 0xFD, 0x1F, 0x41]
    ++ [0x9D, 0xC3, 0x21, 0x7F, 0xFC, 0xA2, 0x40, 0x1E, 0x5F, 0x01, 0xE3, 0xBD, 0x3E, 0x60, 0x82, 0xDC]
    ++ [0x23, 0x7D, 0x9F, 0xC1, 0x42, 0x1C, 0xFE, 0xA0, 0xE1, 0xBF, 0x5D, 0x03, 0x80, 0xDE, 0x3C, 0x62]
    ++ [0xBE, 0xE0, 0x02, 0x5C, 0xDF, 0x81, 0x63, 0x3D, 0x7C, 0x22, 0xC0, 0x9E, 0x1D, 0x43, 0xA1, 0xFF]
    ++ [0x46, 0x18, 0xFA, 0xA4, 0x27, 0x79, 0x9B, 0xC5, 0x84, 0xDA, 0x38, 0x66, 0xE5, 0xBB, 0x59, 0x07]
    ++ [0xDB, 0x85, 0x67, 0x39, 0xBA, 0xE4, 0x06, 0x58, 0x19, 0x47, 0xA5, 0xFB, 0x78, 0x26, 0xC4, 0x9A]
    ++ [0x65, 0x3B, 0xD9, 0x87, 0x04, 0x5A, 0xB8, 0xE6, 0xA7, 0xF9, 0x1B, 0x45, 0xC6, 0x98, 0x7A, 0x24]
    ++ [0xF8, 0xA6, 0x44, 0x1A, 0x99, 0xC7, 0x25, 0x7B, 0x3A, 0x64, 0x86, 0xD8, 0x5B, 0x05, 0xE7, 0xB9]
    ++ [0x8C, 0xD2, 0x30, 0x6E, 0xED, 0xB3, 0x51, 0x0F, 0x4E, 0x10, 0xF2, 0xAC, 0x2F, 0x71, 0x93, 0xCD]
    ++ [0x11, 0x4F, 0xAD, 0xF3, 0x70, 0x2E, 0xCC, 0x92, 0xD3, 0x8D, 0x6F, 0x31, 0xB2, 0xEC, 0x0E, 0x50]
    ++ [0xAF, 0xF1, 0x13, 0x4D, 0xCE, 0x90, 0x72, 0x2C, 0x6D, 0x33, 0xD1, 0x8F, 0x0C, 0x52, 0xB0, 0xEE]
    ++ [0x32, 0x6C, 0x8E, 0xD0, 0x53, 0x0D, 0xEF, 0xB1, 0xF0, 0xAE, 0x4C, 0x12, 0x91, 0xCF, 0x2D, 0x73]
    ++ [0xCA, 0x94, 0x76, 0x28, 0xAB, 0xF5, 0x17, 0x49, 0x08, 0x56, 0xB4, 0xEA, 0x69, 0x37, 0xD5, 0x8B]
    ++ [0x57, 0x09, 0xEB, 0xB5, 0x36, 0x68, 0x8A, 0xD4, 0x95, 0xCB, 0x29, 0x77, 0xF4, 0xAA, 0x48, 0x16]
    ++ [0xE9, 0xB7, 0x55, 0x0B, 0x88, 0xD6, 0x34, 0x6A, 0x2B, 0x75, 0x97, 0xC9, 0x4A, 0x14, 0xF6, 0xA8]
    ++ [0x74, 0x2A, 0xC8, 0x96, 0x15, 0x4B, 0xA9, 0xF7, 0xB6, 0xE8, 0x0A, 0x54, 0xD7, 0x89, 0x6B, 0x35]

end Sys2Proof.Machine
end

