-- ==== Sys2Proof/Certificates/Slice0/Obligations.lean ====
section
/-! DEFINITION. The statements for the provers, in the order of the spec's files. Each docstring names the rule it formalises. -/

open Sys2Proof Sys2Proof.Machine

/-! ## Encodings (30_encoding.md) -/

/-- Decoding the encoding of a well-formed instruction gives it back, whatever follows it on the port (R87, R92, R94, R96). -/
def Obligations.DecodeOfEncodeIsTheInstruction : Prop :=
  ∀ i : Instr, i.wellFormed = true →
    decode (encode i) = some i ∧
    ∀ bs rest, encode i = .portBytes bs → decodeCommand (bs ++ rest) = .ok (i, rest)

/-- Bytes that decode are the encoding of the well-formed command they decode to, followed by the rest (R87, R94). -/
def Obligations.DecodedBytesAreTheEncoding : Prop :=
  ∀ bytes i rest, decodeCommand bytes = .ok (i, rest) →
    i.wellFormed = true ∧ i.isCommand = true ∧ ∃ bs, encode i = .portBytes bs ∧ bytes = bs ++ rest

/-- Words written out from the spec's tables decode to the instructions they stand for (R87, R92, R96; 95_test_vectors.md
Part 4). -/
def Obligations.WrittenOutWordsDecode : Prop :=
  decodeCommand [0x01, 0x00, 0x00, 0x00, 0x00, 0x36, 0x89, 0xCA, 0xC0, 0x00, 0x01, 0xE8, 0x48, 0x07, 0x05, 0x00, 0x08]
      = .ok (.configure ⟨915000000, 125000, 7, 5, 8⟩, []) ∧
  decodeCommand [0x09, 0x00, 0x00, 0x00, 0x00, 0x33, 0xBE, 0x27, 0xA0, 0x00, 0x07, 0xA1, 0x20, 0x0C, 0x08, 0x00, 0x06]
      = .ok (.reconfigure ⟨868100000, 500000, 12, 8, 6⟩, []) ∧
  decodeCommand [0x02] = .ok (.start, []) ∧
  decodeCommand [0x03] = .ok (.stop, []) ∧
  decodeCommand [0x04, 0x00, 0x02, 0x41, 0x42] = .ok (.send [0x41, 0x42], []) ∧
  decodeCommand [0x05, 0x00, 0x01, 0x43] = .ok (.sendSync [0x43], []) ∧
  decodeCommand [0x06] = .ok (.flushRx, []) ∧
  decodeEvent 0 = some .irq ∧ decodeEvent 1 = some .msg ∧ decodeEvent 2 = some .stop ∧ decodeEvent 3 = none

/-- Opcodes 0x00 and 0x0A to 0xFF are reserved and refused, and no other opcode is (R88, R93 a, U9). -/
def Obligations.ReservedOpcodesAreRefused : Prop :=
  ∀ (op : Byte) (bs : List Byte),
    ((op.toNat = 0 ∨ 10 ≤ op.toNat) →
      decodeCommand (op :: bs) = .error (.reservedOpcode op) ∧
      ∀ s : State, nextTurn s = .host → s.port = op :: bs → step s = .refused (.reservedOpcode op)) ∧
    (1 ≤ op.toNat → op.toNat ≤ 9 → ∀ e, decodeCommand (op :: bs) ≠ .error (.reservedOpcode e))

/-- The frequency step count is the rounded quotient; it fits 24 bits up to 1023999969 Hz, and then the three register bytes,
most significant first, are its big-endian digits (R81, R118). -/
def Obligations.FrequencyStepCountBytes : Prop :=
  ∀ (f : BitVec 64) (s : State) (d1 d2 d3 : List Byte) (rest : List ChipAnswer),
    s.chip = .gives d1 :: .gives d2 :: .gives d3 :: rest →
    (f.toNat ≤ 1023999969 ↔ frequencyEncodable f = true) ∧
    ∃ b2 b1 b0 t, setFrequency f s = .done () t ∧
      t.trace = s.trace ++ ([.setByte 0x06 b2 true, .setByte 0x07 b1 true, .setByte 0x08 b0 true] : List BusTxn) ∧
      t.chip = rest ∧ t.st = s.st ∧
      (f.toNat ≤ 1023999969 →
        let steps := b2.toNat * 65536 + b1.toNat * 256 + b0.toNat
        -- the nearest multiple of 15625/256 Hz: no tie occurs
        2 * (f.toNat * 256) < (2 * steps + 1) * 15625 ∧ steps * 2 * 15625 < 2 * (f.toNat * 256) + 15625)

/-- Telemetry and the responses that carry it: the conversions are a signed integer and signed quarter decibels with their ranges
(R18, R85); the status codes (R89); a response is the status byte and the results (R87), a FLUSH_RX response the count and the
records, and a record has the layout of R91 and R92. The count and a timestamp too large for their bytes are taken modulo 2^32
and 2^64: the model's choice, log entry 20. -/
def Obligations.TelemetryRanges : Prop :=
  (∀ m : ReceivedMessage,
    rssiDbm m = (m.rssiRaw.toNat : Int) - 137 ∧ -137 ≤ rssiDbm m ∧ rssiDbm m ≤ 118 ∧
    snrQuarterDb m = (if m.snrRaw.toNat < 128 then (m.snrRaw.toNat : Int) else (m.snrRaw.toNat : Int) - 256) ∧
    -128 ≤ snrQuarterDb m ∧ snrQuarterDb m ≤ 127) ∧
  (Status.ok.code = 0 ∧ Status.configurationError.code = 1 ∧ Status.ioError.code = 2 ∧ Status.initializationError.code = 3 ∧
    Status.busyError.code = 4 ∧ Status.messageTooLongError.code = 5 ∧ Status.fecFailure.code = 6) ∧
  (∀ (sync : Option Nat) (e : Status) (bs : List Byte) (ms : List ReceivedMessage),
    responseBytes ⟨sync, e, .none⟩ = [e.code] ∧ responseBytes ⟨sync, e, .bytes bs⟩ = e.code :: bs ∧
    ∃ count, responseBytes ⟨sync, e, .messages ms⟩ = e.code :: (count ++ ms.flatMap messageBytes) ∧ count.length = 4 ∧
      beNat count = ms.length % 2 ^ 32) ∧
  (∀ m : ReceivedMessage, m.payload.length ≤ 255 →
    let field (start width : Nat) := beNat (((messageBytes m).drop (m.payload.length + start)).take width)
    (messageBytes m).length = m.payload.length + 27 ∧
    (messageBytes m)[0]? = some (BitVec.ofNat 8 m.payload.length) ∧
    ((messageBytes m).drop 1).take m.payload.length = m.payload ∧
    field 1 1 = m.rssiRaw.toNat ∧ field 2 1 = m.snrRaw.toNat ∧ field 3 8 = m.timestamp % 2 ^ 64 ∧
    field 11 8 = m.params.frequencyHz.toNat ∧ field 19 4 = m.params.bandwidthHz.toNat ∧
    field 23 1 = m.params.spreadingFactor.toNat ∧ field 24 1 = m.params.codingRate.toNat ∧
    field 25 2 = m.params.preambleLength.toNat)

/-- R90: each command returns at most one response in its own step, with one of the statuses R90 lists for it, and an event step
returns none; a later step of a SEND_SYNC's agent returns that command's OK or IOError. That this response names the SEND_SYNC's
id is the model's choice, log entry 20. -/
def Obligations.StatusesEachCommandCanReturn : Prop :=
  (∀ (i : Instr) (s t : State), exec i s = .next t →
    ∃ new, t.responses = s.responses ++ new ∧ new.length ≤ 1 ∧
      (i.isCommand = false → new = []) ∧
      (i.isCommand = true → (∀ msg, i ≠ .sendSync msg) → new.length = 1) ∧
      ∀ r ∈ new, r.status ∈ match i with
        | .configure _ => [Status.ok, .configurationError, .ioError, .initializationError]
        | .reconfigure _ => [Status.ok, .configurationError, .ioError, .initializationError, .busyError]
        | .start => [Status.ok, .initializationError, .ioError]
        | .stop => [Status.ok]
        | .send _ => [Status.ok, .messageTooLongError]
        | .sendSync _ => [Status.ok, .messageTooLongError, .ioError]
        | .flushRx => [Status.ok]
        | .packetEncode _ => [Status.ok]
        | .packetDecode _ => [Status.ok, .fecFailure]
        | .evIrq | .evMsg | .evStop => []) ∧
  (∀ (id : Nat) (s t : State), syncStep id s = .next t →
    ∃ new, t.responses = s.responses ++ new ∧ new.length ≤ 1 ∧
      ∀ r ∈ new, r.sync = some id ∧ (r.status = .ok ∨ r.status = .ioError))

/-! ## The step and reset (10_state.md, 20_memory.md, 70_reset_and_hazards.md) -/

/-- A HOST turn runs the command at the front of the port: the step is exec of it, with the turn taken and its bytes off the
port (R14, R51, R55). -/
def Obligations.StepRunsTheCommandOnThePort : Prop :=
  ∀ (s : State) (i : Instr) (rest : List Byte), nextTurn s = .host → decodeCommand s.port = .ok (i, rest) →
    step s = exec i { s with port := rest, turns := s.turns.tail, draws := s.draws + 1 }

/-- An ARB turn runs the event step of its kind, a SYNC turn that agent's step, and an edge is delivered; an unfinished command
on the port waits (R10, R51, R147, R232; the turns are the model's, log entries 1 and 12). -/
def Obligations.StepRunsTheTurnOfTheAgent : Prop :=
  ∀ s : State,
    (∀ k, nextTurn s = .arb k →
      step s = exec (match k with | .irq => .evIrq | .msg => .evMsg | .stop => .evStop)
        { s with turns := s.turns.tail, draws := s.draws + 1 }) ∧
    (∀ id, nextTurn s = .sync id → step s = syncStep id { s with turns := s.turns.tail, draws := s.draws + 1 }) ∧
    (nextTurn s = .edge → step s = envEdge { s with turns := s.turns.tail, draws := s.draws + 1 }) ∧
    (nextTurn s = .host → decodeCommand s.port = .error .incomplete →
      step s = .next { s with turns := s.turns.tail, draws := s.draws + 1 })

/-- After reset every element of `st` holds its reset value, and an interrupt edge is not counted (R30); no SEND_SYNC is outstanding
(R261). That the bus trace is then empty is the model's choice, log entry 6: the trace counts from reset. -/
def Obligations.ResetValues : Prop :=
  State.reset.st.params = none ∧ State.reset.st.mode = none ∧ State.reset.st.configured = false ∧
  State.reset.st.irqRegistered = false ∧ State.reset.st.running = false ∧ State.reset.st.backlog = [] ∧
  State.reset.st.rxbuf = [] ∧ State.reset.st.txStart = none ∧ State.reset.st.lastTxElapsed = none ∧
  State.reset.st.txLock = .free ∧ State.reset.st.irqPending = 0 ∧ State.reset.st.msgPending = 0 ∧
  State.reset.st.stopPending = false ∧ State.reset.syncs = [] ∧ State.reset.trace = [] ∧
  envEdge State.reset = .next State.reset

/-- The invariant holds after reset (R30, R31). -/
def Obligations.ResetMeetsTheInvariant : Prop :=
  State.reset.Inv

/-- Every step keeps the invariant (R31, R97, R153, R154). That a held lock implies a running arbiter is the spec's for ARB's lock
only (R31 iv); for a SEND_SYNC's lock it is the model's deduction that a suspended SEND_SYNC does not begin on a stopped arbiter
(log entry 7). -/
def Obligations.EveryStepKeepsTheInvariant : Prop :=
  ∀ s t : State, s.Inv → step s = .next t → t.Inv

/-- The cached mode is the byte last written to register 0x01 successfully: whatever a step adds to the bus trace moves the
cache exactly so (R21, R56). -/
def Obligations.ModeCacheIsTheLastModeWrite : Prop :=
  ∀ s t : State, step s = .next t →
    ∃ new, t.trace = s.trace ++ new ∧ t.st.mode = lastModeWrite s.st.mode new

/-- Every transaction a step issues is one the register map lists, with the values it lists; the addresses and values that are
arguments of the model are the state's (R45, R16, R82, R83, R6). -/
def Obligations.OnlyListedTransactionsAreIssued : Prop :=
  ∀ s t : State, s.Inv → step s = .next t →
    ∃ new, t.trace = s.trace ++ new ∧ ∀ x ∈ new, s.cfg.listedTxn x

/-- The outputs only grow, time never goes back, and the parameters stay (R44, R242, R245, R6). -/
def Obligations.OutputsGrowAndTimeIsMonotonic : Prop :=
  ∀ s t : State, step s = .next t →
    s.trace <+: t.trace ∧ s.responses <+: t.responses ∧ s.log <+: t.log ∧ s.clock ≤ t.clock ∧ t.cfg = s.cfg

/-- Transmission takes precedence: a step that takes the cached mode from TX to RXCONTINUOUS leaves no message waiting, and
one that takes it from TX to anything but TX and RXCONTINUOUS is a stop or a failed start (R157, R160). -/
def Obligations.TransmitModeIsLeftOnlyWhenDrained : Prop :=
  ∀ s t : State, s.Inv → s.decidedDefaults → s.st.running = true → s.st.mode = some 0x83 → step s = .next t →
    (t.st.mode = some 0x85 → s.st.backlog = [] ∧ t.st.backlog = []) ∧
    (t.st.mode = some 0x83 ∨ t.st.mode = some 0x85 ∨
      (t.st.mode = some 0x81 ∧ (t.st.running = false ∨ LogEvent.txStartFailed ∈ t.log.drop s.log.length)))

/-! ## FEC arithmetic (42_fec_arith.md) -/

/-- `⊕` and `⊗` make the bytes a field (R184, R185). -/
def Obligations.BytesFormAField : Prop :=
  let g := Decided.standard
  ∀ a b c : Byte,
    a ^^^ b = b ^^^ a ∧ (a ^^^ b) ^^^ c = a ^^^ (b ^^^ c) ∧ a ^^^ a = 0 ∧
    g.gfMul a b = g.gfMul b a ∧ g.gfMul (g.gfMul a b) c = g.gfMul a (g.gfMul b c) ∧
    g.gfMul a (b ^^^ c) = g.gfMul a b ^^^ g.gfMul a c ∧ g.gfMul a 0 = 0 ∧ g.gfMul a 1 = a ∧
    (g.gfMul a b = 0 → a = 0 ∨ b = 0) ∧ (a ≠ 0 → g.gfMul a (g.gfInv a) = 1)

/-- EXP holds the powers of the generator, LOG their exponents, and CRC_TABLE the CRC8 of each byte, and at the decided defaults the
three are the tables the spec prints (R183, R187). -/
def Obligations.ConstantTablesAgreeWithTheirRules : Prop :=
  let g := Decided.standard
  g.gfExp 0 = 1 ∧ (∀ i < 255, g.gfExp (i + 1) = g.gfMul 2 (g.gfExp i) ∧ g.gfLog (g.gfExp i) = i) ∧
  (∀ v < 256, g.crcTable[v]? = some (g.crc8 [BitVec.ofNat 8 v])) ∧
  (List.range 256).map g.gfExp = printedExp ∧
  (List.range 255).map (fun i => g.gfLog (BitVec.ofNat 8 (i + 1))) = printedLog.map BitVec.toNat ∧
  g.crcTable = printedCrcTable

/-- CRC8 is linear, and a change of one byte, wherever it stands, changes the CRC8 (R186, R187). -/
def Obligations.CrcIsLinearAndSeesOneByteChanges : Prop :=
  let g := Decided.standard
  (∀ a b : List Byte, a.length = b.length → g.crc8 (List.zipWith (· ^^^ ·) a b) = g.crc8 a ^^^ g.crc8 b) ∧
  (∀ (before after : List Byte) (x y : Byte), x ≠ y → g.crc8 (before ++ x :: after) ≠ g.crc8 (before ++ y :: after))

/-- Every square submatrix of `RS_PARITY` is invertible (R189). -/
def Obligations.EveryParitySubmatrixIsInvertible : Prop :=
  let g := Decided.standard
  (∀ j < 3, ∀ i < 40, g.rsParity j i ≠ 0) ∧
  (∀ j < 3, ∀ j' < j, ∀ a < 40, ∀ b < a, g.gfDet2 (g.rsParity j' b) (g.rsParity j' a) (g.rsParity j b) (g.rsParity j a) ≠ 0) ∧
  (∀ a < 40, ∀ b < a, ∀ c < b,
    g.gfDet3 (g.rsParity 0 c) (g.rsParity 0 b) (g.rsParity 0 a) (g.rsParity 1 c) (g.rsParity 1 b) (g.rsParity 1 a)
      (g.rsParity 2 c) (g.rsParity 2 b) (g.rsParity 2 a) ≠ 0)

/-- GF_SOLVE gives the one solution of the equations of up to three erased shards (R192, R193). -/
def Obligations.SolveGivesTheUniqueSolution : Prop :=
  let g := Decided.standard
  ∀ (E : List Nat) (rhs : Nat → Byte) (x : List Byte),
    E.Nodup → (∀ i ∈ E, i < 40) → 1 ≤ E.length → E.length ≤ 3 → x.length = E.length →
    ((∀ j < E.length, gfSum (List.zipWith (fun i xi => g.gfMul (g.rsParity j i) xi) E x) = rhs j) ↔ x = g.gfSolve E rhs)

/-! ## The FEC codec (43_fec_codec.md) -/

/-- PACKET_ENCODE succeeds on every 200 bytes, changes nothing but the responses, and its 255 bytes have the layout of R71 to
R73 (R191, R201). -/
def Obligations.PacketEncodeLayout : Prop :=
  ∀ (plain : List Byte) (s : State), plain.length = 200 →
    ∃ cw, exec (.packetEncode plain) s = .next { s with responses := s.responses ++ ([⟨none, .ok, .bytes cw⟩] : List Response) } ∧
      cw.length = 255 ∧
      (∀ i < 40, ∀ k < 5, cw[6 * i + k]? = plain[5 * i + k]?) ∧
      (∀ i < 40, cw[6 * i + 5]? = some (s.cfg.crc8 ((plain.drop (5 * i)).take 5))) ∧
      (∀ j < 3, ∀ k < 5, cw[240 + 5 * j + k]? =
        some (((List.range 40).map fun i => s.cfg.gfMul (s.cfg.rsParity j i) (plain.getD (5 * i + k) 0)).foldl (· ^^^ ·) 0))

/-- The map from plaintext to codeword is linear (R191, R201). -/
def Obligations.PacketEncodeIsLinear : Prop :=
  let g := Decided.standard
  ∀ a b : List Byte, a.length = 200 → b.length = 200 →
    g.packetEncode (List.zipWith (· ^^^ ·) a b) = List.zipWith (· ^^^ ·) (g.packetEncode a) (g.packetEncode b)

/-- Round trip (R203). -/
def Obligations.DecodeOfEncodedPacketIsThePlaintext : Prop :=
  ∀ (plain : List Byte) (s : State), plain.length = 200 →
    exec (.packetDecode (s.cfg.packetEncode plain)) s = .next { s with responses := s.responses ++ ([⟨none, .ok, .bytes plain⟩] : List Response) }

/-- FECFailure is returned exactly when more than 3 data blocks fail their CRC; in every case the unit answers 200 bytes and
leaves everything else (but the model's own counter) alone (R202, R207, R208). -/
def Obligations.FecFailureExactlyAboveThreeErasures : Prop :=
  ∀ (rx : List Byte) (s : State), rx.length = 255 →
    let failing := (List.range 40).filter fun i => s.cfg.crc8 ((rx.drop (6 * i)).take 5) != rx.getD (6 * i + 5) 0
    ∃ t status data, exec (.packetDecode rx) s = .next t ∧
      t = { s with responses := s.responses ++ ([⟨none, status, .bytes data⟩] : List Response), draws := t.draws } ∧ data.length = 200 ∧
      (status = .fecFailure ↔ 3 < failing.length) ∧ (status = .ok ↔ failing.length ≤ 3) ∧
      -- a block that passes its CRC is returned as received
      (status = .ok → ∀ i < 40, i ∉ failing → ∀ k < 5, data[5 * i + k]? = rx[6 * i + k]?)

/-- Corruption inside at most 3 data blocks that fail their CRC, with the parity intact, is corrected (R204). -/
def Obligations.LocatedCorruptionIsCorrected : Prop :=
  ∀ (plain rx : List Byte) (s : State), s.decidedDefaults → plain.length = 200 → rx.length = 255 →
    (∀ n < 255, rx[n]? ≠ (s.cfg.packetEncode plain)[n]? → n < 240 ∧
      s.cfg.crc8 ((rx.drop (6 * (n / 6))).take 5) ≠ rx.getD (6 * (n / 6) + 5) 0) →
    ((List.range 40).filter fun i => s.cfg.crc8 ((rx.drop (6 * i)).take 5) != rx.getD (6 * i + 5) 0).length ≤ 3 →
    exec (.packetDecode rx) s = .next { s with responses := s.responses ++ ([⟨none, .ok, .bytes plain⟩] : List Response) }

/-- Corrupted parity (R205): with e failing data blocks (at most 3) and all other data as encoded, the status is OK, and lane k
of the rebuilt shards is wrong somewhere exactly when byte k of a used parity shard (one of the first e) was changed; with more
than 3 the status is FECFailure, whatever the parity is. -/
def Obligations.CorruptedUsedParityGivesWrongData : Prop :=
  ∀ (plain rx : List Byte) (s : State), s.decidedDefaults → plain.length = 200 → rx.length = 255 →
    let failing := (List.range 40).filter fun i => s.cfg.crc8 ((rx.drop (6 * i)).take 5) != rx.getD (6 * i + 5) 0
    let cw := s.cfg.packetEncode plain
    (failing.length ≤ 3 → (∀ n < 240, rx[n]? ≠ cw[n]? → n / 6 ∈ failing) →
      ∃ data, exec (.packetDecode rx) s = .next { s with responses := s.responses ++ ([⟨none, .ok, .bytes data⟩] : List Response) } ∧
        data.length = 200 ∧ (∀ i < 40, i ∉ failing → ∀ k < 5, data[5 * i + k]? = plain[5 * i + k]?) ∧
        ∀ k < 5, (∃ i ∈ failing, data[5 * i + k]? ≠ plain[5 * i + k]?) ↔
          (∃ j < failing.length, rx[240 + 5 * j + k]? ≠ cw[240 + 5 * j + k]?)) ∧
    (3 < failing.length →
      ∃ t data, exec (.packetDecode rx) s = .next t ∧ t.responses = s.responses ++ ([⟨none, .fecFailure, .bytes data⟩] : List Response))

/-! ## The ModeController (40_mode_controller.md) -/

/-- SET_MODE writes the register and, on success only, the cache; GET_MODE returns the chip's byte under mask 0x87 and leaves the
cache alone (R111, R112). -/
def Obligations.ModeIsCachedOnSuccessfulWritesOnly : Prop :=
  ∀ s : State, s.decidedDefaults →
    (∀ (m : Byte) (d : List Byte), nextAnswer s = .gives d → ∃ t, setMode m s = .done () t ∧
      t.st = { s.st with mode := some m } ∧ t.trace = s.trace ++ ([.setByte 0x01 m true] : List BusTxn) ∧ t.log = s.log ∧
      t.responses = s.responses ∧ s.sameHosts t) ∧
    (∀ m : Byte, nextAnswer s = .fails → ∃ t, setMode m s = .raised .ioError t ∧ t.st = s.st ∧
      t.trace = s.trace ++ ([.setByte 0x01 m false] : List BusTxn) ∧ t.log = s.log ∧ t.responses = s.responses ∧ s.sameHosts t) ∧
    (∀ v d rest, s.chip = .gives (v :: d) :: rest → ∃ t, getMode s = .done (v &&& 0x87) t ∧ t.st = s.st ∧
      t.trace = s.trace ++ ([.getByte 0x01 (some v)] : List BusTxn) ∧ t.log = s.log ∧ t.responses = s.responses ∧ s.sameHosts t) ∧
    (nextAnswer s = .fails → ∃ t, getMode s = .raised .ioError t ∧ t.st = s.st ∧
      t.trace = s.trace ++ ([.getByte 0x01 none] : List BusTxn) ∧ t.log = s.log ∧ t.responses = s.responses ∧ s.sameHosts t)

/-- The three read-modify-write setters write their own field and keep every other bit of the register (R76 to R79, R114 to
R116). -/
def Obligations.SettersKeepTheOtherBits : Prop :=
  ∀ (s : State) (v : Byte) (d : List Byte) (rest : List ChipAnswer), s.decidedDefaults → s.chip = .gives [v] :: .gives d :: rest →
    (∀ x ∈ [((7800 : BitVec 32), (0 : BitVec 4)), (10400, 1), (15600, 2), (20800, 3), (31250, 4), (41700, 5), (62500, 6),
        (125000, 7), (250000, 8), (500000, 9)],
      ∃ w t, setBandwidth x.1 s = .done () t ∧ t.trace = s.trace ++ ([.getByte 0x1D (some v), .setByte 0x1D w true] : List BusTxn) ∧
        t.st = s.st ∧ w.extractLsb' 4 4 = x.2 ∧ w.extractLsb' 0 4 = v.extractLsb' 0 4) ∧
    (∀ sf : Byte, 7 ≤ sf.toNat → sf.toNat ≤ 12 →
      ∃ w t, setSpreadingFactor sf s = .done () t ∧ t.trace = s.trace ++ ([.getByte 0x1E (some v), .setByte 0x1E w true] : List BusTxn) ∧
        t.st = s.st ∧ (w.extractLsb' 4 4).toNat = sf.toNat ∧ w.extractLsb' 0 4 = v.extractLsb' 0 4) ∧
    (∀ cr : Byte, 5 ≤ cr.toNat → cr.toNat ≤ 8 →
      ∃ w t, setCodingRate cr s = .done () t ∧ t.trace = s.trace ++ ([.getByte 0x1D (some v), .setByte 0x1D w true] : List BusTxn) ∧
        t.st = s.st ∧ (w.extractLsb' 1 3).toNat = cr.toNat - 4 ∧ w.extractLsb' 4 4 = v.extractLsb' 4 4 ∧
        w.extractLsb' 0 1 = v.extractLsb' 0 1)

/-- The preamble pair is written big-endian, and a length below 6 is refused before any transaction (R80, R117). -/
def Obligations.PreambleIsWrittenBigEndian : Prop :=
  ∀ (n : BitVec 16) (s : State),
    (n.toNat < 6 → setPreamble n s = .raised .configurationError s) ∧
    (6 ≤ n.toNat → ∀ d1 d2 rest, s.chip = .gives d1 :: .gives d2 :: rest →
      ∃ hi lo t, setPreamble n s = .done () t ∧
        t.trace = s.trace ++ ([.setByte 0x20 hi true, .setByte 0x21 lo true] : List BusTxn) ∧ t.st = s.st ∧
        hi.toNat * 256 + lo.toNat = n.toNat)

/-- A record outside one of the four domains is rejected with ConfigurationError before the hardware is touched: nothing changes
but the response (R113, R222). That the domains are tested before the frequency (so that a record outside a domain whose
frequency has no encoding gives ConfigurationError and is not refused by U5) is the model's choice, log entry 10. -/
def Obligations.BadParametersAreRejectedPreHardware : Prop :=
  ∀ (p : RadioParameters) (s : State), s.decidedDefaults →
    (p.bandwidthHz.toNat ∉ [7800, 10400, 15600, 20800, 31250, 41700, 62500, 125000, 250000, 500000] ∨
      p.spreadingFactor.toNat < 6 ∨ p.spreadingFactor.toNat = 6 ∨ 12 < p.spreadingFactor.toNat ∨
      p.codingRate.toNat < 5 ∨ 8 < p.codingRate.toNat ∨ p.preambleLength.toNat < 6) →
    (s.st.running = false →
      exec (.configure p) s = .next { s with responses := s.responses ++ ([⟨none, .configurationError, .none⟩] : List Response) }) ∧
    (s.st.mode ≠ some 0x83 →
      exec (.reconfigure p) s = .next { s with responses := s.responses ++ ([⟨none, .configurationError, .none⟩] : List Response) })

/-- CONFIGURE completes: with up to nine attempts whose read-back does not verify, then one that does, and every later
transaction accepted, it issues the transactions of R121 in their order with the bytes of R114 to R120, and leaves STANDBY, the
interrupt registered, the parameters stored and the block configured (R114 to R122). -/
def Obligations.ConfigureProgramsTheChip : Prop :=
  ∀ (p : RadioParameters) (s : State) (code : Byte) (bad : List (ChipAnswer × ChipAnswer)) (w : ChipAnswer) (r v1 v2 v3 : Byte)
    (d : Nat → List Byte) (rest : List ChipAnswer),
    s.decidedDefaults → s.st.running = false →
    (p.bandwidthHz.toNat, code) ∈ [(7800, 0x00), (10400, 0x01), (15600, 0x02), (20800, 0x03), (31250, 0x04), (41700, 0x05),
      (62500, 0x06), (125000, 0x07), (250000, 0x08), (500000, 0x09)] →
    7 ≤ p.spreadingFactor.toNat → p.spreadingFactor.toNat ≤ 12 → 5 ≤ p.codingRate.toNat → p.codingRate.toNat ≤ 8 →
    6 ≤ p.preambleLength.toNat → p.frequencyHz.toNat ≤ 1023999969 →
    bad.length ≤ 9 → (∀ a ∈ bad, a.2 = .fails ∨ ∃ b d, a.2 = .gives (b :: d) ∧ b &&& 0x87 ≠ 0x80) → r &&& 0x87 = 0x80 →
    let attempts := bad ++ [(w, ChipAnswer.gives [r])]
    let steps := programmingSteps p s.cfg code v1 v2 v3 d
    s.chip = attempts.flatMap (fun a => [a.1, a.2]) ++ answersTo steps 16 ++ rest →
    ∃ t, exec (.configure p) s = .next t ∧
      t.st = { s.st with params := some p, mode := some 0x81, configured := true, irqRegistered := true } ∧
      t.trace = s.trace ++ attempts.flatMap attemptTxns ++ succeeding steps ∧
      t.log = s.log ++ attempts.flatMap attemptLog ∧
      t.responses = s.responses ++ ([⟨none, .ok, .none⟩] : List Response) ∧ t.chip = rest ∧ t.clock = s.clock ∧ s.sameHosts t

/-- Whatever the chip answers, a CONFIGURE of a valid record on a stopped arbiter completes with OK, IOError or
InitializationError, stores the record, and leaves the block configured exactly when the status is OK (R24, R122, R223,
R224). So does a RECONFIGURE while not transmitting: if its first SET_MODE fails it returns IOError and `st` is as before;
otherwise the record is stored, running or not, and the block is configured exactly when INITIALIZE succeeded, that is when its
last transaction did (R24, R121, R123: the pseudocode of R123 against the words of R264 and R278, log entry 28). The third and
the fourth part say when IOError is returned: once an attempt has verified, a failure of any of the sixteen later transactions of
INITIALIZE, or of the two of ENTER_RX, raises it at once; none of the later ones is issued (R114 to R121, R221). -/
def Obligations.ConfigureCompletesUnderEveryAnswer : Prop :=
  (∀ (p : RadioParameters) (s : State), s.decidedDefaults → s.st.running = false →
    p.bandwidthHz.toNat ∈ [7800, 10400, 15600, 20800, 31250, 41700, 62500, 125000, 250000, 500000] →
    7 ≤ p.spreadingFactor.toNat → p.spreadingFactor.toNat ≤ 12 → 5 ≤ p.codingRate.toNat → p.codingRate.toNat ≤ 8 →
    6 ≤ p.preambleLength.toNat → p.frequencyHz.toNat ≤ 1023999969 →
    ∃ t e, exec (.configure p) s = .next t ∧ t.responses = s.responses ++ ([⟨none, e, .none⟩] : List Response) ∧
      (e = .ok ∨ e = .ioError ∨ e = .initializationError) ∧ (t.st.configured = true ↔ e = .ok) ∧
      t.st = { s.st with params := some p, mode := t.st.mode, configured := t.st.configured,
                         irqRegistered := t.st.irqRegistered } ∧
      (e = .ok → t.st.mode = some 0x81 ∧ t.st.irqRegistered = true) ∧
      (s.st.irqRegistered = true → t.st.irqRegistered = true)) ∧
  (∀ (p : RadioParameters) (s : State), s.decidedDefaults → s.st.mode ≠ some 0x83 →
    p.bandwidthHz.toNat ∈ [7800, 10400, 15600, 20800, 31250, 41700, 62500, 125000, 250000, 500000] →
    7 ≤ p.spreadingFactor.toNat → p.spreadingFactor.toNat ≤ 12 → 5 ≤ p.codingRate.toNat → p.codingRate.toNat ≤ 8 →
    6 ≤ p.preambleLength.toNat → p.frequencyHz.toNat ≤ 1023999969 →
    (nextAnswer s = .fails →
      ∃ t, exec (.reconfigure p) s = .next t ∧ t.st = s.st ∧ t.trace = s.trace ++ ([.setByte 0x01 0x81 false] : List BusTxn) ∧
        t.responses = s.responses ++ ([⟨none, .ioError, .none⟩] : List Response) ∧ t.log = s.log ∧ t.clock = s.clock ∧ s.sameHosts t) ∧
    (nextAnswer s ≠ .fails →
      ∃ t e, exec (.reconfigure p) s = .next t ∧ t.responses = s.responses ++ ([⟨none, e, .none⟩] : List Response) ∧
        (e = .ok ∨ e = .ioError ∨ e = .initializationError) ∧
        t.st = { s.st with params := some p, mode := t.st.mode, configured := t.st.configured,
                           irqRegistered := t.st.irqRegistered } ∧
        (t.st.configured = true ↔ .setByte 0x09 s.cfg.txPowerByte true ∈ t.trace.drop s.trace.length) ∧
        (e = .ok → t.st.configured = true ∧ t.st.mode = some 0x85 ∧ t.st.irqRegistered = true) ∧
        (e = .initializationError → t.st.configured = false) ∧
        (e ≠ .ok → t.st.mode = some 0x80 ∨ t.st.mode = some 0x81) ∧
        (s.st.irqRegistered = true → t.st.irqRegistered = true))) ∧
  (∀ (p : RadioParameters) (s : State) (code : Byte) (bad : List (ChipAnswer × ChipAnswer)) (w : ChipAnswer) (r v1 v2 v3 : Byte)
    (d : Nat → List Byte) (rest : List ChipAnswer),
    s.decidedDefaults → s.st.running = false →
    (p.bandwidthHz.toNat, code) ∈ [(7800, 0x00), (10400, 0x01), (15600, 0x02), (20800, 0x03), (31250, 0x04), (41700, 0x05),
      (62500, 0x06), (125000, 0x07), (250000, 0x08), (500000, 0x09)] →
    7 ≤ p.spreadingFactor.toNat → p.spreadingFactor.toNat ≤ 12 → 5 ≤ p.codingRate.toNat → p.codingRate.toNat ≤ 8 →
    6 ≤ p.preambleLength.toNat → p.frequencyHz.toNat ≤ 1023999969 →
    bad.length ≤ 9 → (∀ a ∈ bad, a.2 = .fails ∨ ∃ b d, a.2 = .gives (b :: d) ∧ b &&& 0x87 ≠ 0x80) → r &&& 0x87 = 0x80 →
    let attempts := bad ++ [(w, ChipAnswer.gives [r])]
    let steps := programmingSteps p s.cfg code v1 v2 v3 d
    ∀ k < 16, s.chip = attempts.flatMap (fun a => [a.1, a.2]) ++ (answersTo steps k ++ .fails :: rest) →
    ∃ t, exec (.configure p) s = .next t ∧
      t.st = { s.st with params := some p, configured := false, irqRegistered := true,
                         mode := if 3 ≤ k then some 0x81
                           else if attempts.any (fun a => a.1 != .fails) then some 0x80 else s.st.mode } ∧
      t.trace = s.trace ++ attempts.flatMap attemptTxns ++ failingAt steps k ∧
      t.log = s.log ++ attempts.flatMap attemptLog ∧
      t.responses = s.responses ++ ([⟨none, .ioError, .none⟩] : List Response) ∧ t.chip = rest ∧ t.clock = s.clock ∧
      s.sameHosts t) ∧
  (∀ (p : RadioParameters) (s : State) (code : Byte) (bad : List (ChipAnswer × ChipAnswer)) (w : ChipAnswer) (r v1 v2 v3 : Byte)
    (d d' : Nat → List Byte) (d0 : List Byte) (rest : List ChipAnswer),
    s.decidedDefaults → s.st.mode ≠ some 0x83 →
    (p.bandwidthHz.toNat, code) ∈ [(7800, 0x00), (10400, 0x01), (15600, 0x02), (20800, 0x03), (31250, 0x04), (41700, 0x05),
      (62500, 0x06), (125000, 0x07), (250000, 0x08), (500000, 0x09)] →
    7 ≤ p.spreadingFactor.toNat → p.spreadingFactor.toNat ≤ 12 → 5 ≤ p.codingRate.toNat → p.codingRate.toNat ≤ 8 →
    6 ≤ p.preambleLength.toNat → p.frequencyHz.toNat ≤ 1023999969 →
    bad.length ≤ 9 → (∀ a ∈ bad, a.2 = .fails ∨ ∃ b d, a.2 = .gives (b :: d) ∧ b &&& 0x87 ≠ 0x80) → r &&& 0x87 = 0x80 →
    let attempts := bad ++ [(w, ChipAnswer.gives [r])]
    let steps := programmingSteps p s.cfg code v1 v2 v3 d ++ enterRxSteps d'
    ∀ k < 18, s.chip = .gives d0 :: (attempts.flatMap (fun a => [a.1, a.2]) ++ (answersTo steps k ++ .fails :: rest)) →
    ∃ t, exec (.reconfigure p) s = .next t ∧
      t.st = { s.st with params := some p, configured := decide (16 ≤ k), irqRegistered := true,
                         mode := if 3 ≤ k then some 0x81
                           else if attempts.any (fun a => a.1 != .fails) then some 0x80 else some 0x81 } ∧
      t.trace = s.trace ++ ([.setByte 0x01 0x81 true] : List BusTxn) ++ attempts.flatMap attemptTxns ++ failingAt steps k ∧
      t.log = s.log ++ attempts.flatMap attemptLog ∧
      t.responses = s.responses ++ ([⟨none, .ioError, .none⟩] : List Response) ∧ t.chip = rest ∧ t.clock = s.clock ∧
      s.sameHosts t)

/-- InitializationError: ten attempts of which none reads back SLEEP give ten writes of 0x80 to 0x01 and ten reads of it,
in turns, and nothing else; each failure among them is logged (R121, R224). -/
def Obligations.TenFailedAttemptsGiveInitializationError : Prop :=
  ∀ (p : RadioParameters) (s : State) (bad : List (ChipAnswer × ChipAnswer)) (rest : List ChipAnswer),
    s.decidedDefaults → s.st.running = false →
    p.bandwidthHz.toNat ∈ [7800, 10400, 15600, 20800, 31250, 41700, 62500, 125000, 250000, 500000] →
    7 ≤ p.spreadingFactor.toNat → p.spreadingFactor.toNat ≤ 12 → 5 ≤ p.codingRate.toNat → p.codingRate.toNat ≤ 8 →
    6 ≤ p.preambleLength.toNat → p.frequencyHz.toNat ≤ 1023999969 →
    bad.length = 10 → (∀ a ∈ bad, a.2 = .fails ∨ ∃ b d, a.2 = .gives (b :: d) ∧ b &&& 0x87 ≠ 0x80) →
    s.chip = bad.flatMap (fun a => [a.1, a.2]) ++ rest →
    ∃ t, exec (.configure p) s = .next t ∧
      t.trace = s.trace ++ bad.flatMap attemptTxns ∧ t.log = s.log ++ bad.flatMap attemptLog ∧
      t.responses = s.responses ++ ([⟨none, .initializationError, .none⟩] : List Response) ∧
      t.st = { s.st with params := some p, configured := false,
                         mode := if bad.any (fun a => a.1 != .fails) then some 0x80 else s.st.mode } ∧
      t.chip = rest ∧ t.clock = s.clock ∧ s.sameHosts t

/-- RECONFIGURE while the cached mode is TX: BusyError, whatever the record, and nothing else (R123, R225). -/
def Obligations.ReconfigureIsBusyWhileTransmitting : Prop :=
  ∀ (p : RadioParameters) (s : State), s.decidedDefaults → s.st.mode = some 0x83 →
    exec (.reconfigure p) s = .next { s with responses := s.responses ++ ([⟨none, .busyError, .none⟩] : List Response) }

/-- RECONFIGURE completes: STANDBY, the parameters replaced, INITIALIZE with up to nine attempts that do not verify, and
RXCONTINUOUS again, running or not; the backlog, the receive buffer and the pending events are not touched (R114 to R121, R123, R124). -/
def Obligations.ReconfigureReentersReceive : Prop :=
  ∀ (p : RadioParameters) (s : State) (code : Byte) (bad : List (ChipAnswer × ChipAnswer)) (w : ChipAnswer) (r v1 v2 v3 : Byte)
    (d d' : Nat → List Byte) (d0 : List Byte) (rest : List ChipAnswer),
    s.decidedDefaults → s.st.mode ≠ some 0x83 →
    (p.bandwidthHz.toNat, code) ∈ [(7800, 0x00), (10400, 0x01), (15600, 0x02), (20800, 0x03), (31250, 0x04), (41700, 0x05),
      (62500, 0x06), (125000, 0x07), (250000, 0x08), (500000, 0x09)] →
    7 ≤ p.spreadingFactor.toNat → p.spreadingFactor.toNat ≤ 12 → 5 ≤ p.codingRate.toNat → p.codingRate.toNat ≤ 8 →
    6 ≤ p.preambleLength.toNat → p.frequencyHz.toNat ≤ 1023999969 →
    bad.length ≤ 9 → (∀ a ∈ bad, a.2 = .fails ∨ ∃ b d, a.2 = .gives (b :: d) ∧ b &&& 0x87 ≠ 0x80) → r &&& 0x87 = 0x80 →
    let attempts := bad ++ [(w, ChipAnswer.gives [r])]
    let steps := programmingSteps p s.cfg code v1 v2 v3 d ++ enterRxSteps d'
    s.chip = .gives d0 :: (attempts.flatMap (fun a => [a.1, a.2]) ++ answersTo steps 18 ++ rest) →
    ∃ t, exec (.reconfigure p) s = .next t ∧
      t.st = { s.st with params := some p, mode := some 0x85, configured := true, irqRegistered := true } ∧
      t.trace = s.trace ++ ([.setByte 0x01 0x81 true] : List BusTxn) ++ attempts.flatMap attemptTxns ++ succeeding steps ∧
      t.log = s.log ++ attempts.flatMap attemptLog ∧
      t.responses = s.responses ++ ([⟨none, .ok, .none⟩] : List Response) ∧ t.chip = rest ∧ t.clock = s.clock ∧ s.sameHosts t

/-- What the two programming commands leave alone, whatever the chip answers (R11 "written by", R122, R123). -/
def Obligations.FrameOfProgrammingCommands : Prop :=
  ∀ (p : RadioParameters) (s t : State),
    (exec (.configure p) s = .next t ∨ exec (.reconfigure p) s = .next t) →
    t = { s with
      st := { s.st with params := t.st.params, mode := t.st.mode, configured := t.st.configured,
                        irqRegistered := t.st.irqRegistered },
      responses := t.responses, trace := t.trace, log := t.log, chip := t.chip, draws := t.draws }

/-- Where CONFIGURE and RECONFIGURE are refused (U5, U10). -/
def Obligations.WhereProgrammingIsRefused : Prop :=
  ∀ (p : RadioParameters) (s : State),
    (s.st.running = true → exec (.configure p) s = .refused .configureWhileRunning) ∧
    (s.decidedDefaults → s.cfg.validParams p = true → 1023999970 ≤ p.frequencyHz.toNat →
      (s.st.running = false → exec (.configure p) s = .refused .frequencyNotEncodable) ∧
      (s.st.mode ≠ some 0x83 → exec (.reconfigure p) s = .refused .frequencyNotEncodable))

/-! ## The LinkArbiter (41_link_arbiter.md) and the interrupt (60_exceptions.md) -/

/-- START (R141): no effect when running; InitializationError when not configured; otherwise the handoffs are cleared and
RXCONTINUOUS is entered, and a failed write leaves the arbiter stopped. -/
def Obligations.StartEntersReceive : Prop :=
  ∀ s : State,
    (s.st.running = true → exec .start s = .next { s with responses := s.responses ++ ([⟨none, .ok, .none⟩] : List Response) }) ∧
    (s.st.running = false → s.st.configured = false →
      exec .start s = .next { s with responses := s.responses ++ ([⟨none, .initializationError, .none⟩] : List Response) }) ∧
    (s.decidedDefaults → s.st.running = false → s.st.configured = true →
      (∀ d1 d2 rest, s.chip = .gives d1 :: .gives d2 :: rest →
        ∃ t, exec .start s = .next t ∧
          t.st = { s.st with irqPending := 0, msgPending := 0, stopPending := false, mode := some 0x85, running := true } ∧
          t.trace = s.trace ++ ([.setByte 0x40 0x00 true, .setByte 0x01 0x85 true] : List BusTxn) ∧
          t.responses = s.responses ++ ([⟨none, .ok, .none⟩] : List Response) ∧ t.log = s.log ∧ t.chip = rest ∧ s.sameHosts t) ∧
      (∀ rest, s.chip = .fails :: rest →
        ∃ t, exec .start s = .next t ∧ t.st = { s.st with irqPending := 0, msgPending := 0, stopPending := false } ∧
          t.trace = s.trace ++ ([.setByte 0x40 0x00 false] : List BusTxn) ∧
          t.responses = s.responses ++ ([⟨none, .ioError, .none⟩] : List Response) ∧ t.log = s.log ∧ s.sameHosts t) ∧
      (∀ d1 rest, s.chip = .gives d1 :: .fails :: rest →
        ∃ t, exec .start s = .next t ∧ t.st = { s.st with irqPending := 0, msgPending := 0, stopPending := false } ∧
          t.trace = s.trace ++ ([.setByte 0x40 0x00 true, .setByte 0x01 0x85 false] : List BusTxn) ∧
          t.responses = s.responses ++ ([⟨none, .ioError, .none⟩] : List Response) ∧ t.log = s.log ∧ s.sameHosts t))

/-- STOP (R142): it sets the stop signal of a running arbiter, does nothing to a stopped one, and returns OK. -/
def Obligations.StopRaisesTheStopSignal : Prop :=
  ∀ s : State,
    exec .stop s = .next { s with
      st := { s.st with stopPending := if s.st.running then true else s.st.stopPending },
      responses := s.responses ++ ([⟨none, .ok, .none⟩] : List Response) }

/-- SEND (R143, R159, R227): the backlog keeps exactly the newest messages that fit, the oldest dropped; a message of more than
255 bytes is refused with MessageTooLongError and nothing else changes. -/
def Obligations.SendAppendsAndTrims : Prop :=
  ∀ (msg : List Byte) (s : State), s.st.running = true → 1 ≤ msg.length →
    (msg.length ≤ 255 → ∃ backlog,
      exec (.send msg) s = .next { s with
        st := { s.st with backlog := backlog, msgPending := s.st.msgPending + 1 },
        responses := s.responses ++ ([⟨none, .ok, .none⟩] : List Response) } ∧
      backlog <:+ s.st.backlog ++ [msg] ∧ backlog.length = min s.cfg.pileupLimit (s.st.backlog.length + 1)) ∧
    (255 < msg.length →
      exec (.send msg) s = .next { s with responses := s.responses ++ ([⟨none, .messageTooLongError, .none⟩] : List Response) })

/-- Where SEND and SEND_SYNC are refused: on a stopped arbiter and for an empty message (U6, U7). -/
def Obligations.WhereSendingIsRefused : Prop :=
  ∀ (msg : List Byte) (s : State),
    (s.st.running = false → exec (.send msg) s = .refused .notRunning ∧ exec (.sendSync msg) s = .refused .notRunning) ∧
    (s.st.running = true → msg = [] →
      exec (.send msg) s = .refused .emptyMessage ∧ exec (.sendSync msg) s = .refused .emptyMessage)

/-- FLUSH_RX returns the whole buffer and leaves it empty, so that a second FLUSH_RX returns nothing (R54, R146). -/
def Obligations.FlushRxSwapsTheBuffer : Prop :=
  ∀ s : State, ∃ t,
    exec .flushRx s = .next t ∧
    t = { s with st := { s.st with rxbuf := [] },
                 responses := s.responses ++ ([⟨none, .ok, .messages s.st.rxbuf⟩] : List Response) } ∧
    exec .flushRx t = .next { t with responses := t.responses ++ ([⟨none, .ok, .messages []⟩] : List Response) }

/-- SEND_SYNC (R144, R155): with a free lock and no transmission its begin step runs BEGIN_TX and takes the lock; while a
transmission is in flight its caller is suspended and no transaction is issued; a message of more than 255 bytes is refused
with MessageTooLongError. A suspended SEND_SYNC takes its begin step in a later step of its agent, when the lock is free, the
cached mode is not TX and the arbiter runs, and holds otherwise. That the command's own step takes the begin step where it is
enabled is the model's choice (log entry 8), that a suspended SEND_SYNC holds on a stopped arbiter its deduction (log entry 7),
and that a step of an agent that holds or is gone leaves the state alone its choice (log entry 11). -/
def Obligations.SendSyncBeginsOrWaits : Prop :=
  (∀ (msg : List Byte) (s : State), s.decidedDefaults → s.st.running = true → 1 ≤ msg.length →
     (255 < msg.length →
       exec (.sendSync msg) s = .next { s with responses := s.responses ++ ([⟨none, .messageTooLongError, .none⟩] : List Response) }) ∧
     (msg.length ≤ 255 → (s.st.txLock ≠ .free ∨ s.st.mode = some 0x83) →
       exec (.sendSync msg) s = .next { s with
         syncs := s.syncs ++ ([⟨s.nextSyncId, .waiting msg⟩] : List SyncAgent), nextSyncId := s.nextSyncId + 1 }) ∧
     (msg.length ≤ 255 → s.st.txLock = .free → s.st.mode ≠ some 0x83 → (∀ a ∈ s.syncs, a.id < s.nextSyncId) →
       ∀ (ws : List (List Byte)) (rest : List ChipAnswer), ws.length = 6 → s.chip = ws.map ChipAnswer.gives ++ rest →
       ∃ t, exec (.sendSync msg) s = .next t ∧
         t.st = { s.st with txLock := .sync s.nextSyncId, mode := some 0x83, txStart := some t.clock } ∧ s.clock ≤ t.clock ∧
         t.trace = s.trace ++ ([.setByte 0x01 0x81 true, .setByte 0x0D 0x00 true, .setBytes 0x00 msg true,
           .setByte 0x22 (BitVec.ofNat 8 msg.length) true, .setByte 0x40 0x40 true, .setByte 0x01 0x83 true] : List BusTxn) ∧
         t.syncs = s.syncs ++ ([⟨s.nextSyncId, .polling 0⟩] : List SyncAgent) ∧ t.nextSyncId = s.nextSyncId + 1 ∧
         t.responses = s.responses ∧ t.log = s.log ∧ t.chip = rest ∧ t.port = s.port ∧ t.turns = s.turns ∧ t.cfg = s.cfg)) ∧
  (∀ (id : Nat) (s : State), s.syncs.find? (fun a => a.id = id) = none → syncStep id s = .next s) ∧
  (∀ (id : Nat) (msg : List Byte) (s : State), s.decidedDefaults →
    s.syncs.find? (fun a => a.id = id) = some ⟨id, .waiting msg⟩ →
    1 ≤ msg.length → msg.length ≤ 255 →
    (s.st.running = false ∨ s.st.txLock ≠ .free ∨ s.st.mode = some 0x83 → syncStep id s = .next s) ∧
    (s.st.running = true → s.st.txLock = .free → s.st.mode ≠ some 0x83 →
      ∀ (ws : List (List Byte)) (rest : List ChipAnswer), ws.length = 6 → s.chip = ws.map ChipAnswer.gives ++ rest →
      ∃ t, syncStep id s = .next t ∧
        t.st = { s.st with txLock := .sync id, mode := some 0x83, txStart := some t.clock } ∧ s.clock ≤ t.clock ∧
        t.trace = s.trace ++ (beginTxTxns msg).map (fun x => x true) ∧
        (t.syncs = s.syncs.map fun a => if a.id = id then ⟨id, .polling 0⟩ else a) ∧ t.nextSyncId = s.nextSyncId ∧
        t.responses = s.responses ∧ t.log = s.log ∧ t.chip = rest ∧ t.port = s.port ∧ t.turns = s.turns ∧ t.cfg = s.cfg))

/-- A SEND_SYNC whose begin step fails at any of its six transactions frees the lock and returns IOError; no later transaction is
issued (R144, R155, R223). It fails so in the command's own step (that this step takes the begin step is the model's choice, log
entry 8) and in a later step of a suspended agent. That the response names the SEND_SYNC's id is the model's, log entry 20. -/
def Obligations.FailedSendSyncReturnsIoError : Prop :=
  (∀ (msg : List Byte) (s : State) (ws : List (List Byte)) (rest : List ChipAnswer),
    s.decidedDefaults → s.st.running = true → 1 ≤ msg.length → msg.length ≤ 255 → s.st.txLock = .free → s.st.mode ≠ some 0x83 →
    (∀ a ∈ s.syncs, a.id < s.nextSyncId) → ws.length < 6 → s.chip = ws.map ChipAnswer.gives ++ .fails :: rest →
    ∃ t, exec (.sendSync msg) s = .next t ∧
      t.st = { s.st with mode := if ws = [] then s.st.mode else some 0x81 } ∧
      t.trace = s.trace ++ cutShort (beginTxTxns msg) ws.length ∧ t.syncs = s.syncs ∧
      t.responses = s.responses ++ ([⟨some s.nextSyncId, .ioError, .none⟩] : List Response) ∧ t.chip = rest ∧ t.log = s.log ∧
      t.nextSyncId = s.nextSyncId + 1 ∧ t.clock = s.clock ∧ t.port = s.port ∧ t.turns = s.turns ∧ t.cfg = s.cfg) ∧
  (∀ (id : Nat) (msg : List Byte) (s : State) (ws : List (List Byte)) (rest : List ChipAnswer),
    s.syncs.find? (fun a => a.id = id) = some ⟨id, .waiting msg⟩ →
    s.decidedDefaults → s.st.running = true → 1 ≤ msg.length → msg.length ≤ 255 → s.st.txLock = .free → s.st.mode ≠ some 0x83 →
    ws.length < 6 → s.chip = ws.map ChipAnswer.gives ++ .fails :: rest →
    ∃ t, syncStep id s = .next t ∧
      t.st = { s.st with mode := if ws = [] then s.st.mode else some 0x81 } ∧
      t.trace = s.trace ++ cutShort (beginTxTxns msg) ws.length ∧ t.syncs = s.syncs.filter (fun a => a.id ≠ id) ∧
      t.responses = s.responses ++ ([⟨some id, .ioError, .none⟩] : List Response) ∧ t.chip = rest ∧ t.log = s.log ∧
      t.nextSyncId = s.nextSyncId ∧ t.clock = s.clock ∧ t.port = s.port ∧ t.turns = s.turns ∧ t.cfg = s.cfg)

/-- A poll reads the chip's mode: while it is TX the SEND_SYNC polls on; otherwise it frees the lock if it still holds it, and
returns OK; a failed poll returns IOError. The cached mode is never written. A poll beyond a finite `SYNC_POLL_MAX` is a fault
(R145, U8; where it falls is the model's choice, log entry 18). That the response names the SEND_SYNC's id is the model's choice,
log entry 20. -/
def Obligations.SyncPollReturnsWhenTheChipLeavesTx : Prop :=
  ∀ (id n : Nat) (s : State), s.decidedDefaults → s.syncs.find? (fun a => a.id = id) = some ⟨id, .polling n⟩ →
    ((∃ m, s.cfg.syncPollMax = some m ∧ m ≤ n) → syncStep id s = .fault .syncPollsExhausted) ∧
    ((∀ m, s.cfg.syncPollMax = some m → n < m) →
    (∀ v d rest, s.chip = .gives (v :: d) :: rest → v &&& 0x87 = 0x83 →
      ∃ t, syncStep id s = .next t ∧ t.st = s.st ∧ t.responses = s.responses ∧
        t.trace = s.trace ++ ([.getByte 0x01 (some v)] : List BusTxn) ∧
        t.syncs = s.syncs.map fun a => if a.id = id then ⟨id, .polling (n + 1)⟩ else a) ∧
    (∀ v d rest, s.chip = .gives (v :: d) :: rest → v &&& 0x87 ≠ 0x83 →
      ∃ t, syncStep id s = .next t ∧
        t.st = { s.st with txLock := if s.st.txLock = .sync id then .free else s.st.txLock } ∧
        t.responses = s.responses ++ ([⟨some id, .ok, .none⟩] : List Response) ∧
        t.trace = s.trace ++ ([.getByte 0x01 (some v)] : List BusTxn) ∧ t.syncs = s.syncs.filter fun a => a.id ≠ id) ∧
    (∀ rest, s.chip = .fails :: rest →
      ∃ t, syncStep id s = .next t ∧
        t.st = { s.st with txLock := if s.st.txLock = .sync id then .free else s.st.txLock } ∧
        t.responses = s.responses ++ ([⟨some id, .ioError, .none⟩] : List Response) ∧
        t.trace = s.trace ++ ([.getByte 0x01 none] : List BusTxn) ∧ t.syncs = s.syncs.filter fun a => a.id ≠ id))

/-- ARB is suspended and takes no step while nothing of the event's kind is pending or the arbiter is stopped (R147; that such a
turn leaves the state alone is the model's choice, log entry 11). -/
def Obligations.ArbiterIsSuspendedWhenNothingIsPending : Prop :=
  ∀ s : State,
    (s.st.running = false ∨ s.st.irqPending = 0 → exec .evIrq s = .next s) ∧
    (s.st.running = false ∨ s.st.msgPending = 0 → exec .evMsg s = .next s) ∧
    (s.st.running = false ∨ s.st.stopPending = false → exec .evStop s = .next s)

/-- Every EV_IRQ begins with the read of 0x12 and ends with the write of 0xFF to it, whatever branch ran and whatever failed
(R148, R226, R233). -/
def Obligations.InterruptFlagsAreAlwaysCleared : Prop :=
  ∀ s t : State, s.st.running = true → 0 < s.st.irqPending → exec .evIrq s = .next t →
    t.st.irqPending = s.st.irqPending - 1 ∧
    ∃ a mid ok, t.trace = s.trace ++ ([.getByte 0x12 a] : List BusTxn) ++ mid ++ ([.setByte 0x12 0xFF ok] : List BusTxn) ∧
      (a = none → mid = []) ∧ (ok = false → t.log.getLast? = some .irqIoError)

/-- Event steps complete under every answer of the chip: an I/O error is never fatal to the loop (R226, R237). Premises: the
invariant, and a receive buffer that is not at a finite bound (U4). -/
def Obligations.EventStepsNeverStopTheLoop : Prop :=
  ∀ s : State, s.Inv → (∀ c, s.cfg.rxbufCap = some c → s.st.rxbuf.length < c) →
    (∃ t, exec .evIrq s = .next t ∧ t.st.running = s.st.running) ∧
    (∃ t, exec .evMsg s = .next t ∧ t.st.running = s.st.running) ∧
    (∃ t, exec .evStop s = .next t)

/-- EV_IRQ in RXCONTINUOUS with receive-complete and no CRC error reads the packet in the order of R152 and appends it, stamped
with the time and the stored parameters; a packet of length 0 is appended with an empty payload and without a bulk read (R148,
R150, R152); at a full finite `RXBUF_CAP` it is a fault, never a silent drop (U4). When a transaction of RX_PACKET fails, or the
read of the flags, IrqIoError is logged, nothing is appended, no later transaction of RX_PACKET is issued, and the flags are
cleared (R226). -/
def Obligations.ReceivedPacketIsAppended : Prop :=
  ∀ (s : State) (p : RadioParameters) (flags n a snr rssi : Byte) (pay d1 d2 : List Byte) (rest : List ChipAnswer),
    s.decidedDefaults → s.st.running = true → 0 < s.st.irqPending → s.st.mode = some 0x85 → s.st.params = some p →
    flags.getLsbD 6 = true → flags.getLsbD 5 = false → pay.length = n.toNat →
    let txns := rxPacketTxns n a snr rssi d1 pay
    (s.chip = .gives [flags] :: (txns.map (fun x => x.1) ++ .gives d2 :: rest) →
      ((∃ c, s.cfg.rxbufCap = some c ∧ c ≤ s.st.rxbuf.length) → exec .evIrq s = .fault .rxbufFull) ∧
      ((∀ c, s.cfg.rxbufCap = some c → s.st.rxbuf.length < c) →
      ∃ t, exec .evIrq s = .next t ∧ s.clock ≤ t.clock ∧
        t.st = { s.st with irqPending := s.st.irqPending - 1, rxbuf := s.st.rxbuf ++ [⟨pay, rssi, snr, t.clock, p⟩] } ∧
        t.trace = s.trace ++ ([.getByte 0x12 (some flags)] : List BusTxn) ++ txns.map (fun x => x.2.1) ++
          ([.setByte 0x12 0xFF true] : List BusTxn) ∧
        t.log = s.log ∧ t.responses = s.responses ∧ t.chip = rest ∧ s.sameHosts t)) ∧
    (∀ k < txns.length, s.chip = .gives [flags] :: ((txns.take k).map (fun x => x.1) ++ .fails :: .gives d2 :: rest) →
      ∃ t, exec .evIrq s = .next t ∧ t.st = { s.st with irqPending := s.st.irqPending - 1 } ∧
        t.trace = s.trace ++ ([.getByte 0x12 (some flags)] : List BusTxn) ++ (txns.take k).map (fun x => x.2.1) ++
          ((txns.drop k).take 1).map (fun x => x.2.2) ++ ([.setByte 0x12 0xFF true] : List BusTxn) ∧
        t.log = s.log ++ ([.irqIoError] : List LogEvent) ∧ t.responses = s.responses ∧ t.chip = rest ∧ t.clock = s.clock ∧ s.sameHosts t) ∧
    (s.chip = .fails :: .gives d2 :: rest →
      ∃ t, exec .evIrq s = .next t ∧ t.st = { s.st with irqPending := s.st.irqPending - 1 } ∧
        t.trace = s.trace ++ ([.getByte 0x12 none, .setByte 0x12 0xFF true] : List BusTxn) ∧
        t.log = s.log ++ ([.irqIoError] : List LogEvent) ∧ t.responses = s.responses ∧ t.chip = rest ∧ t.clock = s.clock ∧ s.sameHosts t)

/-- EV_IRQ without anything to do: in RXCONTINUOUS with the CRC-error flag or without receive-complete, in TX without
transmit-complete, in any other mode: the flags are read and cleared, nothing else (R148 to R151). -/
def Obligations.InterruptWithoutItsFlagChangesNothing : Prop :=
  ∀ (s : State) (flags : Byte) (d : List Byte) (rest : List ChipAnswer),
    s.decidedDefaults → s.st.running = true → 0 < s.st.irqPending → s.chip = .gives [flags] :: .gives d :: rest →
    ((s.st.mode = some 0x85 ∧ (flags.getLsbD 5 = true ∨ flags.getLsbD 6 = false)) ∨
      (s.st.mode = some 0x83 ∧ flags.getLsbD 3 = false) ∨ (s.st.mode ≠ some 0x85 ∧ s.st.mode ≠ some 0x83)) →
    ∃ t, exec .evIrq s = .next t ∧ t.st = { s.st with irqPending := s.st.irqPending - 1 } ∧
      t.trace = s.trace ++ ([.getByte 0x12 (some flags), .setByte 0x12 0xFF true] : List BusTxn) ∧
      t.log = s.log ∧ t.responses = s.responses ∧ t.chip = rest ∧ t.clock = s.clock ∧ s.sameHosts t

/-- Transmit-complete with an empty backlog: the elapsed time is recorded and logged, the lock is freed whoever held it, and the
radio goes back to RXCONTINUOUS (R149, R124). When either write of ENTER_RX fails, IrqIoError is logged, the cached mode stays TX
and the flags are cleared (R226, H2). -/
def Obligations.TransmitCompleteReturnsToReceive : Prop :=
  ∀ (s : State) (t0 : Nat) (flags : Byte) (d1 d2 d3 : List Byte) (rest : List ChipAnswer),
    s.decidedDefaults → s.st.running = true → 0 < s.st.irqPending → s.st.mode = some 0x83 → s.st.txStart = some t0 → s.st.backlog = [] →
    flags.getLsbD 3 = true →
    (s.chip = .gives [flags] :: .gives d1 :: .gives d2 :: .gives d3 :: rest →
      ∃ t, exec .evIrq s = .next t ∧ s.clock ≤ t.clock ∧
        t.st = { s.st with irqPending := s.st.irqPending - 1, lastTxElapsed := some (t.clock - t0), txLock := .free,
                           mode := some 0x85 } ∧
        t.trace = s.trace ++ ([.getByte 0x12 (some flags), .setByte 0x40 0x00 true, .setByte 0x01 0x85 true,
          .setByte 0x12 0xFF true] : List BusTxn) ∧
        t.log = s.log ++ ([.txElapsed (t.clock - t0)] : List LogEvent) ∧ t.responses = s.responses ∧ t.chip = rest ∧ s.sameHosts t) ∧
    (s.chip = .gives [flags] :: .fails :: .gives d3 :: rest →
      ∃ t, exec .evIrq s = .next t ∧ s.clock ≤ t.clock ∧
        t.st = { s.st with irqPending := s.st.irqPending - 1, lastTxElapsed := some (t.clock - t0), txLock := .free } ∧
        t.trace = s.trace ++ ([.getByte 0x12 (some flags), .setByte 0x40 0x00 false, .setByte 0x12 0xFF true] : List BusTxn) ∧
        t.log = s.log ++ ([.txElapsed (t.clock - t0), .irqIoError] : List LogEvent) ∧ t.responses = s.responses ∧ t.chip = rest ∧
        s.sameHosts t) ∧
    (s.chip = .gives [flags] :: .gives d1 :: .fails :: .gives d3 :: rest →
      ∃ t, exec .evIrq s = .next t ∧ s.clock ≤ t.clock ∧
        t.st = { s.st with irqPending := s.st.irqPending - 1, lastTxElapsed := some (t.clock - t0), txLock := .free } ∧
        t.trace = s.trace ++ ([.getByte 0x12 (some flags), .setByte 0x40 0x00 true, .setByte 0x01 0x85 false,
          .setByte 0x12 0xFF true] : List BusTxn) ∧
        t.log = s.log ++ ([.txElapsed (t.clock - t0), .irqIoError] : List LogEvent) ∧ t.responses = s.responses ∧ t.chip = rest ∧
        s.sameHosts t)

/-- Transmit-complete with a message waiting: the front message is popped and its transmission begun, under ARB's lock (R149,
R155, R156). -/
def Obligations.TransmitCompleteStartsTheNextMessage : Prop :=
  ∀ (s : State) (t0 : Nat) (flags : Byte) (msg : List Byte) (more : List (List Byte)) (ws : List (List Byte))
    (rest : List ChipAnswer),
    s.decidedDefaults → s.st.running = true → 0 < s.st.irqPending → s.st.mode = some 0x83 → s.st.txStart = some t0 →
    s.st.backlog = msg :: more → flags.getLsbD 3 = true → ws.length = 7 →
    s.chip = .gives [flags] :: (ws.map ChipAnswer.gives ++ rest) →
    ∃ t now, exec .evIrq s = .next t ∧ s.clock ≤ now ∧ now ≤ t.clock ∧
      t.st = { s.st with irqPending := s.st.irqPending - 1, lastTxElapsed := some (now - t0), txLock := .arb,
                         backlog := more, mode := some 0x83, txStart := some t.clock } ∧
      t.trace = s.trace ++ ([.getByte 0x12 (some flags), .setByte 0x01 0x81 true, .setByte 0x0D 0x00 true,
        .setBytes 0x00 msg true, .setByte 0x22 (BitVec.ofNat 8 msg.length) true, .setByte 0x40 0x40 true,
        .setByte 0x01 0x83 true, .setByte 0x12 0xFF true] : List BusTxn) ∧
      t.log = s.log ++ ([.txElapsed (now - t0)] : List LogEvent) ∧ t.responses = s.responses ∧ t.chip = rest ∧ s.sameHosts t

/-- A rule that needs an element that holds none is a fault: the TX branch without a start time, and RX_PACKET, once the packet
is read, without parameters (R12, U11). -/
def Obligations.MissingValuesAreFaults : Prop :=
  ∀ (s : State) (flags : Byte) (rest : List ChipAnswer), s.decidedDefaults → s.st.running = true → 0 < s.st.irqPending →
    (s.st.mode = some 0x83 → s.st.txStart = none → flags.getLsbD 3 = true → s.chip = .gives [flags] :: rest →
      exec .evIrq s = .fault .noTxStart) ∧
    (∀ (n a snr rssi : Byte) (pay d1 : List Byte), s.st.mode = some 0x85 → s.st.params = none →
      flags.getLsbD 6 = true → flags.getLsbD 5 = false → n ≠ 0 → pay.length = n.toNat →
      s.chip = ([.gives [flags], .gives [n], .gives [a], .gives d1, .gives pay, .gives [snr], .gives [rssi]] : List ChipAnswer) ++ rest →
      exec .evIrq s = .fault .noParams)

/-- EV_MSG (R153, R155): while transmitting, or with nothing waiting, it only uses up the notification; otherwise it pops the
front message and begins its transmission. -/
def Obligations.NewMessageStartsWhenIdle : Prop :=
  ∀ s : State, s.decidedDefaults → s.st.running = true → 0 < s.st.msgPending →
    (s.st.mode = some 0x83 ∨ s.st.backlog = [] →
      exec .evMsg s = .next { s with st := { s.st with msgPending := s.st.msgPending - 1 } }) ∧
    (∀ (msg : List Byte) (more ws : List (List Byte)) (rest : List ChipAnswer),
      s.st.mode ≠ some 0x83 → s.st.backlog = msg :: more → ws.length = 6 →
      s.chip = ws.map ChipAnswer.gives ++ rest →
      ∃ t, exec .evMsg s = .next t ∧ s.clock ≤ t.clock ∧
        t.st = { s.st with msgPending := s.st.msgPending - 1, backlog := more, txLock := .arb, mode := some 0x83,
                           txStart := some t.clock } ∧
        t.trace = s.trace ++ ([.setByte 0x01 0x81 true, .setByte 0x0D 0x00 true, .setBytes 0x00 msg true,
          .setByte 0x22 (BitVec.ofNat 8 msg.length) true, .setByte 0x40 0x40 true, .setByte 0x01 0x83 true] : List BusTxn) ∧
        t.log = s.log ∧ t.responses = s.responses ∧ t.chip = rest ∧ s.sameHosts t)

/-- A start that fails at any of its six transactions consumes the message, logs the failure, frees the lock and does nothing
more, whether EV_MSG made it or EV_IRQ after a transmit-complete, which then clears the flags (R149, R156, R226). -/
def Obligations.FailedStartConsumesTheMessage : Prop :=
  (∀ (s : State) (msg : List Byte) (more : List (List Byte)) (ws : List (List Byte)) (rest : List ChipAnswer),
    s.decidedDefaults → s.st.running = true → 0 < s.st.msgPending → s.st.mode ≠ some 0x83 → s.st.backlog = msg :: more →
    ws.length < 6 → s.chip = ws.map ChipAnswer.gives ++ .fails :: rest →
    ∃ t, exec .evMsg s = .next t ∧
      t.st = { s.st with msgPending := s.st.msgPending - 1, backlog := more, txLock := .free,
                         mode := if ws = [] then s.st.mode else some 0x81 } ∧
      t.trace = s.trace ++ cutShort (beginTxTxns msg) ws.length ∧ t.log = s.log ++ ([.txStartFailed] : List LogEvent) ∧
      t.responses = s.responses ∧ t.chip = rest ∧ t.clock = s.clock ∧ s.sameHosts t) ∧
  (∀ (s : State) (t0 : Nat) (flags : Byte) (msg d : List Byte) (more ws : List (List Byte)) (rest : List ChipAnswer),
    s.decidedDefaults → s.st.running = true → 0 < s.st.irqPending → s.st.mode = some 0x83 → s.st.txStart = some t0 → s.st.backlog = msg :: more →
    flags.getLsbD 3 = true → ws.length < 6 →
    s.chip = .gives [flags] :: (ws.map ChipAnswer.gives ++ .fails :: .gives d :: rest) →
    ∃ t, exec .evIrq s = .next t ∧ s.clock ≤ t.clock ∧
      t.st = { s.st with irqPending := s.st.irqPending - 1, lastTxElapsed := some (t.clock - t0), txLock := .free,
                         backlog := more, mode := if ws = [] then some 0x83 else some 0x81 } ∧
      t.trace = s.trace ++ ([.getByte 0x12 (some flags)] : List BusTxn) ++ cutShort (beginTxTxns msg) ws.length ++
        ([.setByte 0x12 0xFF true] : List BusTxn) ∧
      t.log = s.log ++ ([.txElapsed (t.clock - t0), .txStartFailed] : List LogEvent) ∧ t.responses = s.responses ∧ t.chip = rest ∧
      s.sameHosts t)

/-- EV_STOP (R154): STANDBY is written, and whether that succeeds or not the backlog is discarded, the handoffs are cleared, the
lock is freed whoever held it and the loop ends; the receive buffer is kept. -/
def Obligations.StopEventEndsTheLoop : Prop :=
  ∀ s : State, s.decidedDefaults → s.st.running = true → s.st.stopPending = true →
    ∃ t, exec .evStop s = .next t ∧
      t.st = { s.st with stopPending := false, backlog := [], irqPending := 0, msgPending := 0, txLock := .free,
                         running := false, mode := if nextAnswer s = .fails then s.st.mode else some 0x81 } ∧
      t.trace = s.trace ++ ([.setByte 0x01 0x81 (decide (nextAnswer s ≠ .fails))] : List BusTxn) ∧
      t.log = s.log ++ (if nextAnswer s = .fails then ([.stopIoError] : List LogEvent) else []) ∧
      t.responses = s.responses ∧ t.clock = s.clock ∧ s.sameHosts t

/-- What the arbiter's steps, START, SEND_SYNC and the later steps of a SEND_SYNC's agent leave alone, whatever the chip answers
(R11 "written by", R22, R24, R58, R144, R145). -/
def Obligations.FrameOfArbiterSteps : Prop :=
  ∀ s t : State,
    (exec .start s = .next t → t = { s with
      st := { s.st with mode := t.st.mode, irqPending := t.st.irqPending, msgPending := t.st.msgPending,
                        stopPending := t.st.stopPending, running := t.st.running },
      responses := t.responses, trace := t.trace, chip := t.chip, draws := t.draws }) ∧
    (∀ msg, exec (.sendSync msg) s = .next t → t = { s with
      st := { s.st with mode := t.st.mode, txStart := t.st.txStart, txLock := t.st.txLock },
      syncs := t.syncs, nextSyncId := t.nextSyncId, responses := t.responses, trace := t.trace, chip := t.chip,
      ticks := t.ticks, clock := t.clock, draws := t.draws }) ∧
    (exec .evIrq s = .next t → t = { s with
      st := { s.st with mode := t.st.mode, backlog := t.st.backlog, rxbuf := t.st.rxbuf, txStart := t.st.txStart,
                        lastTxElapsed := t.st.lastTxElapsed, txLock := t.st.txLock, irqPending := t.st.irqPending },
      trace := t.trace, log := t.log, chip := t.chip, ticks := t.ticks, clock := t.clock, draws := t.draws } ∧
      s.st.rxbuf <+: t.st.rxbuf ∧ t.st.rxbuf.length ≤ s.st.rxbuf.length + 1 ∧ t.st.backlog <:+ s.st.backlog) ∧
    (exec .evMsg s = .next t → t = { s with
      st := { s.st with mode := t.st.mode, backlog := t.st.backlog, txStart := t.st.txStart, txLock := t.st.txLock,
                        msgPending := t.st.msgPending },
      trace := t.trace, log := t.log, chip := t.chip, ticks := t.ticks, clock := t.clock, draws := t.draws } ∧
      t.st.backlog <:+ s.st.backlog) ∧
    (exec .evStop s = .next t → t = { s with
      st := { s.st with mode := t.st.mode, backlog := t.st.backlog, txLock := t.st.txLock, irqPending := t.st.irqPending,
                        msgPending := t.st.msgPending, stopPending := t.st.stopPending, running := t.st.running },
      trace := t.trace, log := t.log, chip := t.chip, draws := t.draws }) ∧
    (∀ id, syncStep id s = .next t → t = { s with
      st := { s.st with mode := t.st.mode, txStart := t.st.txStart, txLock := t.st.txLock },
      syncs := t.syncs, responses := t.responses, trace := t.trace, chip := t.chip, ticks := t.ticks, clock := t.clock,
      draws := t.draws } ∧
      ((∀ msg, ⟨id, .waiting msg⟩ ∉ s.syncs) → t = { s with
        st := { s.st with txLock := t.st.txLock },
        syncs := t.syncs, responses := t.responses, trace := t.trace, chip := t.chip, draws := t.draws }) ∧
      (∀ a ∈ s.syncs, a.id ≠ id → a ∈ t.syncs))

/-- ENV.irq (R232): an edge is counted once the interrupt is registered and ignored before; at a full finite queue it is a
fault, never a silent drop (U4). -/
def Obligations.InterruptEdgesAreCounted : Prop :=
  ∀ s : State,
    (s.st.irqRegistered = false → envEdge s = .next s) ∧
    (s.st.irqRegistered = true → s.cfg.irqQueueDepth = none →
      envEdge s = .next { s with st := { s.st with irqPending := s.st.irqPending + 1 } }) ∧
    (∀ n, s.st.irqRegistered = true → s.cfg.irqQueueDepth = some n →
      envEdge s = if s.st.irqPending < n then .next { s with st := { s.st with irqPending := s.st.irqPending + 1 } }
        else .fault .irqQueueFull)

/-- Ownership of the bus (R240): SEND, STOP, FLUSH_RX, PACKET_ENCODE and PACKET_DECODE never touch it, and on a stopped arbiter
no instruction but CONFIGURE, RECONFIGURE and START does. A step of a SEND_SYNC's agent that does not poll touches it only where
the lock is free, the radio is not transmitting and the arbiter runs (on a stopped arbiter: the model's deduction, log entry 7);
one that polls only reads 0x01 (R145). -/
def Obligations.BusIsTouchedByItsOwnersOnly : Prop :=
  (∀ (i : Instr) (s t : State), exec i s = .next t →
    ((∃ msg, i = .send msg) ∨ i = .stop ∨ i = .flushRx ∨ (∃ b, i = .packetEncode b) ∨ (∃ b, i = .packetDecode b) ∨
      (s.st.running = false ∧ (∀ p, i ≠ .configure p) ∧ (∀ p, i ≠ .reconfigure p) ∧ i ≠ .start)) →
    t.trace = s.trace ∧ t.chip = s.chip ∧ t.st.mode = s.st.mode) ∧
  (∀ (id : Nat) (s t : State), s.decidedDefaults → syncStep id s = .next t →
    ((∀ n, ⟨id, .polling n⟩ ∉ s.syncs) → (s.st.running = false ∨ s.st.txLock ≠ .free ∨ s.st.mode = some 0x83) →
      t.trace = s.trace ∧ t.chip = s.chip ∧ t.st.mode = s.st.mode) ∧
    ((∀ msg, ⟨id, .waiting msg⟩ ∉ s.syncs) →
      (t.trace = s.trace ∨ ∃ a, t.trace = s.trace ++ ([.getByte 0x01 a] : List BusTxn)) ∧ t.st.mode = s.st.mode))
end

