-- ==== Sys2Proof/Laws/Parameters.lean ====
section
/-! SUPPORT. What the decided defaults come to (00_scope.md R6): the numbers that the spec's pseudocode prints, so that no later
proof unfolds `Decided.standard`. -/

namespace Sys2Proof.Machine

theorem modeSleep_eq : Decided.standard.modeSleep = 0x80 := rfl
theorem modeStandby_eq : Decided.standard.modeStandby = 0x81 := rfl
theorem modeTx_eq : Decided.standard.modeTx = 0x83 := rfl
theorem modeRxContinuous_eq : Decided.standard.modeRxContinuous = 0x85 := rfl
theorem maskMode_eq (v : Byte) : Decided.standard.maskMode v = v &&& 0x87 := rfl
theorem regFifo_eq : Decided.standard.regFifo = 0x00 := rfl
theorem dioMapRxDone_eq : Decided.standard.dioMapRxDone = 0x00 := rfl
theorem dioMapTxDone_eq : Decided.standard.dioMapTxDone = 0x40 := rfl
theorem bwTable_eq : Decided.standard.bwTable = bwCodes := rfl

/-- A mask of one bit tests that bit. -/
theorem flagSet_of_bit (flags : Byte) {k : Nat} (hk : k < 8) : flagSet flags (BitVec.twoPow 8 k) = flags.getLsbD k := by
  unfold flagSet
  rw [BitVec.and_twoPow]
  cases h : flags.getLsbD k
  · simp
  · have hne : BitVec.twoPow 8 k ≠ 0#8 := fun he => by
      have := congrArg (fun v : BitVec 8 => v.getLsbD k) he
      simp [hk] at this
    simp [hne]

theorem flagSet_irqRxDone (flags : Byte) : flagSet flags Decided.standard.irqRxDone = flags.getLsbD 6 :=
  flagSet_of_bit flags (k := 6) (by decide)
theorem flagSet_irqCrcErr (flags : Byte) : flagSet flags Decided.standard.irqCrcErr = flags.getLsbD 5 :=
  flagSet_of_bit flags (k := 5) (by decide)
theorem flagSet_irqTxDone (flags : Byte) : flagSet flags Decided.standard.irqTxDone = flags.getLsbD 3 :=
  flagSet_of_bit flags (k := 3) (by decide)

/-- CRC8 starts at 0 and has no final exclusive-or. -/
theorem crc8_eq (bs : List Byte) : Decided.standard.crc8 bs = bs.foldl Decided.standard.crcByte 0 := by
  simp [Decided.crc8, Decided.standard]

theorem rsParityRows_eq : Decided.standard.rsParityRows = [rsParityRow0, rsParityRow1, rsParityRow2] := rfl

end Sys2Proof.Machine
end

