-- ==== Sys2Proof/Laws/State.lean ====
section
/-! SUPPORT. One lemma for each field and each named update of the state, so that no later proof unfolds an update. -/

namespace Sys2Proof.Machine

variable (s : State)

@[simp] theorem State.logEvent_st (e : LogEvent) : (s.logEvent e).st = s.st := rfl
@[simp] theorem State.logEvent_syncs (e : LogEvent) : (s.logEvent e).syncs = s.syncs := rfl
@[simp] theorem State.logEvent_nextSyncId (e : LogEvent) : (s.logEvent e).nextSyncId = s.nextSyncId := rfl
@[simp] theorem State.logEvent_port (e : LogEvent) : (s.logEvent e).port = s.port := rfl
@[simp] theorem State.logEvent_responses (e : LogEvent) : (s.logEvent e).responses = s.responses := rfl
@[simp] theorem State.logEvent_trace (e : LogEvent) : (s.logEvent e).trace = s.trace := rfl
@[simp] theorem State.logEvent_log (e : LogEvent) : (s.logEvent e).log = s.log ++ [e] := rfl
@[simp] theorem State.logEvent_chip (e : LogEvent) : (s.logEvent e).chip = s.chip := rfl
@[simp] theorem State.logEvent_ticks (e : LogEvent) : (s.logEvent e).ticks = s.ticks := rfl
@[simp] theorem State.logEvent_clock (e : LogEvent) : (s.logEvent e).clock = s.clock := rfl
@[simp] theorem State.logEvent_turns (e : LogEvent) : (s.logEvent e).turns = s.turns := rfl
@[simp] theorem State.logEvent_draws (e : LogEvent) : (s.logEvent e).draws = s.draws := rfl
@[simp] theorem State.logEvent_cfg (e : LogEvent) : (s.logEvent e).cfg = s.cfg := rfl

@[simp] theorem State.respond_st (a : Option Nat) (e : Status) (r : Results) : (s.respond a e r).st = s.st := rfl
@[simp] theorem State.respond_syncs (a : Option Nat) (e : Status) (r : Results) : (s.respond a e r).syncs = s.syncs := rfl
@[simp] theorem State.respond_nextSyncId (a : Option Nat) (e : Status) (r : Results) : (s.respond a e r).nextSyncId = s.nextSyncId := rfl
@[simp] theorem State.respond_port (a : Option Nat) (e : Status) (r : Results) : (s.respond a e r).port = s.port := rfl
@[simp] theorem State.respond_responses (a : Option Nat) (e : Status) (r : Results) : (s.respond a e r).responses = s.responses ++ [⟨a, e, r⟩] := rfl
@[simp] theorem State.respond_trace (a : Option Nat) (e : Status) (r : Results) : (s.respond a e r).trace = s.trace := rfl
@[simp] theorem State.respond_log (a : Option Nat) (e : Status) (r : Results) : (s.respond a e r).log = s.log := rfl
@[simp] theorem State.respond_chip (a : Option Nat) (e : Status) (r : Results) : (s.respond a e r).chip = s.chip := rfl
@[simp] theorem State.respond_ticks (a : Option Nat) (e : Status) (r : Results) : (s.respond a e r).ticks = s.ticks := rfl
@[simp] theorem State.respond_clock (a : Option Nat) (e : Status) (r : Results) : (s.respond a e r).clock = s.clock := rfl
@[simp] theorem State.respond_turns (a : Option Nat) (e : Status) (r : Results) : (s.respond a e r).turns = s.turns := rfl
@[simp] theorem State.respond_draws (a : Option Nat) (e : Status) (r : Results) : (s.respond a e r).draws = s.draws := rfl
@[simp] theorem State.respond_cfg (a : Option Nat) (e : Status) (r : Results) : (s.respond a e r).cfg = s.cfg := rfl

@[simp] theorem State.record_st (t : BusTxn) : (s.record t).st = s.st := rfl
@[simp] theorem State.record_syncs (t : BusTxn) : (s.record t).syncs = s.syncs := rfl
@[simp] theorem State.record_nextSyncId (t : BusTxn) : (s.record t).nextSyncId = s.nextSyncId := rfl
@[simp] theorem State.record_port (t : BusTxn) : (s.record t).port = s.port := rfl
@[simp] theorem State.record_responses (t : BusTxn) : (s.record t).responses = s.responses := rfl
@[simp] theorem State.record_trace (t : BusTxn) : (s.record t).trace = s.trace ++ [t] := rfl
@[simp] theorem State.record_log (t : BusTxn) : (s.record t).log = s.log := rfl
@[simp] theorem State.record_chip (t : BusTxn) : (s.record t).chip = s.chip := rfl
@[simp] theorem State.record_ticks (t : BusTxn) : (s.record t).ticks = s.ticks := rfl
@[simp] theorem State.record_clock (t : BusTxn) : (s.record t).clock = s.clock := rfl
@[simp] theorem State.record_turns (t : BusTxn) : (s.record t).turns = s.turns := rfl
@[simp] theorem State.record_draws (t : BusTxn) : (s.record t).draws = s.draws := rfl
@[simp] theorem State.record_cfg (t : BusTxn) : (s.record t).cfg = s.cfg := rfl

@[simp] theorem State.useAnswer_st (n : Nat) : (s.useAnswer n).st = s.st := rfl
@[simp] theorem State.useAnswer_syncs (n : Nat) : (s.useAnswer n).syncs = s.syncs := rfl
@[simp] theorem State.useAnswer_nextSyncId (n : Nat) : (s.useAnswer n).nextSyncId = s.nextSyncId := rfl
@[simp] theorem State.useAnswer_port (n : Nat) : (s.useAnswer n).port = s.port := rfl
@[simp] theorem State.useAnswer_responses (n : Nat) : (s.useAnswer n).responses = s.responses := rfl
@[simp] theorem State.useAnswer_trace (n : Nat) : (s.useAnswer n).trace = s.trace := rfl
@[simp] theorem State.useAnswer_log (n : Nat) : (s.useAnswer n).log = s.log := rfl
@[simp] theorem State.useAnswer_chip (n : Nat) : (s.useAnswer n).chip = s.chip.tail := rfl
@[simp] theorem State.useAnswer_ticks (n : Nat) : (s.useAnswer n).ticks = s.ticks := rfl
@[simp] theorem State.useAnswer_clock (n : Nat) : (s.useAnswer n).clock = s.clock := rfl
@[simp] theorem State.useAnswer_turns (n : Nat) : (s.useAnswer n).turns = s.turns := rfl
@[simp] theorem State.useAnswer_draws (n : Nat) : (s.useAnswer n).draws = s.draws + (n + 1) := rfl
@[simp] theorem State.useAnswer_cfg (n : Nat) : (s.useAnswer n).cfg = s.cfg := rfl

@[simp] theorem State.sampleTime_st : (s.sampleTime).st = s.st := rfl
@[simp] theorem State.sampleTime_syncs : (s.sampleTime).syncs = s.syncs := rfl
@[simp] theorem State.sampleTime_nextSyncId : (s.sampleTime).nextSyncId = s.nextSyncId := rfl
@[simp] theorem State.sampleTime_port : (s.sampleTime).port = s.port := rfl
@[simp] theorem State.sampleTime_responses : (s.sampleTime).responses = s.responses := rfl
@[simp] theorem State.sampleTime_trace : (s.sampleTime).trace = s.trace := rfl
@[simp] theorem State.sampleTime_log : (s.sampleTime).log = s.log := rfl
@[simp] theorem State.sampleTime_chip : (s.sampleTime).chip = s.chip := rfl
@[simp] theorem State.sampleTime_ticks : (s.sampleTime).ticks = s.ticks.tail := rfl
@[simp] theorem State.sampleTime_clock : (s.sampleTime).clock = nextTime s := rfl
@[simp] theorem State.sampleTime_turns : (s.sampleTime).turns = s.turns := rfl
@[simp] theorem State.sampleTime_draws : (s.sampleTime).draws = s.draws + 1 := rfl
@[simp] theorem State.sampleTime_cfg : (s.sampleTime).cfg = s.cfg := rfl

@[simp] theorem State.setSyncPhase_st (id : Nat) (ph : SyncPhase) : (s.setSyncPhase id ph).st = s.st := rfl
@[simp] theorem State.setSyncPhase_syncs (id : Nat) (ph : SyncPhase) : (s.setSyncPhase id ph).syncs = s.syncs.map fun a => if a.id = id then { a with phase := ph } else a := rfl
@[simp] theorem State.setSyncPhase_nextSyncId (id : Nat) (ph : SyncPhase) : (s.setSyncPhase id ph).nextSyncId = s.nextSyncId := rfl
@[simp] theorem State.setSyncPhase_port (id : Nat) (ph : SyncPhase) : (s.setSyncPhase id ph).port = s.port := rfl
@[simp] theorem State.setSyncPhase_responses (id : Nat) (ph : SyncPhase) : (s.setSyncPhase id ph).responses = s.responses := rfl
@[simp] theorem State.setSyncPhase_trace (id : Nat) (ph : SyncPhase) : (s.setSyncPhase id ph).trace = s.trace := rfl
@[simp] theorem State.setSyncPhase_log (id : Nat) (ph : SyncPhase) : (s.setSyncPhase id ph).log = s.log := rfl
@[simp] theorem State.setSyncPhase_chip (id : Nat) (ph : SyncPhase) : (s.setSyncPhase id ph).chip = s.chip := rfl
@[simp] theorem State.setSyncPhase_ticks (id : Nat) (ph : SyncPhase) : (s.setSyncPhase id ph).ticks = s.ticks := rfl
@[simp] theorem State.setSyncPhase_clock (id : Nat) (ph : SyncPhase) : (s.setSyncPhase id ph).clock = s.clock := rfl
@[simp] theorem State.setSyncPhase_turns (id : Nat) (ph : SyncPhase) : (s.setSyncPhase id ph).turns = s.turns := rfl
@[simp] theorem State.setSyncPhase_draws (id : Nat) (ph : SyncPhase) : (s.setSyncPhase id ph).draws = s.draws := rfl
@[simp] theorem State.setSyncPhase_cfg (id : Nat) (ph : SyncPhase) : (s.setSyncPhase id ph).cfg = s.cfg := rfl

@[simp] theorem State.issueSync_st (msg : List Byte) : (s.issueSync msg).st = s.st := rfl
@[simp] theorem State.issueSync_syncs (msg : List Byte) : (s.issueSync msg).syncs = s.syncs ++ [⟨s.nextSyncId, .waiting msg⟩] := rfl
@[simp] theorem State.issueSync_nextSyncId (msg : List Byte) : (s.issueSync msg).nextSyncId = s.nextSyncId + 1 := rfl
@[simp] theorem State.issueSync_port (msg : List Byte) : (s.issueSync msg).port = s.port := rfl
@[simp] theorem State.issueSync_responses (msg : List Byte) : (s.issueSync msg).responses = s.responses := rfl
@[simp] theorem State.issueSync_trace (msg : List Byte) : (s.issueSync msg).trace = s.trace := rfl
@[simp] theorem State.issueSync_log (msg : List Byte) : (s.issueSync msg).log = s.log := rfl
@[simp] theorem State.issueSync_chip (msg : List Byte) : (s.issueSync msg).chip = s.chip := rfl
@[simp] theorem State.issueSync_ticks (msg : List Byte) : (s.issueSync msg).ticks = s.ticks := rfl
@[simp] theorem State.issueSync_clock (msg : List Byte) : (s.issueSync msg).clock = s.clock := rfl
@[simp] theorem State.issueSync_turns (msg : List Byte) : (s.issueSync msg).turns = s.turns := rfl
@[simp] theorem State.issueSync_draws (msg : List Byte) : (s.issueSync msg).draws = s.draws := rfl
@[simp] theorem State.issueSync_cfg (msg : List Byte) : (s.issueSync msg).cfg = s.cfg := rfl

@[simp] theorem State.endSync_st (id : Nat) (e : Status) : (s.endSync id e).st = s.st := rfl
@[simp] theorem State.endSync_syncs (id : Nat) (e : Status) : (s.endSync id e).syncs = s.syncs.filter fun a => a.id ≠ id := rfl
@[simp] theorem State.endSync_nextSyncId (id : Nat) (e : Status) : (s.endSync id e).nextSyncId = s.nextSyncId := rfl
@[simp] theorem State.endSync_port (id : Nat) (e : Status) : (s.endSync id e).port = s.port := rfl
@[simp] theorem State.endSync_responses (id : Nat) (e : Status) : (s.endSync id e).responses = s.responses ++ [⟨some id, e, .none⟩] := rfl
@[simp] theorem State.endSync_trace (id : Nat) (e : Status) : (s.endSync id e).trace = s.trace := rfl
@[simp] theorem State.endSync_log (id : Nat) (e : Status) : (s.endSync id e).log = s.log := rfl
@[simp] theorem State.endSync_chip (id : Nat) (e : Status) : (s.endSync id e).chip = s.chip := rfl
@[simp] theorem State.endSync_ticks (id : Nat) (e : Status) : (s.endSync id e).ticks = s.ticks := rfl
@[simp] theorem State.endSync_clock (id : Nat) (e : Status) : (s.endSync id e).clock = s.clock := rfl
@[simp] theorem State.endSync_turns (id : Nat) (e : Status) : (s.endSync id e).turns = s.turns := rfl
@[simp] theorem State.endSync_draws (id : Nat) (e : Status) : (s.endSync id e).draws = s.draws := rfl
@[simp] theorem State.endSync_cfg (id : Nat) (e : Status) : (s.endSync id e).cfg = s.cfg := rfl

@[simp] theorem State.takeTurn_st : (s.takeTurn).st = s.st := rfl
@[simp] theorem State.takeTurn_syncs : (s.takeTurn).syncs = s.syncs := rfl
@[simp] theorem State.takeTurn_nextSyncId : (s.takeTurn).nextSyncId = s.nextSyncId := rfl
@[simp] theorem State.takeTurn_port : (s.takeTurn).port = s.port := rfl
@[simp] theorem State.takeTurn_responses : (s.takeTurn).responses = s.responses := rfl
@[simp] theorem State.takeTurn_trace : (s.takeTurn).trace = s.trace := rfl
@[simp] theorem State.takeTurn_log : (s.takeTurn).log = s.log := rfl
@[simp] theorem State.takeTurn_chip : (s.takeTurn).chip = s.chip := rfl
@[simp] theorem State.takeTurn_ticks : (s.takeTurn).ticks = s.ticks := rfl
@[simp] theorem State.takeTurn_clock : (s.takeTurn).clock = s.clock := rfl
@[simp] theorem State.takeTurn_turns : (s.takeTurn).turns = s.turns.tail := rfl
@[simp] theorem State.takeTurn_draws : (s.takeTurn).draws = s.draws + 1 := rfl
@[simp] theorem State.takeTurn_cfg : (s.takeTurn).cfg = s.cfg := rfl

/-- A SYNC agent's release changes the lock only. -/
theorem State.releaseSync_eq (id : Nat) :
    s.releaseSync id = { s with st := { s.st with txLock := if s.st.txLock = .sync id then .free else s.st.txLock } } := by
  unfold State.releaseSync; split <;> rfl

end Sys2Proof.Machine
end

