-- ==== Sys2Proof/Laws/Ops.lean ====
section
/-! SUPPORT. What the shared operations can do, said once: the primitives, SET_MODE, GET_MODE, ENTER_RX, BEGIN_TX, START_NEXT,
TRIM. Later proofs cite these and do not unfold the operations. -/

namespace Sys2Proof.Machine

/-! ## The answer of a sub-operation -/

/-- What holds of a sub-operation's answer: `P` if it is done, `Q` if it raised. -/
def Res.All {α : Type} (P : α → State → Prop) (Q : Status → State → Prop) : Res α → Prop
  | .done a s => P a s
  | .raised e s => Q e s

@[simp] theorem Res.andThen_done {α β : Type} (a : α) (s : State) (f : α → State → Res β) :
    (Res.done a s).andThen f = f a s := rfl

@[simp] theorem Res.andThen_raised {α β : Type} (e : Status) (s : State) (f : α → State → Res β) :
    (Res.raised e s : Res α).andThen f = .raised e s := rfl

@[simp] theorem Res.all_done {α : Type} (P : α → State → Prop) (Q : Status → State → Prop) (a : α) (s : State) :
    Res.All P Q (.done a s) ↔ P a s := Iff.rfl

@[simp] theorem Res.all_raised {α : Type} (P : α → State → Prop) (Q : Status → State → Prop) (e : Status) (s : State) :
    Res.All P Q (.raised e s) ↔ Q e s := Iff.rfl

/-- The rule of sequence. -/
theorem Res.All.andThen {α β : Type} {P : α → State → Prop} {Q : Status → State → Prop} {P' : β → State → Prop} {r : Res α}
    {f : α → State → Res β} (h : r.All P Q) (hf : ∀ a s, P a s → (f a s).All P' Q) : (r.andThen f).All P' Q := by
  cases r with
  | done a s => exact hf a s h
  | raised e s => exact h

/-- The rule of consequence. -/
theorem Res.All.mono {α : Type} {P P' : α → State → Prop} {Q Q' : Status → State → Prop} {r : Res α} (h : r.All P Q)
    (hP : ∀ a s, P a s → P' a s) (hQ : ∀ e s, Q e s → Q' e s) : r.All P' Q' := by
  cases r with
  | done a s => exact hP a s h
  | raised e s => exact hQ e s h

@[simp] theorem onNext_next (s : State) (f : State → StepResult) : onNext (.next s) f = f s := rfl
@[simp] theorem onNext_fault (e : Fault) (f : State → StepResult) : onNext (.fault e) f = .fault e := rfl
@[simp] theorem onNext_refused (e : Refusal) (f : State → StepResult) : onNext (.refused e) f = .refused e := rfl
@[simp] theorem endCommand_done (s : State) : endCommand (.done () s) = .next (s.respond none .ok .none) := rfl
@[simp] theorem endCommand_raised (e : Status) (s : State) : endCommand (.raised e s) = .next (s.respond none e .none) := rfl

/-- A command's end is always a next state: the response carries the status. -/
theorem endCommand_eq_next (r : Res Unit) : ∃ e, endCommand r = .next (r.state.respond none e .none) := by
  cases r with
  | done a s => exact ⟨.ok, rfl⟩
  | raised e s => exact ⟨e, rfl⟩

/-! ## The chip's next answer, by what the script holds -/

theorem nextAnswer_of_chip {s : State} {a : ChipAnswer} {rest : List ChipAnswer} (h : s.chip = a :: rest) :
    nextAnswer s = a := by
  simp [nextAnswer, h]

theorem getByte_of_gives {s : State} {b : Byte} {d : List Byte} {rest : List ChipAnswer} (reg : RegAddr)
    (h : s.chip = .gives (b :: d) :: rest) :
    getByte reg s = .done b ((s.useAnswer 1).record (.getByte reg (some b))) := by
  simp [getByte, nextAnswer, h, answerByte]

theorem getByte_of_fails {s : State} (reg : RegAddr) (h : nextAnswer s = .fails) :
    getByte reg s = .raised .ioError ((s.useAnswer 1).record (.getByte reg none)) := by
  simp [getByte, h]

theorem setByte_of_gives {s : State} {d : List Byte} (reg : RegAddr) (v : Byte) (h : nextAnswer s = .gives d) :
    setByte reg v s = .done () ((s.useAnswer 0).record (.setByte reg v true)) := by
  simp [setByte, h]

theorem setByte_of_fails {s : State} (reg : RegAddr) (v : Byte) (h : nextAnswer s = .fails) :
    setByte reg v s = .raised .ioError ((s.useAnswer 0).record (.setByte reg v false)) := by
  simp [setByte, h]

theorem setBytes_of_gives {s : State} {d : List Byte} (reg : RegAddr) (vs : List Byte) (h : nextAnswer s = .gives d) :
    setBytes reg vs s = .done () ((s.useAnswer 0).record (.setBytes reg vs true)) := by
  simp [setBytes, h]

theorem setBytes_of_fails {s : State} (reg : RegAddr) (vs : List Byte) (h : nextAnswer s = .fails) :
    setBytes reg vs s = .raised .ioError ((s.useAnswer 0).record (.setBytes reg vs false)) := by
  simp [setBytes, h]

/-- A bulk read that the chip answers with exactly the bytes asked for returns them. -/
theorem getBytes_of_gives {s : State} {d : List Byte} {rest : List ChipAnswer} (reg : RegAddr)
    (h : s.chip = .gives d :: rest) :
    getBytes reg d.length s = .done d ((s.useAnswer d.length).record (.getBytes reg d.length (some d))) := by
  have hd : (List.range d.length).map (answerByte d s.draws) = d := by
    apply List.ext_getElem
    · simp
    · intro i h1 h2
      simp [answerByte, h2]
  simp only [getBytes, nextAnswer_of_chip h, hd]

/-- Whether or not it succeeds, a bulk read returns the number of bytes asked for. -/
theorem getBytes_length (reg : RegAddr) (n : Nat) (s : State) :
    (getBytes reg n s).All (fun bs _ => bs.length = n) (fun _ _ => True) := by
  unfold getBytes; split <;> simp

/-! ## What a sub-operation leaves alone -/

/-- What every sub-operation leaves alone or only adds to; the cached mode follows the mode writes it adds to the trace. -/
structure SubOp (s t : State) : Prop where
  syncs : t.syncs = s.syncs
  nextSyncId : t.nextSyncId = s.nextSyncId
  port : t.port = s.port
  responses : t.responses = s.responses
  turns : t.turns = s.turns
  cfg : t.cfg = s.cfg
  clock : s.clock ≤ t.clock
  log : s.log <+: t.log
  trace : ∃ new, t.trace = s.trace ++ new ∧ t.st.mode = lastModeWrite s.st.mode new

theorem lastModeWrite_append (m : Option Byte) (a b : List BusTxn) :
    lastModeWrite m (a ++ b) = lastModeWrite (lastModeWrite m a) b := by
  simp [lastModeWrite, List.foldl_append]

theorem SubOp.refl (s : State) : SubOp s s :=
  ⟨rfl, rfl, rfl, rfl, rfl, rfl, le_refl _, List.prefix_rfl, [], by simp [lastModeWrite]⟩

theorem SubOp.trans {s t u : State} (h1 : SubOp s t) (h2 : SubOp t u) : SubOp s u := by
  obtain ⟨n1, e1, m1⟩ := h1.trace
  obtain ⟨n2, e2, m2⟩ := h2.trace
  exact ⟨h2.syncs.trans h1.syncs, h2.nextSyncId.trans h1.nextSyncId, h2.port.trans h1.port,
    h2.responses.trans h1.responses, h2.turns.trans h1.turns, h2.cfg.trans h1.cfg, h1.clock.trans h2.clock,
    h1.log.trans h2.log, n1 ++ n2, by rw [e2, e1, List.append_assoc], by rw [m2, m1, lastModeWrite_append]⟩

/-- A transaction that is no successful mode write. -/
theorem SubOp.of_record {s : State} (n : Nat) (x : BusTxn) (hx : lastModeWrite s.st.mode [x] = s.st.mode) :
    SubOp s ((s.useAnswer n).record x) :=
  ⟨rfl, rfl, rfl, rfl, rfl, rfl, le_refl _, List.prefix_rfl, [x], rfl, hx.symm⟩

/-- A change of `st` that leaves the cached mode alone. -/
theorem SubOp.of_st {s : State} {st : LinkState} (h : st.mode = s.st.mode) : SubOp s { s with st := st } :=
  ⟨rfl, rfl, rfl, rfl, rfl, rfl, le_refl _, List.prefix_rfl, [], by simp, h⟩

theorem SubOp.of_log (s : State) (e : LogEvent) : SubOp s (s.logEvent e) :=
  ⟨rfl, rfl, rfl, rfl, rfl, rfl, le_refl _, List.prefix_append _ _, [], by simp, rfl⟩

theorem nextTime_ge (s : State) : s.clock ≤ nextTime s := by
  unfold nextTime; split <;> omega

theorem SubOp.of_sampleTime (s : State) : SubOp s s.sampleTime :=
  ⟨rfl, rfl, rfl, rfl, rfl, rfl, nextTime_ge s, List.prefix_rfl, [], by simp, rfl⟩

/-- What a sub-operation that only programs the chip leaves alone besides: of `st` it writes the cached mode at most; the time
and the log stay. -/
structure ChipOp (s t : State) : Prop extends SubOp s t where
  st : t.st = { s.st with mode := t.st.mode }
  sameLog : t.log = s.log
  sameClock : t.clock = s.clock
  sameTicks : t.ticks = s.ticks

theorem ChipOp.refl (s : State) : ChipOp s s := ⟨SubOp.refl s, rfl, rfl, rfl, rfl⟩

theorem ChipOp.trans {s t u : State} (h1 : ChipOp s t) (h2 : ChipOp t u) : ChipOp s u :=
  ⟨h1.toSubOp.trans h2.toSubOp, by rw [h2.st, h1.st], h2.sameLog.trans h1.sameLog, h2.sameClock.trans h1.sameClock,
    h2.sameTicks.trans h1.sameTicks⟩

/-- What the cached mode is afterwards says all of `st`. -/
theorem ChipOp.st_of_mode {s t : State} {m : Option Byte} (h : ChipOp s t) (hm : t.st.mode = m) :
    t.st = { s.st with mode := m } := by
  subst hm; exact h.st

/-! ## The primitives -/

/-- A read changes nothing of `st`; a failure is IOError. -/
theorem getByte_spec (reg : RegAddr) (s : State) :
    (getByte reg s).All (fun _ t => ChipOp s t ∧ t.st = s.st) (fun e t => e = .ioError ∧ ChipOp s t ∧ t.st = s.st) := by
  unfold getByte
  split
  · exact ⟨rfl, ⟨SubOp.of_record _ _ rfl, rfl, rfl, rfl, rfl⟩, rfl⟩
  · exact ⟨⟨SubOp.of_record _ _ rfl, rfl, rfl, rfl, rfl⟩, rfl⟩

theorem getBytes_spec (reg : RegAddr) (n : Nat) (s : State) :
    (getBytes reg n s).All (fun bs t => bs.length = n ∧ ChipOp s t ∧ t.st = s.st)
      (fun e t => e = .ioError ∧ ChipOp s t ∧ t.st = s.st) := by
  unfold getBytes
  split
  · exact ⟨rfl, ⟨SubOp.of_record _ _ rfl, rfl, rfl, rfl, rfl⟩, rfl⟩
  · exact ⟨by simp, ⟨SubOp.of_record _ _ rfl, rfl, rfl, rfl, rfl⟩, rfl⟩

/-- A write of a register other than the mode register changes nothing of `st`. -/
theorem setByte_spec {reg : RegAddr} (h : reg ≠ regOpMode) (v : Byte) (s : State) :
    (setByte reg v s).All (fun _ t => ChipOp s t ∧ t.st = s.st) (fun e t => e = .ioError ∧ ChipOp s t ∧ t.st = s.st) := by
  unfold setByte
  split
  · exact ⟨rfl, ⟨SubOp.of_record _ _ rfl, rfl, rfl, rfl, rfl⟩, rfl⟩
  · exact ⟨⟨SubOp.of_record _ _ (by simp [lastModeWrite, h]), rfl, rfl, rfl, rfl⟩, rfl⟩

theorem setBytes_spec (reg : RegAddr) (vs : List Byte) (s : State) :
    (setBytes reg vs s).All (fun _ t => ChipOp s t ∧ t.st = s.st) (fun e t => e = .ioError ∧ ChipOp s t ∧ t.st = s.st) := by
  unfold setBytes
  split
  · exact ⟨rfl, ⟨SubOp.of_record _ _ rfl, rfl, rfl, rfl, rfl⟩, rfl⟩
  · exact ⟨⟨SubOp.of_record _ _ rfl, rfl, rfl, rfl, rfl⟩, rfl⟩

/-! ## Mode access -/

theorem setMode_spec (m : Byte) (s : State) :
    (setMode m s).All (fun _ t => ChipOp s t ∧ t.st.mode = some m)
      (fun e t => e = .ioError ∧ ChipOp s t ∧ t.st.mode = s.st.mode) := by
  unfold setMode setByte
  split
  · exact ⟨rfl, ⟨SubOp.of_record _ _ rfl, rfl, rfl, rfl, rfl⟩, rfl⟩
  · exact ⟨⟨⟨rfl, rfl, rfl, rfl, rfl, rfl, le_refl _, List.prefix_rfl, [_], rfl, by simp [lastModeWrite]⟩,
      rfl, rfl, rfl, rfl⟩, rfl⟩

theorem getMode_spec (s : State) :
    (getMode s).All (fun _ t => ChipOp s t ∧ t.st = s.st) (fun e t => e = .ioError ∧ ChipOp s t ∧ t.st = s.st) :=
  (getByte_spec regOpMode s).andThen fun _ _ h => h

/-- ENTER_RX: on failure the cached mode is as before. -/
theorem enterRx_spec (s : State) :
    (enterRx s).All (fun _ t => ChipOp s t ∧ t.st.mode = some s.cfg.modeRxContinuous)
      (fun e t => e = .ioError ∧ ChipOp s t ∧ t.st.mode = s.st.mode) := by
  refine Res.All.andThen (P := fun _ t => ChipOp s t ∧ t.st = s.st)
    ((setByte_spec (by decide) _ s).mono (fun _ _ h => h) fun _ _ h => ⟨h.1, h.2.1, by rw [h.2.2]⟩) ?_
  intro _ t ⟨hst, he⟩
  rw [← hst.cfg]
  exact (setMode_spec t.cfg.modeRxContinuous t).mono (fun _ _ h => ⟨hst.trans h.1, h.2⟩)
    fun _ _ h => ⟨h.1, hst.trans h.2.1, by rw [h.2.2, he]⟩

/-! ## Transmission -/

/-- BEGIN_TX: when it is done the cached mode is TX and the start time the time sampled; a failure is IOError and leaves the
cached mode as before or STANDBY. -/
theorem beginTx_spec (msg : List Byte) (s : State) :
    (beginTx msg s).All
      (fun _ t => SubOp s t ∧ t.st = { s.st with mode := some s.cfg.modeTx, txStart := some t.clock } ∧ t.log = s.log)
      (fun e t => e = .ioError ∧ ChipOp s t ∧ (t.st.mode = s.st.mode ∨ t.st.mode = some s.cfg.modeStandby)) := by
  have keep : ∀ (a : State), ChipOp s a → a.st.mode = some s.cfg.modeStandby → ∀ (r : Res Unit),
      r.All (fun _ t => ChipOp a t ∧ t.st = a.st) (fun e t => e = .ioError ∧ ChipOp a t ∧ t.st = a.st) →
      r.All (fun _ t => ChipOp s t ∧ t.st.mode = some s.cfg.modeStandby)
        (fun e t => e = .ioError ∧ ChipOp s t ∧ (t.st.mode = s.st.mode ∨ t.st.mode = some s.cfg.modeStandby)) := by
    intro a ha hm r hr
    exact hr.mono (fun _ _ h => ⟨ha.trans h.1, by rw [h.2, hm]⟩) fun _ _ h => ⟨h.1, ha.trans h.2.1, .inr (by rw [h.2.2, hm])⟩
  refine Res.All.andThen (P := fun _ t => ChipOp s t ∧ t.st.mode = some s.cfg.modeStandby)
    ((setMode_spec s.cfg.modeStandby s).mono (fun _ _ h => h) fun _ _ h => ⟨h.1, h.2.1, .inl h.2.2⟩) ?_
  intro _ a ha
  refine Res.All.andThen (keep a ha.1 ha.2 _ (setByte_spec (by decide) _ a)) ?_
  intro _ b hb
  refine Res.All.andThen (keep b hb.1 hb.2 _ (setBytes_spec _ _ b)) ?_
  intro _ c hc
  refine Res.All.andThen (keep c hc.1 hc.2 _ (setByte_spec (by decide) _ c)) ?_
  intro _ d hd
  refine Res.All.andThen (keep d hd.1 hd.2 _ (setByte_spec (by decide) _ d)) ?_
  intro _ e he
  refine Res.All.andThen (P := fun _ t => ChipOp s t ∧ t.st.mode = some s.cfg.modeTx)
    ((setMode_spec e.cfg.modeTx e).mono (fun _ _ h => ⟨he.1.trans h.1, by rw [h.2, he.1.cfg]⟩)
      fun _ _ h => ⟨h.1, he.1.trans h.2.1, .inr (by rw [h.2.2, he.2])⟩) ?_
  intro _ f hf
  refine ⟨hf.1.toSubOp.trans ((SubOp.of_sampleTime f).trans (SubOp.of_st rfl)), ?_, hf.1.sameLog⟩
  simp [hf.1.st_of_mode hf.2]

/-- START_NEXT on a non-empty backlog: the front message is consumed; either its transmission runs under ARB's lock, or the
failure is logged and the lock is free. -/
theorem startNext_cons {s : State} {msg : List Byte} {more : List (List Byte)} (h : s.st.backlog = msg :: more) :
    SubOp s (startNext s) ∧
      (((startNext s).st = { s.st with backlog := more, txLock := .arb, mode := some s.cfg.modeTx,
                                        txStart := some (startNext s).clock } ∧ (startNext s).log = s.log) ∨
        ((startNext s).st = { s.st with backlog := more, txLock := .free, mode := (startNext s).st.mode } ∧
          ((startNext s).st.mode = s.st.mode ∨ (startNext s).st.mode = some s.cfg.modeStandby) ∧
          (startNext s).log = s.log ++ ([.txStartFailed] : List LogEvent) ∧ (startNext s).clock = s.clock)) := by
  obtain ⟨s', hs'⟩ : ∃ s', s' = { s with st := { s.st with backlog := more, txLock := .arb } } := ⟨_, rfl⟩
  have h0 : SubOp s s' := hs' ▸ SubOp.of_st rfl
  have hst : s'.st = { s.st with backlog := more, txLock := .arb } := by rw [hs']
  have hlog : s'.log = s.log := by rw [hs']
  have hclock : s'.clock = s.clock := by rw [hs']
  have hcfg : s'.cfg = s.cfg := by rw [hs']
  have hnext : startNext s = match beginTx msg s' with
      | .done _ s => s
      | .raised _ s => { s.logEvent .txStartFailed with st := { s.st with txLock := .free } } := by
    rw [hs']; unfold startNext; rw [h] <;> rfl
  have hb := beginTx_spec msg s'
  rw [hnext]
  cases hr : beginTx msg s' with
  | done u t =>
    rw [hr] at hb
    exact ⟨h0.trans hb.1, .inl ⟨by rw [hb.2.1, hst, hcfg], hb.2.2.trans hlog⟩⟩
  | raised e t =>
    rw [hr] at hb
    obtain ⟨-, hc, hm⟩ := hb
    have ht : t.st = { s.st with backlog := more, txLock := .arb, mode := t.st.mode } := by
      have h1 := hc.st; rw [hst] at h1; exact h1
    rw [hst, hcfg] at hm
    refine ⟨h0.trans (hc.toSubOp.trans ((SubOp.of_log _ _).trans (SubOp.of_st rfl))), .inr ⟨?_, hm, ?_, ?_⟩⟩
    · change { t.st with txLock := TxLock.free } = _
      rw [ht]
    · change t.log ++ _ = _
      rw [hc.sameLog, hlog]
    · exact hc.sameClock.trans hclock

theorem startNext_nil {s : State} (h : s.st.backlog = []) : startNext s = s := by
  unfold startNext; rw [h]

/-- TRIM keeps the newest elements, as many as fit. -/
theorem trim_suffix {α : Type} (n : Nat) (l : List α) : trim n l <:+ l := by
  unfold trim; split
  · exact List.drop_suffix _ _
  · exact List.suffix_rfl

theorem trim_length {α : Type} (n : Nat) (l : List α) : (trim n l).length = min n l.length := by
  unfold trim; split
  · simp; omega
  · omega

/-! ## The sub-operations on a script of the chip's answers -/

theorem State.sameHosts.trans {s t u : State} (h : s.sameHosts t) (g : t.sameHosts u) : s.sameHosts u := by
  obtain ⟨a1, a2, a3, a4, a5⟩ := h
  obtain ⟨b1, b2, b3, b4, b5⟩ := g
  exact ⟨b1.trans a1, b2.trans a2, b3.trans a3, b4.trans a4, b5.trans a5⟩

@[simp] theorem answerByte_cons (b : Byte) (d : List Byte) (base : Nat) : answerByte (b :: d) base 0 = b := rfl

/-- ENTER_RX when the chip accepts both writes (R124). -/
theorem enterRx_gives {s : State} {d1 d2 : List Byte} {rest : List ChipAnswer} (hd : s.decidedDefaults)
    (h : s.chip = .gives d1 :: .gives d2 :: rest) :
    ∃ t, enterRx s = .done () t ∧ t.st = { s.st with mode := some 0x85 } ∧
      t.trace = s.trace ++ ([.setByte 0x40 0x00 true, .setByte 0x01 0x85 true] : List BusTxn) ∧ t.chip = rest ∧ t.log = s.log ∧ t.clock = s.clock ∧
      t.responses = s.responses ∧ s.sameHosts t := by
  obtain ⟨st, syncs, nid, port, resp, tr, log, chip, ticks, clock, turns, draws, ⟨dec, pl, lna, pa, polls, depth, cap⟩⟩ := s
  obtain rfl : dec = _ := hd
  simp only at h; subst h
  refine ⟨_, rfl, ?_, ?_, rfl, rfl, rfl, rfl, rfl, rfl, rfl, rfl, rfl⟩ <;>
    simp only [State.record, State.useAnswer, List.append_assoc] <;> rfl

/-- BEGIN_TX when the chip accepts all six transactions (R155). -/
theorem beginTx_gives {msg : List Byte} {s : State} {ws : List (List Byte)} {rest : List ChipAnswer}
    (hd : s.decidedDefaults) (hw : ws.length = 6) (h : s.chip = ws.map ChipAnswer.gives ++ rest) :
    ∃ t, beginTx msg s = .done () t ∧ t.st = { s.st with mode := some 0x83, txStart := some t.clock } ∧ s.clock ≤ t.clock ∧
      t.trace = s.trace ++ (beginTxTxns msg).map (fun x => x true) ∧ t.chip = rest ∧ t.log = s.log ∧
      t.responses = s.responses ∧ s.sameHosts t := by
  match ws, hw with
  | [_, _, _, _, _, _], _ =>
    obtain ⟨st, syncs, nid, port, resp, tr, log, chip, ticks, clock, turns, draws, ⟨dec, pl, lna, pa, polls, depth, cap⟩⟩ := s
    obtain rfl : dec = _ := hd
    simp only [List.map_cons, List.map_nil, List.cons_append, List.nil_append] at h
    subst h
    refine ⟨_, rfl, ?_, ?_, ?_, rfl, rfl, rfl, ⟨rfl, rfl, rfl, rfl, rfl⟩⟩
    · simp only [State.sampleTime, State.record, State.useAnswer]; rfl
    · cases ticks <;> exact Nat.le_add_right _ _
    · simp only [State.sampleTime, State.record, State.useAnswer, List.append_assoc]; rfl

/-- BEGIN_TX when one of the six transactions fails: none after it is issued (R155, R221). -/
theorem beginTx_fails {msg : List Byte} {s : State} {ws : List (List Byte)} {rest : List ChipAnswer}
    (hd : s.decidedDefaults) (hw : ws.length < 6)
    (h : s.chip = ws.map ChipAnswer.gives ++ .fails :: rest) :
    ∃ t, beginTx msg s = .raised .ioError t ∧ t.st = { s.st with mode := if ws = [] then s.st.mode else some 0x81 } ∧
      t.trace = s.trace ++ cutShort (beginTxTxns msg) ws.length ∧ t.chip = rest ∧ t.log = s.log ∧
      t.responses = s.responses ∧ t.clock = s.clock ∧ s.sameHosts t := by
  obtain ⟨st, syncs, nid, port, resp, tr, log, chip, ticks, clock, turns, draws, ⟨dec, pl, lna, pa, polls, depth, cap⟩⟩ := s
  obtain rfl : dec = _ := hd
  simp only at h
  subst h
  match ws, hw with
  | [], _ =>
    refine ⟨_, rfl, rfl, ?_, rfl, rfl, rfl, rfl, rfl, rfl, rfl, rfl, rfl⟩
    simp only [State.record, State.useAnswer]; rfl
  | [_], _ | [_, _], _ | [_, _, _], _ | [_, _, _, _], _ | [_, _, _, _, _], _ =>
    refine ⟨_, rfl, ?_, ?_, rfl, rfl, rfl, rfl, rfl, rfl, rfl, rfl, rfl⟩ <;>
      simp only [State.record, State.useAnswer, List.append_assoc] <;> rfl

/-- START_NEXT when its start succeeds (R156). -/
theorem startNext_gives {msg : List Byte} {more ws : List (List Byte)} {s : State} {rest : List ChipAnswer}
    (hd : s.decidedDefaults) (hb : s.st.backlog = msg :: more) (hw : ws.length = 6) (h : s.chip = ws.map ChipAnswer.gives ++ rest) :
    ∃ t, startNext s = t ∧ t.st = { s.st with backlog := more, txLock := .arb, mode := some 0x83, txStart := some t.clock } ∧
      s.clock ≤ t.clock ∧ t.trace = s.trace ++ (beginTxTxns msg).map (fun x => x true) ∧ t.chip = rest ∧ t.log = s.log ∧
      t.responses = s.responses ∧ s.sameHosts t := by
  obtain ⟨t, ht, h1⟩ := beginTx_gives (msg := msg) (s := { s with st := { s.st with backlog := more, txLock := .arb } }) hd hw h
  refine ⟨t, ?_, h1⟩
  unfold startNext
  simp only [hb, ht]

/-- START_NEXT when a transaction of its start fails (R156). -/
theorem startNext_fails {msg : List Byte} {more ws : List (List Byte)} {s : State} {rest : List ChipAnswer}
    (hd : s.decidedDefaults) (hb : s.st.backlog = msg :: more) (hw : ws.length < 6) (h : s.chip = ws.map ChipAnswer.gives ++ .fails :: rest) :
    ∃ t, startNext s = t ∧
      t.st = { s.st with backlog := more, txLock := .free, mode := if ws = [] then s.st.mode else some 0x81 } ∧
      t.clock = s.clock ∧ t.trace = s.trace ++ cutShort (beginTxTxns msg) ws.length ∧ t.chip = rest ∧
      t.log = s.log ++ ([.txStartFailed] : List LogEvent) ∧ t.responses = s.responses ∧ s.sameHosts t := by
  obtain ⟨t, ht, h1, h2, h3, h4, h5, h6, h7⟩ :=
    beginTx_fails (msg := msg) (s := { s with st := { s.st with backlog := more, txLock := .arb } }) hd hw h
  refine ⟨_, rfl, ?_⟩
  unfold startNext
  simp only [hb, ht]
  refine ⟨?_, h6, h2, h3, ?_, h5, h7⟩
  · simp only [h1]
  · simp only [State.logEvent, h4]

end Sys2Proof.Machine
end

