-- ==== Sys2Proof/Laws/Course.lean ====
section
/-! SUPPORT. Courses of transactions on a script of the chip's answers: what a sub-operation that issues a list of transactions
does when all succeed, and when any one of them fails (60_exceptions.md R221). Sequences of sub-operations follow from their
parts by one rule. -/

namespace Sys2Proof.Machine

/-- What a course that issued the transactions `new` leaves, with the answers `rest` still to come: of `st` the cached mode moves
with the mode writes in `new`, and nothing else but the model's own counter changes. -/
structure After (s t : State) (new : List BusTxn) (rest : List ChipAnswer) : Prop where
  chip : t.chip = rest
  trace : t.trace = s.trace ++ new
  st : t.st = { s.st with mode := lastModeWrite s.st.mode new }
  log : t.log = s.log
  responses : t.responses = s.responses
  clock : t.clock = s.clock
  ticks : t.ticks = s.ticks
  hosts : s.sameHosts t

theorem After.refl (s : State) : After s s [] s.chip :=
  ⟨rfl, (List.append_nil _).symm, rfl, rfl, rfl, rfl, rfl, rfl, rfl, rfl, rfl, rfl⟩

theorem After.trans {s t u : State} {a b : List BusTxn} {x y : List ChipAnswer} (h : After s t a x) (g : After t u b y) :
    After s u (a ++ b) y :=
  ⟨g.chip, by rw [g.trace, h.trace, List.append_assoc], by rw [g.st, h.st, lastModeWrite_append], g.log.trans h.log,
    g.responses.trans h.responses, g.clock.trans h.clock, g.ticks.trans h.ticks, h.hosts.trans g.hosts⟩

theorem After.cfg {s t : State} {a : List BusTxn} {x : List ChipAnswer} (h : After s t a x) : t.cfg = s.cfg := h.hosts.2.2.2.2

/-- A sub-operation follows a course: with the answers that let all steps succeed it is done, with a value in `P`; with a failure
at any step it raises IOError there and issues no later transaction. -/
structure Follows {α : Type} (steps : List TxnStep) (P : α → Prop) (s : State) (r : Res α) : Prop where
  succeeds : ∀ rest, s.chip = answersTo steps steps.length ++ rest →
    ∃ a t, r = .done a t ∧ P a ∧ After s t (succeeding steps) rest
  fails : ∀ k < steps.length, ∀ rest, s.chip = answersTo steps k ++ .fails :: rest →
    ∃ t, r = .raised .ioError t ∧ After s t (failingAt steps k) rest

/-- One transaction. -/
theorem Follows.one {α : Type} {x : TxnStep} {P : α → Prop} {s : State} {r : Res α}
    (h1 : ∀ rest, s.chip = x.1 :: rest → ∃ a t, r = .done a t ∧ P a ∧ After s t [x.2.1] rest)
    (h2 : ∀ rest, s.chip = .fails :: rest → ∃ t, r = .raised .ioError t ∧ After s t [x.2.2] rest) : Follows [x] P s r := by
  refine ⟨h1, fun k hk => ?_⟩
  obtain rfl : k = 0 := by simp at hk; omega
  exact h2

/-- A read of a register. -/
theorem Follows.getByte (reg : RegAddr) (v : Byte) (s : State) :
    Follows [readStep reg v] (fun b => b = v) s (Machine.getByte reg s) := by
  obtain ⟨st, syncs, nid, port, resp, tr, log, chip, ticks, clock, turns, draws, cfg⟩ := s
  refine Follows.one (fun rest h => ?_) (fun rest h => ?_) <;> simp only [readStep] at h ⊢ <;> subst h
  · exact ⟨_, _, rfl, rfl, rfl, rfl, rfl, rfl, rfl, rfl, rfl, rfl, rfl, rfl, rfl, rfl⟩
  · exact ⟨_, rfl, rfl, rfl, rfl, rfl, rfl, rfl, rfl, rfl, rfl, rfl, rfl, rfl⟩

/-- A write of a register other than the mode register. -/
theorem Follows.setByte {reg : RegAddr} (hr : reg ≠ regOpMode) (d : List Byte) (v : Byte) (s : State) :
    Follows [writeStep d reg v] (fun _ => True) s (Machine.setByte reg v s) := by
  obtain ⟨st, syncs, nid, port, resp, tr, log, chip, ticks, clock, turns, draws, cfg⟩ := s
  refine Follows.one (fun rest h => ?_) (fun rest h => ?_) <;> simp only [writeStep] at h ⊢ <;> subst h
  · exact ⟨_, _, rfl, trivial, rfl, rfl, by simp [lastModeWrite, hr], rfl, rfl, rfl, rfl, rfl, rfl, rfl, rfl, rfl⟩
  · exact ⟨_, rfl, rfl, rfl, rfl, rfl, rfl, rfl, rfl, rfl, rfl, rfl, rfl, rfl⟩

/-- A bulk read. -/
theorem Follows.getBytes (reg : RegAddr) {n : Nat} {pay : List Byte} (hl : pay.length = n) (s : State) :
    Follows [(.gives pay, .getBytes reg n (some pay), .getBytes reg n none)] (fun b => b = pay) s (Machine.getBytes reg n s) := by
  subst hl
  refine Follows.one (fun rest h => ?_) (fun rest h => ?_)
  · refine ⟨_, _, getBytes_of_gives reg h, rfl, ?_, rfl, rfl, rfl, rfl, rfl, rfl, rfl, rfl, rfl, rfl, rfl⟩
    simp [h]
  · obtain ⟨st, syncs, nid, port, resp, tr, log, chip, ticks, clock, turns, draws, cfg⟩ := s
    simp only at h; subst h
    exact ⟨_, rfl, rfl, rfl, rfl, rfl, rfl, rfl, rfl, rfl, rfl, rfl, rfl, rfl⟩

/-- No transaction. -/
theorem Follows.done {α : Type} {P : α → Prop} {a : α} (h : P a) (s : State) : Follows [] P s (.done a s) :=
  ⟨fun rest hc => ⟨a, s, rfl, h, (show s.chip = rest from hc) ▸ .refl s⟩, fun k hk => absurd hk (Nat.not_lt_zero k)⟩

/-- SET_MODE (R111). -/
theorem Follows.setMode (d : List Byte) (m : Byte) (s : State) :
    Follows [writeStep d regOpMode m] (fun _ => True) s (Machine.setMode m s) := by
  obtain ⟨st, syncs, nid, port, resp, tr, log, chip, ticks, clock, turns, draws, cfg⟩ := s
  refine Follows.one (fun rest h => ?_) (fun rest h => ?_) <;> simp only [writeStep] at h ⊢ <;> subst h
  · exact ⟨_, _, rfl, trivial, rfl, rfl, by simp [lastModeWrite], rfl, rfl, rfl, rfl, rfl, rfl, rfl, rfl, rfl⟩
  · exact ⟨_, rfl, rfl, rfl, rfl, rfl, rfl, rfl, rfl, rfl, rfl, rfl, rfl, rfl⟩

theorem answersTo_length (steps : List TxnStep) : answersTo steps steps.length = steps.map fun x => x.1 := by
  rw [answersTo, List.take_length]

/-- The answers to two courses one after the other, when the first succeeds. -/
theorem answersTo_append (a b : List TxnStep) (j : Nat) :
    answersTo (a ++ b) (a.length + j) = answersTo a a.length ++ answersTo b j := by
  simp only [answersTo, List.take_length_add_append, List.map_append, List.take_length]

theorem failingAt_append (a b : List TxnStep) (j : Nat) :
    failingAt (a ++ b) (a.length + j) = succeeding a ++ failingAt b j := by
  simp only [failingAt, succeeding, List.take_length_add_append, List.drop_length_add_append, List.map_append, List.append_assoc]

/-- The rule of sequence: the second part starts with the value and the arguments of the model that the first part leaves. -/
theorem Follows.andThen {α β : Type} {a b : List TxnStep} {P : α → Prop} {Q : β → Prop} {s : State} {r : Res α}
    {f : α → State → Res β} (h : Follows a P s r) (hf : ∀ x t, P x → t.cfg = s.cfg → Follows b Q t (f x t)) :
    Follows (a ++ b) Q s (r.andThen f) := by
  constructor
  · intro rest hc
    obtain ⟨x, t, rfl, hx, ht⟩ := h.succeeds (answersTo b b.length ++ rest) (by
      rw [hc, List.length_append, answersTo_append, List.append_assoc])
    obtain ⟨y, u, hu, hy, hu'⟩ := (hf x t hx ht.cfg).succeeds rest ht.chip
    refine ⟨y, u, hu, hy, ?_⟩
    have := ht.trans hu'
    simpa [succeeding] using this
  · intro k hk rest hc
    by_cases hka : k < a.length
    · obtain ⟨t, rfl, ht⟩ := h.fails k hka rest (by
        rw [hc]; simp only [answersTo, List.take_append_of_le_length hka.le])
      refine ⟨t, rfl, ?_⟩
      have e : failingAt (a ++ b) k = failingAt a k := by
        simp only [failingAt, List.take_append_of_le_length hka.le, List.drop_append_of_le_length hka.le]
        rw [List.take_append_of_le_length (by rw [List.length_drop]; omega)]
      rw [e]; exact ht
    · obtain ⟨j, rfl⟩ : ∃ j, k = a.length + j := ⟨k - a.length, by omega⟩
      obtain ⟨x, t, rfl, hx, ht⟩ := h.succeeds (answersTo b j ++ .fails :: rest) (by
        rw [hc, answersTo_append, List.append_assoc])
      obtain ⟨u, hu, hu'⟩ := (hf x t hx ht.cfg).fails j (by simp at hk; omega) rest ht.chip
      refine ⟨u, hu, ?_⟩
      rw [failingAt_append]; exact ht.trans hu'

/-- A read and the write of what it makes of the byte read. -/
theorem Follows.modify {reg : RegAddr} (hr : reg ≠ regOpMode) (f : Byte → Byte) (v : Byte) (d : List Byte) (s : State) :
    Follows [readStep reg v, writeStep d reg (f v)] (fun _ => True) s
      ((Machine.getByte reg s).andThen fun w s => Machine.setByte reg (f w) s) :=
  Follows.andThen (a := [_]) (.getByte reg v s) fun w t hw _ => by subst hw; exact .setByte hr d _ t

/-- The same with another condition on the value. -/
theorem Follows.mono {α : Type} {steps : List TxnStep} {P Q : α → Prop} {s : State} {r : Res α} (h : Follows steps P s r)
    (hPQ : ∀ a, P a → Q a) : Follows steps Q s r :=
  ⟨fun rest hc => (h.succeeds rest hc).imp fun _ ⟨t, h1, h2, h3⟩ => ⟨t, h1, hPQ _ h2, h3⟩, h.fails⟩

/-- ENTER_RX (R124). -/
theorem enterRx_follows (d : Nat → List Byte) {s : State} (hd : s.decidedDefaults) :
    Follows (enterRxSteps d) (fun _ => True) s (enterRx s) := by
  unfold enterRx
  rw [hd]
  refine Follows.andThen (a := [_]) (Follows.setByte (by decide) (d 0) _ s) fun _ t _ ht => ?_
  rw [ht, hd]
  exact Follows.setMode (d 1) _ t

end Sys2Proof.Machine
end

