-- ==== Sys2Proof/Laws/Decode.lean ====
section
/-! SUPPORT. The byte order and the operand readers of the command port (30_encoding.md R87, R92, R94): each undoes the other. -/

namespace Sys2Proof

/-! ## Big-endian numbers -/

@[simp] theorem beBytes_length (n v : Nat) : (beBytes n v).length = n := by
  induction n generalizing v with
  | zero => rfl
  | succ n ih => simp [beBytes, ih]

theorem beNat_append_singleton (a : List Byte) (b : Byte) : beNat (a ++ [b]) = beNat a * 256 + b.toNat := by
  simp [beNat, List.foldl_append]

/-- Reading back what was written keeps the low-order bytes. -/
theorem beNat_beBytes (n v : Nat) : beNat (beBytes n v) = v % 256 ^ n := by
  induction n generalizing v with
  | zero => simp [beBytes, beNat, Nat.mod_one]
  | succ n ih =>
    simp only [beBytes, beNat_append_singleton, ih, BitVec.toNat_ofNat]
    have h := Nat.mod_mul (x := v) (a := 256) (b := 256 ^ n)
    rw [pow_succ 256 n, Nat.mul_comm (256 ^ n) 256, h]
    norm_num
    omega

theorem beBytes_beNat (bs : List Byte) : beBytes bs.length (beNat bs) = bs := by
  induction bs using List.reverseRecOn with
  | nil => rfl
  | append_singleton bs b ih =>
    rw [List.length_append, beNat_append_singleton]
    simp only [List.length_singleton, beBytes]
    have : (beNat bs * 256 + b.toNat) / 256 = beNat bs := by omega
    rw [this, ih]
    congr 2
    apply BitVec.eq_of_toNat_eq
    simp only [BitVec.toNat_ofNat]
    omega

theorem beNat_lt (bs : List Byte) : beNat bs < 256 ^ bs.length := by
  have h := beNat_beBytes bs.length (beNat bs)
  rw [beBytes_beNat] at h
  rw [h]
  exact Nat.mod_lt _ (by positivity)

/-- Bytes read as a number of their own width are written back unchanged. -/
theorem beBytes_ofNat_beNat {n w : Nat} {bs : List Byte} (h : bs.length = n) (hw : 256 ^ n = 2 ^ w) :
    beBytes n (BitVec.ofNat w (beNat bs)).toNat = bs := by
  rw [BitVec.toNat_ofNat, Nat.mod_eq_of_lt (by rw [← hw, ← h]; exact beNat_lt bs), ← h, beBytes_beNat]

/-! ## Operands -/

theorem takeExact_append (a rest : List Byte) : takeExact a.length (a ++ rest) = some (a, rest) := by
  induction a with
  | nil => rfl
  | cons x xs ih => simp [takeExact, ih]

theorem takeExact_eq_some {n : Nat} {bs a rest : List Byte} (h : takeExact n bs = some (a, rest)) :
    a.length = n ∧ bs = a ++ rest := by
  induction n generalizing bs a rest with
  | zero =>
    simp only [takeExact, Option.some.injEq, Prod.mk.injEq] at h
    simp [← h.1, h.2]
  | succ n ih =>
    cases bs with
    | nil => simp [takeExact] at h
    | cons b bs =>
      simp only [takeExact, Option.map_eq_some_iff] at h
      obtain ⟨⟨x, y⟩, hx, hy⟩ := h
      simp only [Prod.mk.injEq] at hy
      obtain ⟨rfl, rfl⟩ := hy
      have := ih hx
      simp [this.1]
      exact this.2

theorem decodeFixed_append (mk : List Byte → Instr) (a rest : List Byte) :
    decodeFixed a.length mk (a ++ rest) = .ok (mk a, rest) := by
  simp [decodeFixed, takeExact_append]

theorem decodeFixed_eq_ok {n : Nat} {mk : List Byte → Instr} {bs rest : List Byte} {i : Instr}
    (h : decodeFixed n mk bs = .ok (i, rest)) : ∃ a, a.length = n ∧ i = mk a ∧ bs = a ++ rest := by
  unfold decodeFixed at h
  split at h
  · rename_i o r ho
    have ht := takeExact_eq_some ho
    simp only [Except.ok.injEq, Prod.mk.injEq] at h
    obtain ⟨rfl, rfl⟩ := h
    exact ⟨o, ht.1, rfl, ht.2⟩
  · simp at h

theorem decodeMessage_append (mk : List Byte → Instr) (a rest : List Byte) (h : a.length < 65536) :
    decodeMessage mk (beBytes 2 a.length ++ a ++ rest) = .ok (mk a, rest) := by
  have ht : takeExact 2 (beBytes 2 a.length ++ (a ++ rest)) = some (beBytes 2 a.length, a ++ rest) := by
    have := takeExact_append (beBytes 2 a.length) (a ++ rest)
    rwa [beBytes_length] at this
  rw [List.append_assoc]
  simp only [decodeMessage, ht, beNat_beBytes]
  rw [Nat.mod_eq_of_lt (by omega), decodeFixed_append]

theorem decodeMessage_eq_ok {mk : List Byte → Instr} {bs rest : List Byte} {i : Instr}
    (h : decodeMessage mk bs = .ok (i, rest)) :
    ∃ a, a.length < 65536 ∧ i = mk a ∧ bs = beBytes 2 a.length ++ a ++ rest := by
  unfold decodeMessage at h
  split at h
  · rename_i len r hlen
    have hl := takeExact_eq_some hlen
    obtain ⟨a, ha, hi, hr⟩ := decodeFixed_eq_ok h
    have h1 := beNat_lt len
    have h2 := beBytes_beNat len
    rw [hl.1] at h1 h2
    refine ⟨a, by omega, hi, ?_⟩
    rw [ha, h2, hl.2, hr, List.append_assoc]
  · simp at h

/-! ## RadioParameters -/

@[simp] theorem encodeParams_length (p : RadioParameters) : (encodeParams p).length = 16 := by
  simp [encodeParams]

theorem decodeParams_encodeParams (p : RadioParameters) : decodeParams (encodeParams p) = p := by
  have h1 : (encodeParams p).take 8 = beBytes 8 p.frequencyHz.toNat := by simp [encodeParams]
  have h2 : ((encodeParams p).drop 8).take 4 = beBytes 4 p.bandwidthHz.toNat := by simp [encodeParams]
  have h3 : ((encodeParams p).drop 12).take 1 = beBytes 1 p.spreadingFactor.toNat := by
    simp [encodeParams, List.take_append, List.drop_append]
  have h4 : ((encodeParams p).drop 13).take 1 = beBytes 1 p.codingRate.toNat := by
    simp [encodeParams, List.drop_append, List.drop_eq_nil_of_le]
  have h5 : ((encodeParams p).drop 14).take 2 = beBytes 2 p.preambleLength.toNat := by
    simp [encodeParams, List.drop_append, List.drop_eq_nil_of_le, List.take_of_length_le]
  unfold decodeParams
  rw [h1, h2, h3, h4, h5]
  simp only [beNat_beBytes]
  cases p with
  | mk a b c d e =>
    simp only [RadioParameters.mk.injEq]
    refine ⟨?_, ?_, ?_, ?_, ?_⟩ <;>
      · apply BitVec.eq_of_toNat_eq
        simp only [BitVec.toNat_ofNat]
        omega

theorem encodeParams_decodeParams {o : List Byte} (h : o.length = 16) : encodeParams (decodeParams o) = o := by
  have cut : ∀ a b : Nat, o.drop a = (o.drop a).take b ++ o.drop (a + b) := by
    intro a b
    rw [← List.drop_drop, List.take_append_drop]
  unfold encodeParams decodeParams
  dsimp only
  rw [beBytes_ofNat_beNat (by simp; omega) (by norm_num), beBytes_ofNat_beNat (by simp; omega) (by norm_num),
    beBytes_ofNat_beNat (by simp; omega) (by norm_num), beBytes_ofNat_beNat (by simp; omega) (by norm_num),
    beBytes_ofNat_beNat (by simp; omega) (by norm_num)]
  conv_rhs => rw [← List.take_append_drop 8 o, cut 8 4, cut 12 1, cut 13 1]
  rw [List.take_of_length_le (l := o.drop 14) (by simp; omega)]
  simp only [List.append_assoc]

end Sys2Proof
end

