-- ==== Sys2Proof/Laws/Fec.lean ====
section
/-! SUPPORT. The pieces and lengths of the FEC codec's lists (43_fec_codec.md), so that later proofs do not unfold `chunks`. -/

namespace Sys2Proof.Machine

@[simp] theorem chunks_length (size n : Nat) (bs : List Byte) : (chunks size n bs).length = n := by
  induction n generalizing bs with
  | zero => rfl
  | succ n ih => simp [chunks, ih]

/-- Piece `i` is the `size` bytes from `size * i` on. -/
theorem chunks_getElem? (size n : Nat) (bs : List Byte) (i : Nat) :
    (chunks size n bs)[i]? = if i < n then some ((bs.drop (size * i)).take size) else none := by
  induction n generalizing bs i with
  | zero => simp [chunks]
  | succ n ih =>
    cases i with
    | zero => simp [chunks]
    | succ i => simp [chunks, ih, List.drop_drop, Nat.mul_succ, Nat.add_comm]

theorem chunks_getD {size n i : Nat} (bs : List Byte) (h : i < n) :
    (chunks size n bs).getD i [] = (bs.drop (size * i)).take size := by
  rw [List.getD_eq_getElem?_getD, chunks_getElem?, if_pos h]; rfl

/-- The pieces put together again. -/
theorem chunks_flatten (size n : Nat) (bs : List Byte) : (chunks size n bs).flatten = bs.take (size * n) := by
  induction n generalizing bs with
  | zero => simp [chunks]
  | succ n ih => rw [chunks, List.flatten_cons, ih, Nat.mul_succ, Nat.add_comm, List.take_add]

theorem chunks_flatten_self {size n : Nat} {bs : List Byte} (h : bs.length = size * n) :
    (chunks size n bs).flatten = bs := by
  rw [chunks_flatten, List.take_of_length_le (by omega)]

/-- Pieces of equal length, put together and cut again. -/
theorem chunks_flatten_append {size : Nat} (l : List (List Byte)) (rest : List Byte) (h : ∀ x ∈ l, x.length = size) :
    chunks size l.length (l.flatten ++ rest) = l := by
  induction l with
  | nil => rfl
  | cons x l ih =>
    have hx : x.length = size := h x (by simp)
    subst hx
    have ih := ih (fun y hy => h y (by simp [hy]))
    simp [chunks, ih]

variable (g : Decided)

@[simp] theorem parityShard_length (d : List (List Byte)) (j : Nat) : (g.parityShard d j).length = shardLen := by
  simp [Decided.parityShard]

@[simp] theorem rsParityShards_length (d : List (List Byte)) : (g.rsParityShards d).length = mPar := by
  simp [Decided.rsParityShards]

@[simp] theorem rsReconstruct_length (d q : List (List Byte)) (E : List Nat) : (g.rsReconstruct d q E).length = kData := by
  simp [Decided.rsReconstruct]

@[simp] theorem dataBlock_length (shard : List Byte) : (g.dataBlock shard).length = shard.length + 1 := by
  simp [Decided.dataBlock]

/-- A data block is made of a shard whose CRC it carries: it never fails its check. -/
theorem blockFails_dataBlock {shard : List Byte} (h : shard.length = shardLen) : g.blockFails (g.dataBlock shard) = false := by
  simp [Decided.blockFails, Decided.dataBlock, ← h]

@[simp] theorem dataBlocks_length (rx : List Byte) : (dataBlocks rx).length = kData := by
  simp [dataBlocks]

@[simp] theorem receivedShards_length (rx : List Byte) : (receivedShards rx).length = kData := by
  simp [receivedShards]

@[simp] theorem receivedParity_length (rx : List Byte) : (receivedParity rx).length = mPar := by
  simp [receivedParity]

/-- E is ascending, without repeats, and names data blocks only (R202). -/
theorem erasures_nodup (rx : List Byte) : (g.erasures rx).Nodup :=
  List.nodup_range.filter _

theorem erasures_lt {g : Decided} {rx : List Byte} {i : Nat} (h : i ∈ g.erasures rx) : i < kData :=
  List.mem_range.mp (List.mem_filter.mp h).1

end Sys2Proof.Machine
end

