-- ==== Sys2Proof/Laws/ModeController.lean ====
section
/-! SUPPORT. What the parameter setters and INITIALIZE can do (40_mode_controller.md). -/

namespace Sys2Proof.Machine

/-- What a sub-operation that writes no mode and nothing of `st` answers. -/
def SetterAll (s : State) (r : Res Unit) : Prop :=
  r.All (fun _ t => ChipOp s t ∧ t.st = s.st) (fun e t => e = .ioError ∧ ChipOp s t ∧ t.st = s.st)

theorem setByte_setter {reg : RegAddr} (h : reg ≠ regOpMode) (v : Byte) (s : State) : SetterAll s (setByte reg v s) :=
  setByte_spec h v s

theorem SetterAll.andThen {s : State} {r : Res Unit} {f : Unit → State → Res Unit} (h : SetterAll s r)
    (hf : ∀ t, SetterAll t (f () t)) : SetterAll s (r.andThen f) :=
  Res.All.andThen h fun _ t ht => (hf t).mono (fun _ _ h => ⟨ht.1.trans h.1, by rw [h.2, ht.2]⟩)
    fun _ _ h => ⟨h.1, ht.1.trans h.2.1, by rw [h.2.2, ht.2]⟩

/-- A read, then a write that depends on the byte read. -/
theorem readModifyWrite_setter {reg : RegAddr} (h : reg ≠ regOpMode) (f : Byte → Byte) (s : State) :
    SetterAll s ((getByte reg s).andThen fun v s => setByte reg (f v) s) :=
  Res.All.andThen (getByte_spec reg s) fun v t ht => (setByte_spec h (f v) t).mono
    (fun _ _ h => ⟨ht.1.trans h.1, by rw [h.2, ht.2]⟩) fun _ _ h => ⟨h.1, ht.1.trans h.2.1, by rw [h.2.2, ht.2]⟩

theorem setBandwidth_setter {bw : BitVec 32} {s : State} (h : (s.cfg.bwCode bw).isSome = true) :
    SetterAll s (setBandwidth bw s) := by
  obtain ⟨c, hc⟩ := Option.isSome_iff_exists.mp h
  unfold setBandwidth
  rw [hc]
  exact readModifyWrite_setter (by decide) _ s

theorem setSpreadingFactor_setter {sf : Byte} (h : spreadingFactorOk sf = true) (s : State) :
    SetterAll s (setSpreadingFactor sf s) := by
  unfold setSpreadingFactor
  rw [if_pos h]
  exact readModifyWrite_setter (by decide) _ s

theorem setCodingRate_setter {cr : Byte} (h : codingRateOk cr = true) (s : State) :
    SetterAll s (setCodingRate cr s) := by
  unfold setCodingRate
  rw [if_pos h]
  exact readModifyWrite_setter (by decide) _ s

theorem setPreamble_setter {n : BitVec 16} (h : preambleLengthOk n = true) (s : State) :
    SetterAll s (setPreamble n s) := by
  unfold setPreamble
  rw [if_pos h]
  exact (setByte_setter (by decide) _ s).andThen fun t => setByte_setter (by decide) _ t

theorem setFrequency_setter (f : BitVec 64) (s : State) : SetterAll s (setFrequency f s) :=
  (setByte_setter (by decide) _ s).andThen fun t => (setByte_setter (by decide) _ t).andThen fun t =>
    setByte_setter (by decide) _ t

/-- A valid record passes every setter's own check. -/
theorem validParams_iff (d : Decided) (p : RadioParameters) : d.validParams p = true ↔
    (d.bwCode p.bandwidthHz).isSome = true ∧ spreadingFactorOk p.spreadingFactor = true ∧
      codingRateOk p.codingRate = true ∧ preambleLengthOk p.preambleLength = true := by
  simp [Decided.validParams, and_assoc]

/-- The setters of INITIALIZE, after the STANDBY write. -/
theorem programSetters_setter {p : RadioParameters} {s : State} (h : s.cfg.validParams p = true) :
    SetterAll s
      ((setBandwidth p.bandwidthHz s).andThen fun _ s =>
      (setSpreadingFactor p.spreadingFactor s).andThen fun _ s =>
      (setCodingRate p.codingRate s).andThen fun _ s =>
      (setPreamble p.preambleLength s).andThen fun _ s =>
      (setFrequency p.frequencyHz s).andThen fun _ s =>
      (setLna s).andThen fun _ s => setTxPower s) := by
  obtain ⟨h1, h2, h3, h4⟩ := (validParams_iff _ p).mp h
  exact (setBandwidth_setter h1).andThen fun t => (setSpreadingFactor_setter h2 t).andThen fun t =>
    (setCodingRate_setter h3 t).andThen fun t => (setPreamble_setter h4 t).andThen fun t =>
    (setFrequency_setter _ t).andThen fun t => (setByte_setter (by decide) _ t).andThen fun t =>
    setByte_setter (by decide) _ t

theorem Res.andThen_assoc {α β γ : Type} (r : Res α) (f : α → State → Res β) (g : β → State → Res γ) :
    (r.andThen f).andThen g = r.andThen fun a s => (f a s).andThen g := by
  cases r <;> rfl

/-- The ten sub-operations of INITIALIZE that issue its sixteen transactions after the verified mode (R121). -/
def programOps (p : RadioParameters) (s : State) : Res Unit :=
  (setByte regFifoTxBase 0 s).andThen fun _ s =>
  (setByte regFifoRxBase 0 s).andThen fun _ s =>
  (setMode s.cfg.modeStandby s).andThen fun _ s =>
  (setBandwidth p.bandwidthHz s).andThen fun _ s =>
  (setSpreadingFactor p.spreadingFactor s).andThen fun _ s =>
  (setCodingRate p.codingRate s).andThen fun _ s =>
  (setPreamble p.preambleLength s).andThen fun _ s =>
  (setFrequency p.frequencyHz s).andThen fun _ s =>
  (setLna s).andThen fun _ s => setTxPower s

/-- The part of INITIALIZE after the verified mode registers the interrupt, programs the chip, and then sets `configured`. -/
theorem programChip_eq (p : RadioParameters) (s : State) :
    programChip p s = (programOps p { s with st := { s.st with irqRegistered := true } }).andThen
      fun _ s => .done () { s with st := { s.st with configured := true } } := by
  simp only [programOps, Res.andThen_assoc]; rfl

/-- The part of INITIALIZE after the verified mode: the interrupt is registered; when it is done the block is configured and
in STANDBY; a failure is IOError. -/
theorem programChip_spec {p : RadioParameters} {s : State} (h : s.cfg.validParams p = true) :
    (programChip p s).All
      (fun _ t => SubOp s t ∧ t.log = s.log ∧ t.clock = s.clock ∧ t.ticks = s.ticks ∧
        t.st = { s.st with irqRegistered := true, mode := some s.cfg.modeStandby, configured := true })
      (fun e t => e = .ioError ∧ SubOp s t ∧ t.log = s.log ∧ t.clock = s.clock ∧ t.ticks = s.ticks ∧
        t.st = { s.st with irqRegistered := true, mode := t.st.mode } ∧
        (t.st.mode = s.st.mode ∨ t.st.mode = some s.cfg.modeStandby)) := by
  obtain ⟨s', hs'⟩ : ∃ s', s' = { s with st := { s.st with irqRegistered := true } } := ⟨_, rfl⟩
  have h0 : SubOp s s' := hs' ▸ SubOp.of_st rfl
  have hst : s'.st = { s.st with irqRegistered := true } := by rw [hs']
  have hcfg : s'.cfg = s.cfg := by rw [hs']
  have hrest : s'.log = s.log ∧ s'.clock = s.clock ∧ s'.ticks = s.ticks := by rw [hs']; exact ⟨rfl, rfl, rfl⟩
  -- the chain of transactions as one sub-operation on the chip
  have chain : (programOps p s').All
      (fun _ t => ChipOp s' t ∧ t.st.mode = some s.cfg.modeStandby)
      (fun e t => e = .ioError ∧ ChipOp s' t ∧ (t.st.mode = s'.st.mode ∨ t.st.mode = some s.cfg.modeStandby)) := by
    refine Res.All.andThen (P := fun _ t => ChipOp s' t ∧ t.st = s'.st)
      ((setByte_spec (by decide) _ s').mono (fun _ _ h => h) fun _ _ h => ⟨h.1, h.2.1, .inl (by rw [h.2.2])⟩) ?_
    intro _ a ha
    refine Res.All.andThen (P := fun _ t => ChipOp s' t ∧ t.st = s'.st)
      ((setByte_spec (by decide) _ a).mono (fun _ _ h => ⟨ha.1.trans h.1, by rw [h.2, ha.2]⟩)
        fun _ _ h => ⟨h.1, ha.1.trans h.2.1, .inl (by rw [h.2.2, ha.2])⟩) ?_
    intro _ b hb
    refine Res.All.andThen (P := fun _ t => ChipOp s' t ∧ t.st.mode = some s.cfg.modeStandby)
      ((setMode_spec _ b).mono (fun _ _ h => ⟨hb.1.trans h.1, by rw [h.2, hb.1.cfg, hcfg]⟩)
        fun _ _ h => ⟨h.1, hb.1.trans h.2.1, .inl (by rw [h.2.2, hb.2])⟩) ?_
    intro _ c hc
    exact (programSetters_setter (s := c) (by rw [hc.1.cfg, hcfg]; exact h)).mono (fun _ _ h => ⟨hc.1.trans h.1, by rw [h.2, hc.2]⟩)
      fun _ _ h => ⟨h.1, hc.1.trans h.2.1, .inr (by rw [h.2.2, hc.2])⟩
  rw [programChip_eq, ← hs']
  refine Res.All.andThen (P := fun _ t => ChipOp s' t ∧ t.st.mode = some s.cfg.modeStandby) (chain.mono (fun _ _ h => h) ?_) ?_
  · rintro e t ⟨he, hc, hm⟩
    refine ⟨he, h0.trans hc.toSubOp, hc.sameLog.trans hrest.1, hc.sameClock.trans hrest.2.1, hc.sameTicks.trans hrest.2.2,
      ?_, ?_⟩
    · have := hc.st; rw [hst] at this; exact this
    · rw [hst] at hm; exact hm
  · rintro _ t ⟨hc, hm⟩
    refine ⟨h0.trans (hc.toSubOp.trans (SubOp.of_st rfl)), hc.sameLog.trans hrest.1, hc.sameClock.trans hrest.2.1,
      hc.sameTicks.trans hrest.2.2, ?_⟩
    have h1 := hc.st_of_mode hm
    rw [hst] at h1
    change { t.st with configured := true } = _
    rw [h1]

/-! ## The attempts -/

/-- What the attempts leave alone: of `st` they write the cached mode at most. -/
structure AttemptOp (s t : State) : Prop extends SubOp s t where
  st : t.st = { s.st with mode := t.st.mode }
  mode : t.st.mode = s.st.mode ∨ t.st.mode = some s.cfg.modeSleep
  sameClock : t.clock = s.clock
  sameTicks : t.ticks = s.ticks

theorem AttemptOp.refl (s : State) : AttemptOp s s := ⟨SubOp.refl s, rfl, .inl rfl, rfl, rfl⟩

theorem AttemptOp.trans {s t u : State} (h1 : AttemptOp s t) (h2 : AttemptOp t u) : AttemptOp s u :=
  ⟨h1.toSubOp.trans h2.toSubOp, by rw [h2.st, h1.st], by
    rcases h2.mode with h | h
    · rw [h]; exact h1.mode
    · exact .inr (by rw [h, h1.cfg]), h2.sameClock.trans h1.sameClock, h2.sameTicks.trans h1.sameTicks⟩

theorem attemptWrite_spec (s : State) : AttemptOp s (attemptWrite s) := by
  have h := setMode_spec s.cfg.modeSleep s
  unfold attemptWrite
  cases hr : setMode s.cfg.modeSleep s with
  | done u t =>
    rw [hr] at h
    exact ⟨h.1.toSubOp, h.1.st, .inr h.2, h.1.sameClock, h.1.sameTicks⟩
  | raised e t =>
    rw [hr] at h
    exact ⟨h.2.1.toSubOp.trans (SubOp.of_log t _), h.2.1.st, .inl h.2.2, h.2.1.sameClock, h.2.1.sameTicks⟩

theorem attemptRead_spec (s : State) : AttemptOp s (attemptRead s).2 ∧ (attemptRead s).2.st = s.st := by
  have h := getMode_spec s
  unfold attemptRead
  cases hr : getMode s with
  | done v t =>
    rw [hr] at h
    exact ⟨⟨h.1.toSubOp, h.1.st, .inl (by rw [h.2]), h.1.sameClock, h.1.sameTicks⟩, h.2⟩
  | raised e t =>
    rw [hr] at h
    exact ⟨⟨h.2.1.toSubOp.trans (SubOp.of_log t _), h.2.1.st, .inl (congrArg LinkState.mode h.2.2), h.2.1.sameClock,
      h.2.1.sameTicks⟩, h.2.2⟩

theorem verifySleep_spec (n : Nat) (s : State) : AttemptOp s (verifySleep n s).2 := by
  induction n generalizing s with
  | zero => exact AttemptOp.refl s
  | succ n ih =>
    have h := (attemptWrite_spec s).trans (attemptRead_spec (attemptWrite s)).1
    unfold verifySleep
    rcases hr : attemptRead (attemptWrite s) with ⟨b, t⟩
    rw [hr] at h
    cases b
    · exact h.trans (ih t)
    · exact h

/-- INITIALIZE of a valid record: OK leaves a configured block in STANDBY with the interrupt registered; otherwise the block is
not configured and the error is InitializationError or IOError. -/
theorem initializeChip_spec {p : RadioParameters} {s : State} (h : s.cfg.validParams p = true) :
    (initializeChip p s).All
      (fun _ t => SubOp s t ∧ t.clock = s.clock ∧ t.ticks = s.ticks ∧
        t.st = { s.st with irqRegistered := true, mode := some s.cfg.modeStandby, configured := true })
      (fun e t => (e = .ioError ∨ e = .initializationError) ∧ SubOp s t ∧ t.clock = s.clock ∧ t.ticks = s.ticks ∧
        t.st = { s.st with irqRegistered := t.st.irqRegistered, mode := t.st.mode, configured := false } ∧
        (s.st.irqRegistered = true → t.st.irqRegistered = true) ∧
        (t.st.mode = s.st.mode ∨ t.st.mode = some s.cfg.modeSleep ∨ t.st.mode = some s.cfg.modeStandby)) := by
  obtain ⟨s', hs'⟩ : ∃ s', s' = { s with st := { s.st with configured := false } } := ⟨_, rfl⟩
  have h0 : SubOp s s' := hs' ▸ SubOp.of_st rfl
  have hst : s'.st = { s.st with configured := false } := by rw [hs']
  have hck : s'.clock = s.clock := by rw [hs']
  have hcfg : s'.cfg = s.cfg := by rw [hs']
  have htcfg : (verifySleep initAttempts s').2.cfg = s.cfg := (verifySleep_spec initAttempts s').cfg.trans hcfg
  have htk : s'.ticks = s.ticks := by rw [hs']
  have ha := verifySleep_spec initAttempts s'
  have heq : initializeChip p s = match verifySleep initAttempts s' with
      | (true, s) => programChip p s
      | (false, s) => .raised .initializationError s := by
    rw [hs']; rfl
  rw [heq]
  rcases hr : verifySleep initAttempts s' with ⟨b, t⟩
  rw [hr] at ha htcfg
  change t.cfg = s.cfg at htcfg
  have hts := ha.st
  have htm := ha.mode
  rw [hst] at hts htm
  rw [hcfg] at htm
  dsimp only at hts htm
  cases b
  · refine ⟨.inr rfl, h0.trans ha.toSubOp, ha.sameClock.trans hck, ha.sameTicks.trans htk, ?_, ?_, ?_⟩
    · have : t.st.irqRegistered = s.st.irqRegistered := by rw [hts]
      rw [this]; exact hts
    · intro hi; rw [hts]; exact hi
    · rcases htm with h | h
      · exact .inl h
      · exact .inr (.inl h)
  · refine (programChip_spec (s := t) (by rw [htcfg]; exact h)).mono ?_ ?_
    · rintro _ u ⟨hu, -, hc, hk, hs⟩
      refine ⟨(h0.trans ha.toSubOp).trans hu, hc.trans (ha.sameClock.trans hck), hk.trans (ha.sameTicks.trans htk), ?_⟩
      rw [hs, hts, htcfg]
    · rintro e u ⟨he, hu, -, hc, hk, hs, hm⟩
      refine ⟨.inl he, (h0.trans ha.toSubOp).trans hu, hc.trans (ha.sameClock.trans hck),
        hk.trans (ha.sameTicks.trans htk), ?_, ?_, ?_⟩
      · have : u.st.irqRegistered = true := by rw [hs]
        rw [this]; rw [hts] at hs; exact hs
      · intro _; rw [hs]
      · rcases hm with h | h
        · rw [h]; rcases htm with h' | h'
          · exact .inl h'
          · exact .inr (.inl h')
        · exact .inr (.inr (by rw [h, htcfg]))

/-! ## INITIALIZE on a script of the chip's answers -/

theorem spreadingFactorOk_of {sf : Byte} (h1 : 7 ≤ sf.toNat) (h2 : sf.toNat ≤ 12) : spreadingFactorOk sf = true := by
  simp [spreadingFactorOk]; omega

theorem codingRateOk_of {cr : Byte} (h1 : 5 ≤ cr.toNat) (h2 : cr.toNat ≤ 8) : codingRateOk cr = true := by
  simp [codingRateOk]; omega

theorem preambleLengthOk_of {n : BitVec 16} (h : 6 ≤ n.toNat) : preambleLengthOk n = true := by
  simp [preambleLengthOk]; omega

theorem frequencyEncodable_of {f : BitVec 64} (h : f.toNat ≤ 1023999969) : frequencyEncodable f = true := by
  unfold frequencyEncodable frf; rw [decide_eq_true_iff]; omega

/-- The write of an attempt, by the chip's answer (R121). -/
theorem attemptWrite_of_chip {s : State} {a : ChipAnswer} {rest : List ChipAnswer}
    (hd : s.decidedDefaults) (hc : s.chip = a :: rest) :
    (attemptWrite s).st = { s.st with mode := if a = .fails then s.st.mode else some 0x80 } ∧
      (attemptWrite s).trace = s.trace ++ ([.setByte 0x01 0x80 (decide (a ≠ .fails))] : List BusTxn) ∧
      (attemptWrite s).log = s.log ++ (if a = .fails then [.initWriteFailed] else []) ∧ (attemptWrite s).chip = rest ∧
      (attemptWrite s).clock = s.clock ∧ (attemptWrite s).ticks = s.ticks ∧ (attemptWrite s).responses = s.responses ∧
      s.sameHosts (attemptWrite s) := by
  obtain ⟨st, syncs, nid, port, resp, tr, log, chip, ticks, clock, turns, draws, ⟨dec, pl, lna, pa, polls, depth, cap⟩⟩ := s
  obtain rfl : dec = _ := hd
  simp only at hc; subst hc
  cases a with
  | fails =>
    refine ⟨rfl, ?_, rfl, rfl, rfl, rfl, rfl, rfl, rfl, rfl, rfl, rfl⟩
    simp only [attemptWrite, setMode, setByte, nextAnswer, Res.andThen, State.record, State.useAnswer, State.logEvent]; rfl
  | gives d =>
    refine ⟨?_, ?_, (List.append_nil _).symm, rfl, rfl, rfl, rfl, rfl, rfl, rfl, rfl, rfl⟩ <;>
      simp only [attemptWrite, setMode, setByte, nextAnswer, Res.andThen, State.record, State.useAnswer] <;> rfl

/-- The read-back of an attempt, by the chip's answer (R121). -/
theorem attemptRead_of_chip {s : State} {a : ChipAnswer} {rest : List ChipAnswer}
    (hd : s.decidedDefaults) (hc : s.chip = a :: rest) (ha : a = .fails ∨ ∃ b d, a = .gives (b :: d)) :
    ∃ v t, attemptRead s = (v, t) ∧ (v = true ↔ ∃ b d, a = .gives (b :: d) ∧ b &&& 0x87 = 0x80) ∧ t.st = s.st ∧
      t.trace = s.trace ++ ([.getByte 0x01 a.byte?] : List BusTxn) ∧
      t.log = s.log ++ (if a = .fails then [.initReadFailed] else []) ∧ t.chip = rest ∧
      t.clock = s.clock ∧ t.ticks = s.ticks ∧ t.responses = s.responses ∧ s.sameHosts t := by
  obtain ⟨st, syncs, nid, port, resp, tr, log, chip, ticks, clock, turns, draws, ⟨dec, pl, lna, pa, polls, depth, cap⟩⟩ := s
  obtain rfl : dec = _ := hd
  simp only at hc; subst hc
  rcases ha with rfl | ⟨b, d, rfl⟩
  · refine ⟨_, _, rfl, ⟨fun h => (by cases h), ?_⟩, rfl, rfl, rfl, rfl, rfl, rfl, rfl, rfl, rfl, rfl, rfl, rfl⟩
    rintro ⟨b, d, h, -⟩; cases h
  · refine ⟨_, _, rfl, ⟨fun h => ⟨b, d, rfl, ?_⟩, ?_⟩, rfl, rfl, (List.append_nil _).symm, rfl, rfl, rfl, rfl, rfl, rfl,
      rfl, rfl, rfl⟩
    · simpa [maskMode_eq, modeSleep_eq, answerByte] using h
    · rintro ⟨b', d', h, h'⟩; cases h; simpa [maskMode_eq, modeSleep_eq, answerByte] using h'

/-- An attempt of INITIALIZE, by the chip's two answers (R121). -/
theorem attempt_of_chip {s : State} {a : ChipAnswer × ChipAnswer} {rest : List ChipAnswer}
    (hd : s.decidedDefaults) (hc : s.chip = a.1 :: a.2 :: rest) (ha : a.2 = .fails ∨ ∃ b d, a.2 = .gives (b :: d)) :
    ∃ v t, attemptRead (attemptWrite s) = (v, t) ∧ (v = true ↔ ∃ b d, a.2 = .gives (b :: d) ∧ b &&& 0x87 = 0x80) ∧
      t.st = { s.st with mode := if a.1 = .fails then s.st.mode else some 0x80 } ∧
      t.trace = s.trace ++ attemptTxns a ∧ t.log = s.log ++ attemptLog a ∧ t.chip = rest ∧ t.clock = s.clock ∧ t.ticks = s.ticks ∧
      t.responses = s.responses ∧ s.sameHosts t := by
  obtain ⟨w1, w2, w3, w4, w5, w6, w7, w8⟩ := attemptWrite_of_chip hd hc
  obtain ⟨v, t, h1, h2, h3, h4, h5, h6, h7, h8, h9, h10⟩ := attemptRead_of_chip (by rw [State.decidedDefaults, w8.2.2.2.2]; exact hd) w4 ha
  exact ⟨v, t, h1, h2, h3.trans w1, by rw [h4, w2, List.append_assoc]; rfl, by rw [h5, w3, List.append_assoc]; rfl, h6,
    h7.trans w5, h8.trans w6, h9.trans w7, w8.trans h10⟩

/-- What attempts of INITIALIZE leave (R121). -/
structure Attempted (s t : State) (attempts : List (ChipAnswer × ChipAnswer)) (rest : List ChipAnswer) : Prop where
  chip : t.chip = rest
  trace : t.trace = s.trace ++ attempts.flatMap attemptTxns
  log : t.log = s.log ++ attempts.flatMap attemptLog
  st : t.st = { s.st with mode := if attempts.any (fun a => a.1 != .fails) then some 0x80 else s.st.mode }
  clock : t.clock = s.clock
  ticks : t.ticks = s.ticks
  responses : t.responses = s.responses
  hosts : s.sameHosts t

theorem Attempted.refl (s : State) : Attempted s s [] s.chip :=
  ⟨rfl, (List.append_nil _).symm, (List.append_nil _).symm, rfl, rfl, rfl, rfl, rfl, rfl, rfl, rfl, rfl⟩

theorem Attempted.trans {s t u : State} {a b : List (ChipAnswer × ChipAnswer)} {x y : List ChipAnswer} (h : Attempted s t a x)
    (g : Attempted t u b y) : Attempted s u (a ++ b) y := by
  refine ⟨g.chip, ?_, ?_, ?_, g.clock.trans h.clock, g.ticks.trans h.ticks, g.responses.trans h.responses, h.hosts.trans g.hosts⟩
  · rw [g.trace, h.trace, List.flatMap_append, List.append_assoc]
  · rw [g.log, h.log, List.flatMap_append, List.append_assoc]
  · rw [g.st, h.st, List.any_append]
    cases b.any (fun a => a.1 != .fails)
    · rw [Bool.or_false]; rfl
    · rw [Bool.or_true]; rfl

/-- One attempt. -/
theorem Attempted.one {s : State} {a : ChipAnswer × ChipAnswer} {rest : List ChipAnswer}
    (hd : s.decidedDefaults) (hc : s.chip = a.1 :: a.2 :: rest) (ha : a.2 = .fails ∨ ∃ b d, a.2 = .gives (b :: d)) :
    ∃ v t, attemptRead (attemptWrite s) = (v, t) ∧ (v = true ↔ ∃ b d, a.2 = .gives (b :: d) ∧ b &&& 0x87 = 0x80) ∧
      Attempted s t [a] rest := by
  obtain ⟨v, t, h1, h2, h3, h4, h5, h6, h7, h8, h9, h10⟩ := attempt_of_chip hd hc ha
  refine ⟨v, t, h1, h2, h6, by simpa using h4, by simpa using h5, ?_, h7, h8, h9, h10⟩
  rw [h3]
  by_cases hf : a.1 = .fails <;> simp [hf]

/-- The retry loop goes past attempts that do not verify (R121). -/
theorem verifySleep_skips {bad : List (ChipAnswer × ChipAnswer)} {rest : List ChipAnswer} (n : Nat) {s : State}
    (hd : s.decidedDefaults) (hc : s.chip = bad.flatMap (fun a => [a.1, a.2]) ++ rest)
    (hbad : ∀ a ∈ bad, a.2 = .fails ∨ ∃ b d, a.2 = .gives (b :: d) ∧ b &&& 0x87 ≠ 0x80) :
    ∃ t, verifySleep (bad.length + n) s = verifySleep n t ∧ Attempted s t bad rest := by
  induction bad generalizing s with
  | nil =>
    obtain rfl : s.chip = rest := by simpa using hc
    exact ⟨s, by simp, .refl s⟩
  | cons x bad ih =>
    have hx := hbad x (by simp)
    obtain ⟨v, t, h1, h2, ht⟩ := Attempted.one (a := x) (rest := bad.flatMap (fun a => [a.1, a.2]) ++ rest) hd (by simpa using hc)
      (hx.imp_right fun ⟨b, d, h, _⟩ => ⟨b, d, h⟩)
    obtain rfl : v = false := by
      rw [Bool.eq_false_iff, Ne, h2]
      rintro ⟨b, d, h, h'⟩
      rcases hx with hx | ⟨b', d', hx, hx'⟩ <;> rw [h] at hx <;> cases hx
      exact hx' h'
    obtain ⟨u, hu, hu'⟩ := ih (by rw [State.decidedDefaults, ht.hosts.2.2.2.2]; exact hd) ht.chip fun a ha => hbad a (by simp [ha])
    refine ⟨u, ?_, ht.trans hu'⟩
    rw [List.length_cons, Nat.add_right_comm, verifySleep, h1]
    exact hu

/-- The retry loop of INITIALIZE: attempts that do not verify, then one that does (R121). -/
theorem verifySleep_of_chip {bad : List (ChipAnswer × ChipAnswer)} {a : ChipAnswer × ChipAnswer} {rest : List ChipAnswer}
    {n : Nat} {s : State} (hd : s.decidedDefaults) (hn : bad.length < n)
    (hc : s.chip = (bad ++ [a]).flatMap (fun a => [a.1, a.2]) ++ rest)
    (hbad : ∀ a ∈ bad, a.2 = .fails ∨ ∃ b d, a.2 = .gives (b :: d) ∧ b &&& 0x87 ≠ 0x80)
    (ha : ∃ b d, a.2 = .gives (b :: d) ∧ b &&& 0x87 = 0x80) :
    ∃ t, verifySleep n s = (true, t) ∧ Attempted s t (bad ++ [a]) rest := by
  obtain ⟨m, rfl⟩ : ∃ m, n = bad.length + (m + 1) := ⟨n - bad.length - 1, by omega⟩
  obtain ⟨t, ht, ht'⟩ := verifySleep_skips (m + 1) (rest := a.1 :: a.2 :: rest) hd (by simpa using hc) hbad
  obtain ⟨v, u, h1, h2, hu⟩ := Attempted.one (by rw [State.decidedDefaults, ht'.hosts.2.2.2.2]; exact hd) ht'.chip
    (.inr (ha.imp fun _ h => h.imp fun _ h => h.1))
  obtain rfl : v = true := h2.mpr ha
  exact ⟨u, by rw [ht, verifySleep, h1], ht'.trans hu⟩

theorem byteOf_zero (v : Nat) : byteOf v 0 = BitVec.ofNat 8 v := rfl
theorem byteOf_one (v : Nat) : byteOf v 1 = BitVec.ofNat 8 (v / 256) := by
  simp [byteOf, Nat.shiftRight_eq_div_pow]
theorem byteOf_two (v : Nat) : byteOf v 2 = BitVec.ofNat 8 (v / 65536) := by
  simp [byteOf, Nat.shiftRight_eq_div_pow]

/-- The code of a member of the table, as a byte (R77). -/
theorem bwCode_of_mem {bw : BitVec 32} {code : Byte}
    (h : (bw.toNat, code) ∈ [(7800, (0x00 : Byte)), (10400, 0x01), (15600, 0x02), (20800, 0x03), (31250, 0x04), (41700, 0x05),
      (62500, 0x06), (125000, 0x07), (250000, 0x08), (500000, 0x09)]) :
    ∃ c, Decided.standard.bwCode bw = some c ∧ c.setWidth 8 = code := by
  simp only [List.mem_cons, Prod.mk.injEq, List.not_mem_nil, or_false] at h
  have key : ∀ n : Nat, bw.toNat = n → bw = BitVec.ofNat 32 n := fun n h => by rw [← h]; simp
  rcases h with ⟨h, rfl⟩ | ⟨h, rfl⟩ | ⟨h, rfl⟩ | ⟨h, rfl⟩ | ⟨h, rfl⟩ | ⟨h, rfl⟩ | ⟨h, rfl⟩ | ⟨h, rfl⟩ | ⟨h, rfl⟩ | ⟨h, rfl⟩ <;>
    rw [key _ h] <;> exact ⟨_, rfl, by decide⟩

/-- The sixteen transactions of INITIALIZE after the verified mode (R114 to R121). -/
theorem programOps_follows {p : RadioParameters} {s : State} {code : Byte} (v1 v2 v3 : Byte) (d : Nat → List Byte)
    (hd : s.decidedDefaults) (hbw : ∃ c, Decided.standard.bwCode p.bandwidthHz = some c ∧ c.setWidth 8 = code)
    (hsf : spreadingFactorOk p.spreadingFactor = true) (hcr : codingRateOk p.codingRate = true)
    (hpre : preambleLengthOk p.preambleLength = true) :
    Follows (programmingSteps p s.cfg code v1 v2 v3 d) (fun _ => True) s (programOps p s) := by
  obtain ⟨c, hcode, rfl⟩ := hbw
  unfold programOps
  refine Follows.andThen (a := [_]) (Follows.setByte (by decide) (d 0) _ _) fun _ s1 _ e1 => ?_
  refine Follows.andThen (a := [_]) (Follows.setByte (by decide) (d 1) _ _) fun _ s2 _ e2 => ?_
  rw [e2, e1, hd]
  refine Follows.andThen (a := [_]) (Follows.setMode (d 2) _ _) fun _ s3 _ e3 => ?_
  have c3 : s3.cfg = s.cfg := by rw [e3, e2, e1]
  unfold setBandwidth
  rw [c3, hd, hcode]
  refine Follows.andThen (a := [_, _]) (Follows.modify (by decide) (fun v => withBwCode v c) v1 (d 3) _) fun _ s4 _ e4 => ?_
  unfold setSpreadingFactor
  rw [if_pos hsf]
  refine Follows.andThen (a := [_, _]) (Follows.modify (by decide) (fun v => withSpreadingFactor v p.spreadingFactor) v2 (d 4) _) fun _ s5 _ e5 => ?_
  unfold setCodingRate
  rw [if_pos hcr]
  refine Follows.andThen (a := [_, _]) (Follows.modify (by decide) (fun v => withCodingRate v p.codingRate) v3 (d 5) _) fun _ s6 _ e6 => ?_
  unfold setPreamble
  rw [if_pos hpre]
  simp only [byteOf_zero, byteOf_one]
  refine Follows.andThen (a := [_, _]) (Follows.andThen (a := [_]) (Follows.setByte (by decide) (d 6) _ _) fun _ t _ _ =>
    Follows.setByte (by decide) (d 7) _ _) fun _ s7 _ e7 => ?_
  unfold setFrequency
  simp only [byteOf_zero, byteOf_one, byteOf_two]
  refine Follows.andThen (a := [_, _, _]) (Follows.andThen (a := [_]) (Follows.setByte (by decide) (d 8) _ _) fun _ t _ _ =>
    Follows.andThen (a := [_]) (Follows.setByte (by decide) (d 9) _ _) fun _ t _ _ =>
    Follows.setByte (by decide) (d 10) _ _) fun _ s8 _ e8 => ?_
  have c8 : s8.cfg = s.cfg := by rw [e8, e7, e6, e5, e4, c3]
  unfold setLna
  rw [c8]
  refine Follows.andThen (a := [_]) (Follows.setByte (by decide) (d 11) _ _) fun _ s9 _ e9 => ?_
  unfold setTxPower
  rw [e9, c8]
  exact Follows.setByte (by decide) (d 12) _ _

/-- What INITIALIZE leaves once an attempt has verified: `attempts`, then the transactions `new` (R121). -/
structure Initialized (s t : State) (attempts : List (ChipAnswer × ChipAnswer)) (new : List BusTxn) (configured : Bool)
    (rest : List ChipAnswer) : Prop where
  chip : t.chip = rest
  trace : t.trace = s.trace ++ attempts.flatMap attemptTxns ++ new
  log : t.log = s.log ++ attempts.flatMap attemptLog
  st : t.st = { s.st with
    irqRegistered := true, configured := configured,
    mode := lastModeWrite (if attempts.any (fun a => a.1 != .fails) then some 0x80 else s.st.mode) new }
  responses : t.responses = s.responses
  clock : t.clock = s.clock
  hosts : s.sameHosts t

/-- INITIALIZE when an attempt verifies (R121): every later transaction accepted, or one of them failing. -/
theorem initializeChip_follows {p : RadioParameters} {s : State} {code v1 v2 v3 : Byte} {d : Nat → List Byte}
    {bad : List (ChipAnswer × ChipAnswer)} {a : ChipAnswer × ChipAnswer}
    (hd : s.decidedDefaults) (hbw : ∃ c, Decided.standard.bwCode p.bandwidthHz = some c ∧ c.setWidth 8 = code)
    (hsf : spreadingFactorOk p.spreadingFactor = true)
    (hcr : codingRateOk p.codingRate = true) (hpre : preambleLengthOk p.preambleLength = true) (hn : bad.length ≤ 9)
    (hbad : ∀ a ∈ bad, a.2 = .fails ∨ ∃ b d, a.2 = .gives (b :: d) ∧ b &&& 0x87 ≠ 0x80)
    (ha : ∃ b d, a.2 = .gives (b :: d) ∧ b &&& 0x87 = 0x80) :
    let attempts := bad ++ [a]
    let steps := programmingSteps p s.cfg code v1 v2 v3 d
    (∀ rest, s.chip = attempts.flatMap (fun a => [a.1, a.2]) ++ (answersTo steps steps.length ++ rest) →
      ∃ t, initializeChip p s = .done () t ∧ Initialized s t attempts (succeeding steps) true rest) ∧
    (∀ k < steps.length, ∀ rest, s.chip = attempts.flatMap (fun a => [a.1, a.2]) ++ (answersTo steps k ++ .fails :: rest) →
      ∃ t, initializeChip p s = .raised .ioError t ∧ Initialized s t attempts (failingAt steps k) false rest) := by
  intro attempts steps
  have verified : ∀ rest, s.chip = attempts.flatMap (fun a => [a.1, a.2]) ++ rest →
      ∃ t, initializeChip p s = programChip p t ∧ Attempted { s with st := { s.st with configured := false } } t attempts rest := by
    intro rest hc
    obtain ⟨t, ht, ht'⟩ := verifySleep_of_chip (n := 10) (s := { s with st := { s.st with configured := false } }) hd (by omega)
      hc hbad ha
    exact ⟨t, by unfold initializeChip; rw [show initAttempts = 10 from rfl, ht], ht'⟩
  have prog : ∀ rest t, Attempted { s with st := { s.st with configured := false } } t attempts rest →
      Follows steps (fun _ => True) { t with st := { t.st with irqRegistered := true } }
        (programOps p { t with st := { t.st with irqRegistered := true } }) := by
    intro rest t ht
    have hcfg : t.cfg = s.cfg := ht.hosts.2.2.2.2
    have := programOps_follows (s := { t with st := { t.st with irqRegistered := true } }) v1 v2 v3 d
      (by rw [State.decidedDefaults, hcfg]; exact hd) hbw hsf hcr hpre
    rwa [show programmingSteps p _ code v1 v2 v3 d = steps by rw [hcfg]] at this
  refine ⟨fun rest hc => ?_, fun k hk rest hc => ?_⟩
  · obtain ⟨t, ht, ht'⟩ := verified _ hc
    obtain ⟨_, u, hu, -, hu'⟩ := (prog _ t ht').succeeds rest ht'.chip
    refine ⟨{ u with st := { u.st with configured := true } }, ?_, hu'.chip, ?_, ?_, ?_, ?_, ?_, ?_⟩
    · rw [ht, programChip_eq, hu]; rfl
    · exact hu'.trace.trans (by rw [ht'.trace])
    · exact hu'.log.trans ht'.log
    · dsimp only; rw [hu'.st, ht'.st]
    · exact hu'.responses.trans ht'.responses
    · exact hu'.clock.trans ht'.clock
    · exact ht'.hosts.trans hu'.hosts
  · obtain ⟨t, ht, ht'⟩ := verified _ hc
    obtain ⟨u, hu, hu'⟩ := (prog _ t ht').fails k hk rest ht'.chip
    refine ⟨u, ?_, hu'.chip, ?_, ?_, ?_, ?_, ?_, ?_⟩
    · rw [ht, programChip_eq, hu]; rfl
    · exact hu'.trace.trans (by rw [ht'.trace])
    · exact hu'.log.trans ht'.log
    · rw [hu'.st, ht'.st]
    · exact hu'.responses.trans ht'.responses
    · exact hu'.clock.trans ht'.clock
    · exact ht'.hosts.trans hu'.hosts

/-- INITIALIZE when none of the ten attempts verifies (R121, R224). -/
theorem initializeChip_exhausted {p : RadioParameters} {s : State} {bad : List (ChipAnswer × ChipAnswer)} {rest : List ChipAnswer}
    (hd : s.decidedDefaults) (hn : bad.length = 10) (hc : s.chip = bad.flatMap (fun a => [a.1, a.2]) ++ rest)
    (hbad : ∀ a ∈ bad, a.2 = .fails ∨ ∃ b d, a.2 = .gives (b :: d) ∧ b &&& 0x87 ≠ 0x80) :
    ∃ t, initializeChip p s = .raised .initializationError t ∧
      Attempted { s with st := { s.st with configured := false } } t bad rest := by
  obtain ⟨t, ht, ht'⟩ := verifySleep_skips 0 (s := { s with st := { s.st with configured := false } }) hd hc hbad
  refine ⟨t, ?_, ht'⟩
  unfold initializeChip
  rw [show initAttempts = bad.length + 0 from hn.symm, ht]; rfl

end Sys2Proof.Machine
end

