-- ==== Sys2Proof/Laws/LinkArbiter.lean ====
section
/-! SUPPORT. What the parts of the arbiter's event steps and of a SEND_SYNC agent's steps can do (41_link_arbiter.md), said once. -/

namespace Sys2Proof.Machine

/-! ## The interrupt handler -/

/-- The last transaction of EV_IRQ: the flags are written; a failure is logged; nothing else changes. -/
theorem clearIrqFlags_spec (s : State) : ∃ ok,
    (clearIrqFlags s).trace = s.trace ++ ([.setByte regIrqFlags irqClearAll ok] : List BusTxn) ∧
    (clearIrqFlags s).log = s.log ++ (if ok then [] else ([.irqIoError] : List LogEvent)) ∧
    (clearIrqFlags s).st = s.st ∧ (clearIrqFlags s).clock = s.clock ∧ (clearIrqFlags s).chip = s.chip.tail ∧
    (ok = false ↔ nextAnswer s = .fails) ∧ SubOp s (clearIrqFlags s) := by
  unfold clearIrqFlags setByte
  cases h : nextAnswer s with
  | fails =>
    refine ⟨false, rfl, rfl, rfl, rfl, rfl, by simp, ?_⟩
    exact (SubOp.of_record 0 _ rfl).trans (SubOp.of_log _ _)
  | gives d => exact ⟨true, rfl, by simp, rfl, rfl, rfl, by simp, SubOp.of_record 0 _ rfl⟩

/-- The read of the flags changes nothing of `st`; without flags its failure is logged. -/
theorem readIrqFlags_spec (s : State) :
    (readIrqFlags s).2.st = s.st ∧ (readIrqFlags s).2.clock = s.clock ∧ SubOp s (readIrqFlags s).2 ∧
    (readIrqFlags s).2.trace = s.trace ++ ([.getByte regIrqFlags (readIrqFlags s).1] : List BusTxn) ∧
    (readIrqFlags s).2.log = s.log ++ (if (readIrqFlags s).1 = none then ([.irqIoError] : List LogEvent) else []) := by
  unfold readIrqFlags getByte
  cases nextAnswer s with
  | fails => exact ⟨rfl, rfl, (SubOp.of_record 1 _ rfl).trans (SubOp.of_log _ _), rfl, rfl⟩
  | gives d => exact ⟨rfl, rfl, SubOp.of_record 1 _ rfl, rfl, by simp⟩

/-- The flags the chip answers. -/
theorem readIrqFlags_of_gives {s : State} {f : Byte} {d : List Byte} {rest : List ChipAnswer}
    (h : s.chip = .gives (f :: d) :: rest) :
    readIrqFlags s = (some f, (s.useAnswer 1).record (.getByte regIrqFlags (some f))) := by
  simp [readIrqFlags, getByte_of_gives regIrqFlags h]

/-- The transactions of RX_PACKET: they change nothing of `st`; a payload has at most 255 bytes. -/
theorem readPacket_spec (s : State) :
    (readPacket s).All (fun r t => r.1.length ≤ 255 ∧ ChipOp s t ∧ t.st = s.st)
      (fun e t => e = .ioError ∧ ChipOp s t ∧ t.st = s.st) := by
  have keep : ∀ {α : Type} (a : State) (P : α → State → Prop) (r : Res α), ChipOp s a ∧ a.st = s.st →
      r.All (fun x t => P x t ∧ ChipOp a t ∧ t.st = a.st) (fun e t => e = .ioError ∧ ChipOp a t ∧ t.st = a.st) →
      r.All (fun x t => P x t ∧ ChipOp s t ∧ t.st = s.st) (fun e t => e = .ioError ∧ ChipOp s t ∧ t.st = s.st) := by
    intro α a P r ha hr
    exact hr.mono (fun _ _ h => ⟨h.1, ha.1.trans h.2.1, by rw [h.2.2, ha.2]⟩)
      fun _ _ h => ⟨h.1, ha.1.trans h.2.1, by rw [h.2.2, ha.2]⟩
  have get : ∀ (reg : RegAddr) (a : State), ChipOp s a ∧ a.st = s.st →
      (getByte reg a).All (fun _ t => True ∧ ChipOp s t ∧ t.st = s.st) (fun e t => e = .ioError ∧ ChipOp s t ∧ t.st = s.st) :=
    fun reg a ha => keep a (fun _ _ => True) _ ha ((getByte_spec reg a).mono (fun _ _ h => ⟨trivial, h⟩) fun _ _ h => h)
  refine Res.All.andThen (get _ s ⟨ChipOp.refl s, rfl⟩) ?_
  intro n a ha
  refine Res.All.andThen (get _ a ha.2) ?_
  intro off b hb
  refine Res.All.andThen (keep b (fun _ _ => True) _ hb.2
    ((setByte_spec (by decide) off b).mono (fun _ _ h => ⟨trivial, h⟩) fun _ _ h => h)) ?_
  intro _ c hc
  refine Res.All.andThen (P := fun pay t => pay.length ≤ 255 ∧ ChipOp s t ∧ t.st = s.st) ?_ ?_
  · split
    · exact ⟨by simp, hc.2⟩
    · refine keep c (fun pay _ => pay.length ≤ 255) _ hc.2 ((getBytes_spec _ n.toNat c).mono (fun bs _ h => ⟨?_, h.2⟩) fun _ _ h => h)
      have := n.isLt
      have := h.1
      omega
  · intro pay d hd
    refine Res.All.andThen (get _ d hd.2) ?_
    intro snr e he
    refine Res.All.andThen (get _ e he.2) ?_
    intro rssi f hf
    exact ⟨hd.1, hf.2⟩

/-- RX_PACKET: a failed transaction is logged and nothing appended; otherwise one message is appended, stamped with the time
and the parameters. -/
theorem rxPacket_spec {s t : State} (h : rxPacket s = .next t) :
    SubOp s t ∧
      ((t.st = s.st ∧ t.log = s.log ++ ([.irqIoError] : List LogEvent) ∧ t.clock = s.clock) ∨
        (∃ m : ReceivedMessage, t.st = { s.st with rxbuf := s.st.rxbuf ++ [m] } ∧ m.payload.length ≤ 255 ∧
          m.timestamp = t.clock ∧ s.st.params = some m.params ∧ t.log = s.log ∧
          ∀ c, s.cfg.rxbufCap = some c → s.st.rxbuf.length < c)) := by
  have hr := readPacket_spec s
  unfold rxPacket at h
  cases hp : readPacket s with
  | raised e a =>
    rw [hp] at hr h
    obtain ⟨-, hc, hs⟩ := hr
    cases h
    exact ⟨hc.toSubOp.trans (SubOp.of_log _ _), .inl ⟨hs, by simp [hc.sameLog], hc.sameClock⟩⟩
  | done r a =>
    obtain ⟨pay, snr, rssi⟩ := r
    rw [hp] at hr h
    obtain ⟨hl, hc, hs⟩ := hr
    dsimp only at h
    cases hpar : a.st.params with
    | none => rw [hpar] at h; cases h
    | some p =>
      rw [hpar] at h
      dsimp only at h
      split at h
      · cases h
      · rename_i hcap
        cases h
        refine ⟨hc.toSubOp.trans ((SubOp.of_sampleTime a).trans (SubOp.of_st rfl)),
          .inr ⟨⟨pay, rssi, snr, nextTime a, p⟩, ?_, hl, rfl, ?_, ?_, ?_⟩⟩
        · dsimp only; rw [← hpar, hs]
        · rw [← hs, hpar]
        · simp [hc.sameLog]
        · intro c hcc
          rw [hc.cfg, hs] at hcap
          simpa [capReached, hcc] using hcap

/-- What follows a transmit-complete: the next message is begun (or its start fails), or the radio goes back to receive (or
stays where it is). -/
theorem afterTx_spec (s : State) : SubOp s (afterTx s) ∧
    ((∃ msg more, s.st.backlog = msg :: more ∧
      (((afterTx s).st = { s.st with backlog := more, txLock := .arb, mode := some s.cfg.modeTx,
                                      txStart := some (afterTx s).clock } ∧ (afterTx s).log = s.log) ∨
        ((afterTx s).st = { s.st with backlog := more, txLock := .free, mode := (afterTx s).st.mode } ∧
          ((afterTx s).st.mode = s.st.mode ∨ (afterTx s).st.mode = some s.cfg.modeStandby) ∧
          (afterTx s).log = s.log ++ ([.txStartFailed] : List LogEvent) ∧ (afterTx s).clock = s.clock))) ∨
     (s.st.backlog = [] ∧ (afterTx s).clock = s.clock ∧
      (((afterTx s).st = { s.st with mode := some s.cfg.modeRxContinuous } ∧ (afterTx s).log = s.log) ∨
        ((afterTx s).st = s.st ∧ (afterTx s).log = s.log ++ ([.irqIoError] : List LogEvent))))) := by
  unfold afterTx
  cases hb : s.st.backlog with
  | cons msg more =>
    simp only [List.isEmpty_cons, Bool.false_eq_true, if_false]
    obtain ⟨h1, h2⟩ := startNext_cons hb
    exact ⟨h1, .inl ⟨msg, more, rfl, h2⟩⟩
  | nil =>
    simp only [List.isEmpty_nil, if_true]
    have h := enterRx_spec s
    cases hr : enterRx s with
    | done u t =>
      rw [hr] at h
      exact ⟨h.1.toSubOp, .inr ⟨trivial, h.1.sameClock, .inl ⟨h.1.st_of_mode h.2, h.1.sameLog⟩⟩⟩
    | raised e t =>
      rw [hr] at h
      exact ⟨h.2.1.toSubOp.trans (SubOp.of_log _ _), .inr ⟨trivial, h.2.1.sameClock,
        .inr ⟨(h.2.1.st_of_mode h.2.2).trans rfl, by simp [h.2.1.sameLog]⟩⟩⟩

/-- The TX branch with the transmit-complete flag: what `afterTx` does, after the elapsed time is recorded, logged, and the
lock is freed. -/
theorem txBranch_done {flags : Byte} {s : State} {t0 : Nat} (hf : flagSet flags s.cfg.irqTxDone = true)
    (h0 : s.st.txStart = some t0) :
    ∃ s', txBranch flags s = .next (afterTx s') ∧ SubOp s s' ∧ s'.clock = nextTime s ∧
      s'.st = { s.st with lastTxElapsed := some (nextTime s - t0), txLock := .free } ∧
      s'.log = s.log ++ ([.txElapsed (nextTime s - t0)] : List LogEvent) ∧ s'.chip = s.chip ∧ s'.trace = s.trace := by
  refine ⟨({ s.sampleTime with st := { s.st with
    lastTxElapsed := some (nextTime s - t0), txLock := .free } } : State).logEvent (.txElapsed (nextTime s - t0)),
    ?_, ?_, rfl, rfl, rfl, rfl, rfl⟩
  · unfold txBranch; rw [if_pos hf, h0]
  · exact (SubOp.of_sampleTime s).trans ((SubOp.of_st (s := s.sampleTime)
      (st := { s.st with lastTxElapsed := some (nextTime s - t0), txLock := .free }) rfl).trans (SubOp.of_log _ _))

/-- The TX branch without the flag does nothing. -/
theorem txBranch_idle {flags : Byte} (s : State) (hf : flagSet flags s.cfg.irqTxDone = false) : txBranch flags s = .next s := by
  simp [txBranch, hf]

/-! ## SEND_SYNC -/

/-- The begin step: either the agent polls, under its own lock, with TX cached and the start time set, or the lock is free, the
agent is gone and its caller has IOError. -/
theorem syncBegin_spec {id : Nat} {msg : List Byte} {s t : State} (h : syncBegin id msg s = .next t) :
    (t.st = { s.st with txLock := .sync id, mode := some s.cfg.modeTx, txStart := some t.clock } ∧ t.log = s.log ∧
      s.clock ≤ t.clock ∧ t.responses = s.responses ∧ t.nextSyncId = s.nextSyncId ∧ t.port = s.port ∧ t.turns = s.turns ∧
      t.cfg = s.cfg ∧ (∃ new, t.trace = s.trace ++ new ∧ t.st.mode = lastModeWrite s.st.mode new) ∧
      t.syncs = s.syncs.map fun a => if a.id = id then { a with phase := .polling 0 } else a) ∨
    (t.st = { s.st with txLock := .free, mode := t.st.mode } ∧ (t.st.mode = s.st.mode ∨ t.st.mode = some s.cfg.modeStandby) ∧
      t.log = s.log ∧ t.clock = s.clock ∧ t.responses = s.responses ++ ([⟨some id, .ioError, .none⟩] : List Response) ∧
      t.nextSyncId = s.nextSyncId ∧ t.port = s.port ∧ t.turns = s.turns ∧ t.cfg = s.cfg ∧
      (∃ new, t.trace = s.trace ++ new ∧ t.st.mode = lastModeWrite s.st.mode new) ∧
      t.syncs = s.syncs.filter fun a => a.id ≠ id) := by
  obtain ⟨s', hs'⟩ : ∃ s', s' = { s with st := { s.st with txLock := .sync id } } := ⟨_, rfl⟩
  have hst : s'.st = { s.st with txLock := .sync id } := by rw [hs']
  have h0 : SubOp s s' := hs' ▸ SubOp.of_st rfl
  have hb := beginTx_spec msg s'
  unfold syncBegin at h
  rw [← hs'] at h
  cases hr : beginTx msg s' with
  | done u a =>
    rw [hr] at h hb
    obtain ⟨hsub, hs, hl⟩ := hb
    have hall := h0.trans hsub
    cases h
    refine .inl ⟨?_, ?_, hall.clock, hall.responses, hall.nextSyncId, hall.port, hall.turns, hall.cfg, hall.trace, ?_⟩
    · simp only [State.setSyncPhase_st, State.setSyncPhase_clock]; rw [hs, hst, hs']
    · simp only [State.setSyncPhase_log]; rw [hl, hs']
    · simp only [State.setSyncPhase_syncs]; rw [hall.syncs]
  | raised e a =>
    rw [hr] at h hb
    obtain ⟨rfl, hc, hm⟩ := hb
    have hall := h0.trans hc.toSubOp
    have hsa := hc.st
    rw [hst] at hsa hm
    rw [hs'] at hm
    cases h
    refine .inr ⟨?_, hm, ?_, ?_, ?_, hall.nextSyncId, hall.port, hall.turns, hall.cfg, hall.trace, ?_⟩
    · change { a.st with txLock := TxLock.free } = _
      rw [hsa]; rfl
    · change a.log = _
      rw [hc.sameLog, hs']
    · change a.clock = _
      rw [hc.sameClock, hs']
    · change a.responses ++ _ = _
      rw [hall.responses]
    · change a.syncs.filter _ = _
      rw [hall.syncs]

/-- The begin step always answers a next state. -/
theorem syncBegin_next (id : Nat) (msg : List Byte) (s : State) : ∃ t, syncBegin id msg s = .next t := by
  unfold syncBegin
  cases beginTx msg { s with st := { s.st with txLock := .sync id } } with
  | done u a => exact ⟨_, rfl⟩
  | raised e a => exact ⟨_, rfl⟩

/-- A poll step: the agent polls on, or it releases the lock if it still holds it and its caller has OK or IOError. Nothing
else of `st` changes. -/
theorem syncPoll_spec {id n : Nat} {s t : State} (h : syncPoll id n s = .next t) :
    (t.clock = s.clock ∧ t.log = s.log ∧ t.nextSyncId = s.nextSyncId ∧ t.port = s.port ∧ t.turns = s.turns ∧
      t.cfg = s.cfg ∧ (∃ a, t.trace = s.trace ++ ([.getByte regOpMode a] : List BusTxn))) ∧
    ((t.st = s.st ∧ t.responses = s.responses ∧
      t.syncs = s.syncs.map fun a => if a.id = id then { a with phase := .polling (n + 1) } else a) ∨
     (t.st = { s.st with txLock := if s.st.txLock = .sync id then .free else s.st.txLock } ∧
      (∃ e, (e = .ok ∨ e = .ioError) ∧ t.responses = s.responses ++ ([⟨some id, e, .none⟩] : List Response)) ∧
      t.syncs = s.syncs.filter fun a => a.id ≠ id)) := by
  unfold syncPoll at h
  split at h
  · cases h
  · unfold getMode getByte at h
    cases ha : nextAnswer s with
    | fails =>
      simp only [ha, Res.andThen_raised] at h
      cases h
      simp only [State.releaseSync_eq]
      exact ⟨⟨rfl, rfl, rfl, rfl, rfl, rfl, none, rfl⟩, .inr ⟨rfl, ⟨.ioError, .inr rfl, rfl⟩, rfl⟩⟩
    | gives d =>
      simp only [ha, Res.andThen_done] at h
      split at h
      · cases h
        exact ⟨⟨rfl, rfl, rfl, rfl, rfl, rfl, _, rfl⟩, .inl ⟨rfl, rfl, rfl⟩⟩
      · cases h
        simp only [State.releaseSync_eq]
        exact ⟨⟨rfl, rfl, rfl, rfl, rfl, rfl, _, rfl⟩, .inr ⟨rfl, ⟨.ok, .inl rfl, rfl⟩, rfl⟩⟩

/-! ## EV_IRQ and RX_PACKET on a script of the chip's answers -/

/-- The state after the read of the flags. -/
def flagsRead (s : State) (flags : Byte) (c : List ChipAnswer) : State :=
  { s with st := { s.st with irqPending := s.st.irqPending - 1 }, chip := c, draws := s.draws + 2,
           trace := s.trace ++ ([.getByte 0x12 (some flags)] : List BusTxn) }

/-- EV_IRQ when the chip answers the read of the flags: the branch of the mode runs, then the flags are cleared (R148). -/
theorem evIrq_read {s : State} {flags : Byte} {c : List ChipAnswer} (hr : s.st.running = true) (hi : 0 < s.st.irqPending)
    (hc : s.chip = .gives [flags] :: c) :
    execEvIrq s =
      onNext (irqBranch s.st.mode (some flags) (flagsRead s flags c)) fun s => .next (clearIrqFlags s) := by
  have hen : (s.st.running && decide (0 < s.st.irqPending)) = true := by simp [hr, hi]
  have hread : readIrqFlags { s with st := { s.st with irqPending := s.st.irqPending - 1 } } = (some flags, flagsRead s flags c) := by
    unfold readIrqFlags
    rw [getByte_of_gives (s := { s with st := { s.st with irqPending := s.st.irqPending - 1 } }) regIrqFlags hc]
    simp only [State.useAnswer, State.record, flagsRead, hc]; rfl
  show (if _ then handleIrq s else .next s) = _
  rw [if_pos hen]
  unfold handleIrq
  simp only [hread]

/-- EV_IRQ when the chip answers the read of the flags and accepts their clearing (R148). -/
theorem evIrq_gives {s : State} {flags : Byte} {t : State} {d : List Byte} {c rest : List ChipAnswer}
    (hr : s.st.running = true) (hi : 0 < s.st.irqPending) (hc : s.chip = .gives [flags] :: c)
    (hb : irqBranch s.st.mode (some flags) (flagsRead s flags c) = .next t) (ht : t.chip = .gives d :: rest) :
    execEvIrq s =
      .next { t with chip := rest, draws := t.draws + 1, trace := t.trace ++ ([.setByte 0x12 0xFF true] : List BusTxn) } := by
  rw [evIrq_read hr hi hc, hb]
  obtain ⟨st, syncs, nid, port, resp, tr, log, chip, ticks, clock, turns, draws, cfg⟩ := t
  simp only at ht; subst ht
  rfl

/-- The state in which TX_BRANCH goes on after a transmit-complete (R149). -/
def txDone (s : State) (t0 : Nat) : State :=
  ({ s.sampleTime with st := { s.st with lastTxElapsed := some (nextTime s - t0), txLock := .free } }).logEvent
    (.txElapsed (nextTime s - t0))

/-- TX_BRANCH on a transmit-complete with a start time (R149). -/
theorem txBranch_txDone {flags : Byte} {u : State} {t0 : Nat} (hf : flagSet flags u.cfg.irqTxDone = true)
    (h0 : u.st.txStart = some t0) : txBranch flags u = .next (afterTx (txDone u t0)) := by
  unfold txBranch; rw [if_pos hf, h0]; rfl

/-- The branch EV_IRQ takes on a transmit-complete (R148, R149). -/
theorem irqBranch_txDone {s : State} {flags : Byte} {t0 : Nat} (c : List ChipAnswer) (hd : s.decidedDefaults)
    (hm : s.st.mode = some 0x83)
    (ht : s.st.txStart = some t0) (hf : flags.getLsbD 3 = true) :
    irqBranch s.st.mode (some flags) (flagsRead s flags c) = .next (afterTx (txDone (flagsRead s flags c) t0)) := by
  have htx : some (0x83 : Byte) = some (flagsRead s flags c).cfg.modeTx := by rw [show (flagsRead s flags c).cfg.toDecided = _ from hd]; rfl
  rw [hm, irqBranch, if_pos htx]
  refine txBranch_txDone ?_ ht
  rw [show (flagsRead s flags c).cfg.toDecided = _ from hd]
  exact (flagSet_irqTxDone flags).trans hf

/-- The transactions of RX_PACKET (R152). -/
theorem readPacket_follows {s : State} {n : Byte} (a snr rssi : Byte) (d : List Byte) {pay : List Byte}
    (hd : s.decidedDefaults) (hl : pay.length = n.toNat) :
    Follows (rxPacketTxns n a snr rssi d pay) (fun r => r = (pay, snr, rssi)) s (readPacket s) := by
  unfold readPacket rxPacketTxns
  refine Follows.andThen (a := [_]) (.getByte _ n _) fun n' s1 hn e1 => ?_
  subst hn
  refine Follows.andThen (a := [_]) (.getByte _ a _) fun a' s2 ha e2 => ?_
  subst ha
  refine Follows.andThen (a := [_]) (.setByte (by decide) d _ _) fun _ s3 _ e3 => ?_
  refine Follows.andThen (P := fun b => b = pay) ?_ fun b s4 hb _ => ?_
  · by_cases hn : n' = 0
    · rw [if_pos hn, if_pos hn]
      exact .done (P := fun b => b = pay) (List.eq_nil_of_length_eq_zero (by simpa [hn] using hl)).symm _
    · rw [if_neg hn, if_neg hn, e3, e2, e1, hd]
      exact .getBytes _ hl _
  subst hb
  refine Follows.andThen (a := [_]) (b := [_]) (.getByte _ snr _) fun x s5 hx _ => ?_
  subst hx
  refine Follows.andThen (a := [_]) (b := []) (.getByte _ rssi _) fun y s6 hy _ => ?_
  subst hy
  exact .done (P := fun r => r = (b, x, y)) rfl _

/-- RX_PACKET does not write the mode. -/
theorem lastModeWrite_rxPacketTxns (m : Option Byte) (n a snr rssi : Byte) (d pay : List Byte) :
    ∀ k, lastModeWrite m (failingAt (rxPacketTxns n a snr rssi d pay) k) = m ∧
      lastModeWrite m (succeeding (rxPacketTxns n a snr rssi d pay)) = m := by
  intro k
  unfold rxPacketTxns
  by_cases hn : n = 0
  · simp only [hn, if_true]
    match k with
    | 0 | 1 | 2 | 3 | 4 => exact ⟨rfl, rfl⟩
    | k + 5 => exact ⟨by simp [failingAt]; rfl, rfl⟩
  · simp only [hn, if_false]
    match k with
    | 0 | 1 | 2 | 3 | 4 | 5 => exact ⟨rfl, rfl⟩
    | k + 6 => exact ⟨by simp [failingAt]; rfl, rfl⟩

/-- RX_PACKET when every transaction succeeds (R152). -/
theorem readPacket_gives {s : State} {n a snr rssi : Byte} {d pay : List Byte} {rest : List ChipAnswer}
    (hd : s.decidedDefaults) (hl : pay.length = n.toNat)
    (h : s.chip = (rxPacketTxns n a snr rssi d pay).map (fun x => x.1) ++ rest) :
    ∃ t, readPacket s = .done (pay, snr, rssi) t ∧ t.st = s.st ∧
      t.trace = s.trace ++ (rxPacketTxns n a snr rssi d pay).map (fun x => x.2.1) ∧
      t.chip = rest ∧ t.log = s.log ∧ t.responses = s.responses ∧ t.clock = s.clock ∧ t.ticks = s.ticks ∧ s.sameHosts t := by
  obtain ⟨_, t, ht, rfl, g⟩ := (readPacket_follows a snr rssi d hd hl).succeeds rest (by rw [answersTo_length]; exact h)
  exact ⟨t, ht, by rw [g.st, (lastModeWrite_rxPacketTxns _ _ _ _ _ _ _ 0).2], g.trace, g.chip, g.log, g.responses, g.clock,
    g.ticks, g.hosts⟩

/-- RX_PACKET when one of its transactions fails: none after it is issued (R152, R221). -/
theorem readPacket_fails {s : State} {n a snr rssi : Byte} {d pay : List Byte} {rest : List ChipAnswer} {k : Nat}
    (hd : s.decidedDefaults) (hl : pay.length = n.toNat)
    (hk : k < (rxPacketTxns n a snr rssi d pay).length)
    (h : s.chip = ((rxPacketTxns n a snr rssi d pay).take k).map (fun x => x.1) ++ .fails :: rest) :
    ∃ t, readPacket s = .raised .ioError t ∧ t.st = s.st ∧
      t.trace = s.trace ++ failingAt (rxPacketTxns n a snr rssi d pay) k ∧
      t.chip = rest ∧ t.log = s.log ∧ t.responses = s.responses ∧ t.clock = s.clock ∧ t.ticks = s.ticks ∧ s.sameHosts t := by
  obtain ⟨t, ht, g⟩ := (readPacket_follows a snr rssi d hd hl).fails k hk rest h
  exact ⟨t, ht, by rw [g.st, (lastModeWrite_rxPacketTxns _ _ _ _ _ _ _ k).1], g.trace, g.chip, g.log, g.responses, g.clock,
    g.ticks, g.hosts⟩

end Sys2Proof.Machine
end

