-- ==== Sys2Proof/Laws/PerInstr.lean ====
section
/-! SUPPORT. Statements made for every instruction: its opcode byte or event code is the one its row of spec/opcode_table.json
fixes (30_encoding.md R87, R96). -/

namespace Sys2Proof.Laws.OpcodeBits

/-- The fixed bits of an instruction's row: a command's first byte on the port, or an event's code. -/
def fixedBits : Instr → Byte ⊕ BitVec 2
  | .configure _ => .inl 0x01
  | .start => .inl 0x02
  | .stop => .inl 0x03
  | .send _ => .inl 0x04
  | .sendSync _ => .inl 0x05
  | .flushRx => .inl 0x06
  | .packetEncode _ => .inl 0x07
  | .packetDecode _ => .inl 0x08
  | .reconfigure _ => .inl 0x09
  | .evIrq => .inr 0
  | .evMsg => .inr 1
  | .evStop => .inr 2

/-- The encoding begins with the row's fixed bits, and is bytes of the port exactly for a command. -/
def Statement (i : Instr) : Prop :=
  match fixedBits i with
  | .inl op => i.isCommand = true ∧ ∃ operand, encode i = .portBytes (op :: operand)
  | .inr code => i.isCommand = false ∧ encode i = .eventCode code

theorem configure (p : RadioParameters) : Statement (.configure p) := ⟨rfl, _, rfl⟩
theorem start : Statement .start := ⟨rfl, _, rfl⟩
theorem stop : Statement .stop := ⟨rfl, _, rfl⟩
theorem send (msg : List Byte) : Statement (.send msg) := ⟨rfl, _, rfl⟩
theorem sendSync (msg : List Byte) : Statement (.sendSync msg) := ⟨rfl, _, rfl⟩
theorem flushRx : Statement .flushRx := ⟨rfl, _, rfl⟩
theorem packetEncode (plain : List Byte) : Statement (.packetEncode plain) := ⟨rfl, _, rfl⟩
theorem packetDecode (rx : List Byte) : Statement (.packetDecode rx) := ⟨rfl, _, rfl⟩
theorem reconfigure (p : RadioParameters) : Statement (.reconfigure p) := ⟨rfl, _, rfl⟩
theorem evIrq : Statement .evIrq := ⟨rfl, rfl⟩
theorem evMsg : Statement .evMsg := ⟨rfl, rfl⟩
theorem evStop : Statement .evStop := ⟨rfl, rfl⟩

end Sys2Proof.Laws.OpcodeBits
end

