-- ==== Sys2Proof/Tests/Slice0.lean ====
section
/-! SUPPORT. The model's own tests. Expected values are those of spec/95_test_vectors.md (its parts and programs are named at
each test) or read off a rule's table by hand; none was taken from the model. The witnesses of the second half show, for each
statement with hypotheses, a concrete state and operands that meet them. -/

open Sys2Proof Sys2Proof.Machine

namespace Sys2Proof.Tests

-- One theorem at a time: kernel evaluations that wait for one another side by side each hold a thread's stack.
set_option Elab.async false

/-! ## Small states -/

/-- A small choice of the open parameters. -/
def smallCfg : Config := ⟨Decided.standard, 2, 0x23, 0x8F, none, none, none⟩

/-- `p0` of part 6. -/
def p0 : RadioParameters := ⟨915000000, 125000, 7, 5, 8⟩

/-- The highest accepted value in every domain. -/
def pMax : RadioParameters := ⟨1023999969, 500000, 12, 8, 65535⟩

/-- The lowest accepted value in every domain. -/
def pMin : RadioParameters := ⟨0, 7800, 7, 5, 6⟩

/-- A successful answer without data. -/
def ack : ChipAnswer := .gives []

/-- A stopped block that has not been configured, with the chip's answers. -/
def stopped (chip : List ChipAnswer) : State := { State.reset with cfg := smallCfg, chip := chip, clock := 100, ticks := [20, 3] }

/-- The record `st` in continuous receive, after CONFIGURE(p0) and START. -/
def receivingSt : LinkState :=
  { LinkState.reset with params := some p0, mode := some 0x85, configured := true, irqRegistered := true, running := true }

/-- Continuous receive with one edge pending. -/
def listening (chip : List ChipAnswer) : State := { stopped chip with st := { receivingSt with irqPending := 1 } }

/-- Transmitting under ARB's lock since time 40, with messages waiting and one edge and one notification pending. -/
def sending (waiting : List (List Byte)) (chip : List ChipAnswer) : State :=
  { stopped chip with st := { receivingSt with mode := some 0x83, txStart := some 40, txLock := .arb, irqPending := 1,
                                               msgPending := 1, backlog := waiting } }

/-- Transmitting under the lock of SEND_SYNC 1, which polls, with no poll taken yet. -/
def polling (chip : List ChipAnswer) : State :=
  { stopped chip with st := { receivingSt with mode := some 0x83, txStart := some 40, txLock := .sync 1 },
                      syncs := [⟨1, .polling 0⟩], nextSyncId := 2 }

/-- SEND_SYNC 1 suspended with a message, the radio in the mode and the lock as given. -/
def suspended (mode : Byte) (lock : TxLock) (running : Bool) (chip : List ChipAnswer) : State :=
  { stopped chip with st := { receivingSt with mode := some mode, txLock := lock, running := running, txStart := some 40 },
                      syncs := [⟨1, .waiting [0x41]⟩], nextSyncId := 2 }

/-- A block in STANDBY that is configured and stopped. -/
def configuredSt : LinkState := { receivingSt with mode := some 0x81, running := false }

/-- What a result's next state shows through `f`, if there is one. -/
def seen {α : Type} (r : StepResult) (f : State → α) : Option α :=
  match r with
  | .next t => some (f t)
  | .fault _ => none
  | .refused _ => none

/-- Why a result is refused, if it is. -/
def refusal (r : StepResult) : Option Refusal :=
  match r with
  | .next _ => none
  | .fault _ => none
  | .refused e => some e

/-! ## Well-formedness: an ill-formed term for each check -/

theorem test_send_too_long_for_its_length_field : (Instr.send (List.replicate 65536 0)).wellFormed = false := by
  generalize h : List.replicate 65536 (0 : Byte) = msg
  have hl : msg.length = 65536 := by rw [← h, List.length_replicate]
  simp [Instr.wellFormed, hl]
theorem test_sendSync_too_long_for_its_length_field : (Instr.sendSync (List.replicate 65536 0)).wellFormed = false := by
  generalize h : List.replicate 65536 (0 : Byte) = msg
  have hl : msg.length = 65536 := by rw [← h, List.length_replicate]
  simp [Instr.wellFormed, hl]
theorem test_packetEncode_of_199_bytes_ill_formed : (Instr.packetEncode (List.replicate 199 0)).wellFormed = false := by decide +kernel
theorem test_packetDecode_of_254_bytes_ill_formed : (Instr.packetDecode (List.replicate 254 0)).wellFormed = false := by decide +kernel

/-! ## Decoding: a written-out word for each constructor (part 4; R87, R92, R96) -/

theorem test_decode_configure : decodeCommand
    [0x01, 0x00, 0x00, 0x00, 0x00, 0x36, 0x89, 0xCA, 0xC0, 0x00, 0x01, 0xE8, 0x48, 0x07, 0x05, 0x00, 0x08]
      = .ok (.configure p0, []) := by decide
theorem test_decode_reconfigure : decodeCommand
    [0x09, 0x00, 0x00, 0x00, 0x00, 0x33, 0xBE, 0x27, 0xA0, 0x00, 0x07, 0xA1, 0x20, 0x0C, 0x08, 0x00, 0x06]
      = .ok (.reconfigure ⟨868100000, 500000, 12, 8, 6⟩, []) := by decide
theorem test_decode_start : decodeCommand [0b00000010] = .ok (.start, []) := by decide
theorem test_decode_stop : decodeCommand [0b00000011] = .ok (.stop, []) := by decide
theorem test_decode_send : decodeCommand [0b00000100, 0x00, 0x02, 0x41, 0x42, 0x06] = .ok (.send [0x41, 0x42], [0x06]) := by decide
theorem test_decode_sendSync : decodeCommand [0b00000101, 0x00, 0x01, 0x43] = .ok (.sendSync [0x43], []) := by decide
theorem test_decode_flushRx : decodeCommand [0b00000110] = .ok (.flushRx, []) := by decide
theorem test_decode_packetEncode :
    decodeCommand (0b00000111 :: List.replicate 199 0 ++ [0xFF, 0x02])
      = .ok (.packetEncode (List.replicate 199 0 ++ [0xFF]), [0x02]) := by decide +kernel
theorem test_decode_packetDecode :
    decodeCommand (0b00001000 :: List.replicate 254 0 ++ [0x55, 0x02])
      = .ok (.packetDecode (List.replicate 254 0 ++ [0x55]), [0x02]) := by decide +kernel
theorem test_decode_events : decode (.eventCode 0b00) = some .evIrq ∧ decode (.eventCode 0b01) = some .evMsg ∧
    decode (.eventCode 0b10) = some .evStop ∧ decode (.eventCode 0b11) = none := by decide
theorem test_decode_incomplete : decodeCommand [0x04, 0x00, 0x02, 0x41] = .error .incomplete := by decide
theorem test_decode_reserved : decodeCommand [0x0A] = .error (.reservedOpcode 0x0A) ∧
    decodeCommand [0x00] = .error (.reservedOpcode 0x00) := by decide

/-- Words numbered as the opcode table numbers them: the first byte is bits 7 to 0. -/
theorem test_table_words : decodeTableWord 8 0x02 = some .start ∧ decodeTableWord 8 0x06 = some .flushRx ∧
    decodeTableWord 40 0x4241020004 = some (.send [0x41, 0x42]) ∧ decodeTableWord 2 0 = some .evIrq ∧
    decodeTableWord 2 1 = some .evMsg ∧ decodeTableWord 2 2 = some .evStop ∧ decodeTableWord 8 0x0A = none := by decide +kernel

/-! ## The step takes up a placed word as the first instruction after reset -/

theorem test_first_instruction_start :
    seen (step (State.reset.withFetchWord 8 0x02)) (fun t => (t.responses, t.port)) =
      some (([⟨none, .initializationError, .none⟩] : List Response), []) := by decide +kernel
theorem test_first_instruction_send_is_refused :
    refusal (step (State.reset.withFetchWord 40 0x4241020004)) = some .notRunning := by decide +kernel
theorem test_first_instruction_evStop :
    seen (step (State.reset.withFetchWord 2 2)) (fun t => t.st.running) = some false := by decide +kernel
theorem test_first_instruction_evIrq :
    seen (step (State.reset.withFetchWord 2 0)) (fun _ => ()) = some () := by decide +kernel

/-- R6: after reset the arguments of the model are at the decided defaults, which the statements with numbers have as a premise. -/
theorem test_reset_at_the_decided_defaults : State.reset.decidedDefaults := rfl

/-! ## ModeController (parts 4 and 6) -/

/-- P2 step 1: the trace of a CONFIGURE of `p0`; `LNA_GAIN_BYTE` is 0x23 and `TX_POWER_BYTE` 0x8F here. -/
theorem test_configure_trace :
    seen (exec (.configure p0) (stopped ([ack, .gives [0x80], ack, ack, ack, .gives [0x00], ack, .gives [0x04], ack,
        .gives [0x70], ack] ++ List.replicate 7 ack))) (fun t => t.trace) =
      some ([.setByte 0x01 0x80 true, .getByte 0x01 (some 0x80), .setByte 0x0E 0 true, .setByte 0x0F 0 true,
        .setByte 0x01 0x81 true, .getByte 0x1D (some 0x00), .setByte 0x1D 0x70 true, .getByte 0x1E (some 0x04),
        .setByte 0x1E 0x74 true, .getByte 0x1D (some 0x70), .setByte 0x1D 0x72 true, .setByte 0x20 0x00 true,
        .setByte 0x21 0x08 true, .setByte 0x06 0xE4 true, .setByte 0x07 0xC0 true, .setByte 0x08 0x00 true,
        .setByte 0x0C 0x23 true, .setByte 0x09 0x8F true] : List BusTxn) := by decide +kernel

/-- P6 step 4: ten read-backs of 0x00 give InitializationError. -/
theorem test_configure_unverifiable_mode :
    seen (exec (.configure p0) (stopped (List.replicate 20 (.gives [0x00])))) (fun t => (t.st, t.responses, t.trace.length)) =
      some ({ LinkState.reset with params := some p0, mode := some 0x80 }, ([⟨none, .initializationError, .none⟩] : List Response), 20) := by
  decide +kernel

/-- P4 step 4: BusyError while transmitting. -/
theorem test_reconfigure_busy :
    seen (exec (.reconfigure p0) (sending [[0x0C], [0x0D]] [])) id =
      some ((sending [[0x0C], [0x0D]] []).respond none .busyError .none) := by decide +kernel

/-- R123, R124: RECONFIGURE ends in RXCONTINUOUS, on a stopped arbiter too. -/
theorem test_reconfigure_ends_in_receive :
    seen (exec (.reconfigure pMax) { stopped (.gives [] :: ack :: .gives [0xF8] :: List.replicate 18 (.gives [0x00])) with
        st := configuredSt }) (fun t => (t.st.mode, t.st.params, t.st.running, t.trace.length)) =
      some (some 0x85, some pMax, false, 21) := by decide +kernel

/-- The setters' table of part 4. -/
theorem test_setter_bytes : withBwCode 0x0B 7 = 0x7B ∧ withBwCode 0xFF 9 = 0x9F ∧ withBwCode 0xFF 0 = 0x0F ∧
    withCodingRate 0x70 5 = 0x72 ∧ withCodingRate 0xFF 5 = 0xF3 ∧ withCodingRate 0x73 8 = 0x79 ∧
    withSpreadingFactor 0x04 12 = 0xC4 ∧ withSpreadingFactor 0xF7 9 = 0x97 := by decide

/-- R75, R16: the mode bytes of the eight codes, in the source's order. -/
theorem test_mode_bytes : [RadioMode.sleep, .standby, .fstx, .tx, .fsrx, .rxContinuous, .rxSingle, .cad].map Decided.standard.modeByte =
    [0x80, 0x81, 0x82, 0x83, 0x84, 0x85, 0x86, 0x87] := by decide

/-- The frequency table of part 4. -/
theorem test_frequency_steps : frf 30 = 0 ∧ frf 31 = 1 ∧ frf 92 = 2 ∧ frf 868100000 = 0xD90666 ∧ frf 915000000 = 0xE4C000 ∧
    frf 1023999969 = 0xFFFFFF ∧ frf 1023999970 = 0x1000000 := by decide

/-! ## LinkArbiter (parts 5 and 6) -/

/-- P2 step 2. -/
theorem test_start_trace :
    seen (exec .start { stopped [ack, ack] with st := configuredSt }) (fun t => (t.st, t.trace)) =
      some (receivingSt, ([.setByte 0x40 0x00 true, .setByte 0x01 0x85 true] : List BusTxn)) := by decide +kernel

/-- P6 step 1. -/
theorem test_start_not_configured :
    seen (exec .start (stopped [])) id = some ((stopped []).respond none .initializationError .none) := by decide +kernel

/-- P5 step 6. -/
theorem test_stop_is_a_signal :
    seen (exec .stop (listening [])) (fun t => (t.st.stopPending, t.st.running, t.st.mode)) = some (true, true, some 0x85) := by
  decide +kernel

/-- P4 step 3: the oldest message is dropped. -/
theorem test_send_drops_the_oldest :
    seen (exec (.send [0x0D]) (sending [[0x0B], [0x0C]] [])) (fun t => (t.st.backlog, t.st.msgPending)) =
      some ([[0x0C], [0x0D]], 2) := by decide +kernel

/-- Part 5: 256 bytes are refused with MessageTooLongError, the backlog unchanged. -/
theorem test_send_too_long :
    seen (exec (.send (List.replicate 256 0)) (listening [])) id =
      some ((listening []).respond none .messageTooLongError .none) := by
  decide +kernel

/-- P5 step 1. -/
theorem test_sendSync_begins :
    seen (exec (.sendSync [0x41, 0x42]) (listening (List.replicate 6 ack))) (fun t => (t.trace, t.st.txLock, t.st.mode, t.syncs)) =
      some (([.setByte 0x01 0x81 true, .setByte 0x0D 0x00 true, .setBytes 0x00 [0x41, 0x42] true, .setByte 0x22 0x02 true,
        .setByte 0x40 0x40 true, .setByte 0x01 0x83 true] : List BusTxn), .sync 1, some 0x83, [⟨1, .polling 0⟩]) := by decide +kernel

/-- R144: a suspended SEND_SYNC begins in a step of its agent. P5's variant: a poll that sees STANDBY frees the lock and returns
OK, and the cached mode stays TX. -/
theorem test_sync_agent_steps :
    seen (syncStep 1 (suspended 0x85 .free true (List.replicate 6 ack))) (fun t => (t.st.txLock, t.st.mode, t.syncs)) =
      some (.sync 1, some 0x83, [⟨1, .polling 0⟩]) ∧
    seen (syncStep 1 (polling ([.gives [0x81]] : List ChipAnswer))) (fun t => (t.st.txLock, t.st.mode, t.syncs, t.responses)) =
      some (.free, some 0x83, [], [⟨some 1, .ok, .none⟩]) := by decide +kernel

/-- P3 steps 2 and 5: a received packet, and the bytes FLUSH_RX answers. -/
theorem test_flush_response_bytes :
    seen (exec .flushRx { stopped [] with st := { receivingSt with
        rxbuf := [⟨[0x48, 0x69, 0x21], 0x50, 0x28, 1000000000, p0⟩] } }) (fun t => t.responses.map responseBytes) =
      some [[0x00, 0x00, 0x00, 0x00, 0x01, 0x03, 0x48, 0x69, 0x21, 0x50, 0x28, 0x00, 0x00, 0x00, 0x00, 0x3B, 0x9A, 0xCA, 0x00,
        0x00, 0x00, 0x00, 0x00, 0x36, 0x89, 0xCA, 0xC0, 0x00, 0x01, 0xE8, 0x48, 0x07, 0x05, 0x00, 0x08]] := by decide +kernel

/-- P3 step 2: the reads of a received packet, at time 120. -/
theorem test_evIrq_receives :
    seen (exec .evIrq (listening ([.gives [0x40], .gives [0x03], .gives [0x10], ack, .gives [0x48, 0x69, 0x21], .gives [0x28],
        .gives [0x50], ack] : List ChipAnswer))) (fun t => (t.st.rxbuf, t.trace)) =
      some ([⟨[0x48, 0x69, 0x21], 0x50, 0x28, 120, p0⟩],
        ([.getByte 0x12 (some 0x40), .getByte 0x13 (some 0x03), .getByte 0x10 (some 0x10), .setByte 0x0D 0x10 true,
         .getBytes 0x00 3 (some [0x48, 0x69, 0x21]), .getByte 0x19 (some 0x28), .getByte 0x1A (some 0x50),
         .setByte 0x12 0xFF true] : List BusTxn)) := by decide +kernel

/-- P2 step 8: transmit-complete starts the next message. -/
theorem test_evIrq_starts_the_next :
    seen (exec .evIrq (sending [[0x43]] (.gives [0x08] :: List.replicate 7 ack)))
        (fun t => (t.st.backlog, t.st.lastTxElapsed, t.st.txStart, t.log, t.trace.length)) =
      some ([], some 80, some 123, ([.txElapsed 80] : List LogEvent), 8) := by decide +kernel

/-- P6 step 10: a start that fails loses the message. -/
theorem test_evMsg_failed_start :
    seen (exec .evMsg { stopped [ack, .fails] with st := { receivingSt with backlog := [[0x41]], msgPending := 1 } })
        (fun t => (t.st.backlog, t.st.mode, t.st.txLock, t.log)) =
      some ([], some 0x81, .free, ([.txStartFailed] : List LogEvent)) := by decide +kernel

/-- P2 step 6: nothing while transmitting. -/
theorem test_evMsg_while_transmitting :
    seen (exec .evMsg (sending [[0x43]] [])) (fun t => (t.st.msgPending, t.st.backlog, t.trace)) = some (0, [[0x43]], []) := by
  decide +kernel

/-- P5 step 7. -/
theorem test_evStop :
    seen (exec .evStop { listening [ack] with st := { receivingSt with stopPending := true, backlog := [[0x41]] } })
        (fun t => (t.st, t.trace)) =
      some ({ configuredSt with irqPending := 0 }, ([.setByte 0x01 0x81 true] : List BusTxn)) := by decide +kernel

/-! ## FEC (parts 2 and 3) -/

theorem test_gf_products :
    let g := Decided.standard
    g.gfMul 0x02 0x80 = 0x1D ∧ g.gfMul 0x80 0x80 = 0x13 ∧ g.gfMul 0xFF 0xFF = 0xE2 ∧ g.gfMul 0x53 0xCA = 0x8F ∧
    g.gfInv 0x02 = 0x8E ∧ g.gfInv 0x1C = 0xA0 ∧ g.gfPow 0x02 8 = 0x1D ∧ g.gfPow 0 0 = 1 := by decide +kernel
theorem test_crc_check_string : Decided.standard.crc8 [0x31, 0x32, 0x33, 0x34, 0x35, 0x36, 0x37, 0x38, 0x39] = 0xA1 := by decide +kernel

/-- V3: the encoding of 199 zeros and FF. -/
theorem test_encode_V3 :
    Decided.standard.packetEncode (List.replicate 199 0 ++ [0xFF]) =
      List.replicate 238 0 ++ [0xFF, 0x35, 0, 0, 0, 0, 0x51, 0, 0, 0, 0, 0x6B, 0, 0, 0, 0, 0x4B] := by decide +kernel

/-- S10 in the linear form (R191), on the zero word: blocks 0, 1, 2 erased and parity shard 2 changed by 01 gives the differences
78, 05 xor 55, 0A xor F8 at the first bytes of shards 0, 1, 2. -/
theorem test_decode_S10 :
    Decided.standard.packetDecodeData ([0x01, 0, 0, 0, 0, 0, 0x01, 0, 0, 0, 0, 0, 0x01] ++ List.replicate 237 0 ++ [0x01, 0, 0, 0, 0]) =
      [0x78, 0, 0, 0, 0, 0x50, 0, 0, 0, 0, 0xF2] ++ List.replicate 189 0 := by decide +kernel

/-- S12: FECFailure. -/
theorem test_decode_S12 :
    seen (exec (.packetDecode ((List.replicate 40 [(0x01 : Byte), 0, 0, 0, 0, 0]).flatten ++ List.replicate 15 0)) (stopped []))
      (fun t => t.responses.map Response.status) = some [.fecFailure] := by decide +kernel

/-! ## Witnesses: the hypotheses of each statement, met together, clause by clause and at the ends of their ranges -/

/-- The state `listening` meets the invariant, and so does `sending` with at most two messages waiting. -/
theorem witness_inv_listening (chip : List ChipAnswer) : (listening chip).Inv := by
  constructor <;>
    simp [listening, stopped, receivingSt, LinkState.reset, State.reset, smallCfg, State.transmitting, modeTx_eq, Decided.legalMode] <;>
    decide

theorem witness_inv_sending (chip : List ChipAnswer) : (sending [[0x41], [0x42]] chip).Inv := by
  constructor <;>
    simp [sending, stopped, receivingSt, LinkState.reset, State.reset, smallCfg, State.transmitting, modeTx_eq, messageOk,
      Decided.legalMode] <;>
    decide

theorem witness_DecodeOfEncodeIsTheInstruction :
    (Instr.packetDecode (List.replicate 255 0)).wellFormed = true ∧ (Instr.send []).wellFormed = true ∧
    (∀ msg : List Byte, msg.length = 65535 → (Instr.send msg).wellFormed = true) ∧
    encode (.send []) = .portBytes [0x04, 0, 0] :=
  ⟨by decide +kernel, by decide, fun msg h => by simp [Instr.wellFormed, h], by decide⟩

theorem witness_DecodedBytesAreTheEncoding : decodeCommand [0x04, 0x00, 0x01, 0xAA, 0x02] = .ok (.send [0xAA], [0x02]) := by decide

theorem witness_ReservedOpcodesAreRefused :
    ((0x00 : Byte).toNat = 0 ∧ 10 ≤ (0x0A : Byte).toNat ∧ 10 ≤ (0xFF : Byte).toNat) ∧
    (nextTurn { stopped [] with turns := [.host], port := [0x0A, 0x02] } = .host) ∧
    (1 ≤ (0x01 : Byte).toNat ∧ (0x09 : Byte).toNat ≤ 9) := by decide

theorem witness_FrequencyStepCountBytes :
    (stopped [ack, ack, ack, ack]).chip = .gives [] :: .gives [] :: .gives [] :: [ack] ∧
    (1023999969 : BitVec 64).toNat ≤ 1023999969 ∧ ¬ (1023999970 : BitVec 64).toNat ≤ 1023999969 := by decide

theorem witness_TelemetryRanges :
    (⟨[], 0, 0, 0, p0⟩ : ReceivedMessage).payload.length ≤ 255 ∧
    (⟨List.replicate 255 0x5A, 0xFF, 0x80, 0, p0⟩ : ReceivedMessage).payload.length ≤ 255 := by decide +kernel

theorem witness_StatusesEachCommandCanReturn :
    (∃ t, exec .flushRx (stopped []) = .next t) ∧ (∃ t, exec (.send [1]) (listening []) = .next t) ∧
    (∃ t, exec (.sendSync [1]) (sending [] []) = .next t) ∧ (∃ t, exec .evMsg (stopped []) = .next t) ∧
    (∃ t, syncStep 1 (polling ([.gives [0x81]] : List ChipAnswer)) = .next t) :=
  ⟨⟨_, rfl⟩, ⟨_, rfl⟩, ⟨_, rfl⟩, ⟨_, rfl⟩, ⟨_, rfl⟩⟩

theorem witness_StepRunsTheCommandOnThePort :
    nextTurn { stopped [] with turns := [.host], port := [0x06, 0x02] } = .host ∧
    decodeCommand [0x06, 0x02] = .ok (.flushRx, [0x02]) := by decide

theorem witness_StepRunsTheTurnOfTheAgent :
    nextTurn { stopped [] with turns := [.arb .stop] } = .arb .stop ∧ nextTurn { stopped [] with turns := [.sync 1] } = .sync 1 ∧
    nextTurn { stopped [] with turns := [.edge] } = .edge ∧ nextTurn { stopped [] with turns := [.host], port := [0x04] } = .host ∧
    decodeCommand [0x04] = .error .incomplete ∧ decodeCommand [] = .error .incomplete := by decide

/-- A step from the state of the next theorem, which meets the invariant; the same state serves OnlyListedTransactionsAreIssued. -/
theorem witness_EveryStepKeepsTheInvariant :
    ∃ t, step { sending [[0x41], [0x42]] (.gives [0x08] :: List.replicate 7 ack) with turns := [.arb .irq] } = .next t :=
  ⟨_, rfl⟩

theorem witness_EveryStepKeepsTheInvariant_inv :
    State.Inv { sending [[0x41], [0x42]] (.gives [0x08] :: List.replicate 7 ack) with turns := [.arb .irq] } := by
  constructor <;>
    simp [sending, stopped, receivingSt, LinkState.reset, State.reset, smallCfg, State.transmitting, modeTx_eq, messageOk,
      Decided.legalMode] <;>
    decide

theorem witness_ModeCacheIsTheLastModeWrite :
    seen (step { sending [] (.gives [0x08] :: List.replicate 3 ack) with turns := [.arb .irq] })
      (fun t => (t.st.mode, t.trace.length)) = some (some 0x85, 4) := by decide +kernel

theorem witness_OnlyListedTransactionsAreIssued :
    seen (step { sending [[0x41], [0x42]] (.gives [0x08] :: List.replicate 7 ack) with turns := [.arb .irq] })
      (fun t => t.trace.length) = some 8 := by decide +kernel

theorem witness_OutputsGrowAndTimeIsMonotonic :
    seen (step { sending [] (.gives [0x08] :: List.replicate 3 ack) with turns := [.arb .irq] })
      (fun t => (t.clock, t.log)) = some (120, ([.txElapsed 80] : List LogEvent)) := by decide +kernel

theorem witness_TransmitModeIsLeftOnlyWhenDrained :
    (∀ waiting chip, (sending waiting chip).decidedDefaults) ∧ (sending [[0x41], [0x42]] []).st.running = true ∧ (sending [[0x41], [0x42]] []).st.mode = some 0x83 ∧
    (∃ t, step { sending [[0x41], [0x42]] ([.gives [0x08], ack, .fails, ack] : List ChipAnswer) with turns := [.arb .irq] } = .next t ∧
      t.st.mode = some 0x81) ∧
    (∃ t, step { sending [] (.gives [0x08] :: List.replicate 3 ack) with turns := [.arb .irq] } = .next t ∧
      t.st.mode = some 0x85) :=
  ⟨fun _ _ => rfl, rfl, rfl, ⟨_, rfl, rfl⟩, ⟨_, rfl, rfl⟩⟩

theorem witness_CrcIsLinearAndSeesOneByteChanges :
    [(1 : Byte), 2].length = [(3 : Byte), 4].length ∧ (0x00 : Byte) ≠ 0x80 := by decide

theorem witness_SolveGivesTheUniqueSolution :
    (∀ E ∈ [[39], [0, 39], [39, 0, 20]], E.Nodup ∧ (∀ i ∈ E, i < 40) ∧ 1 ≤ E.length ∧ E.length ≤ 3) := by decide

theorem witness_PacketEncodeLayout : (List.replicate 200 (0x5A : Byte)).length = 200 := List.length_replicate

theorem witness_PacketEncodeIsLinear :
    (List.replicate 200 (0x5A : Byte)).length = 200 ∧ (List.replicate 200 (0xA7 : Byte)).length = 200 :=
  ⟨List.length_replicate, List.length_replicate⟩

theorem witness_DecodeOfEncodedPacketIsThePlaintext : (List.replicate 200 (0x5A : Byte)).length = 200 := List.length_replicate

/-- A word of zeros is the encoding of zeros (V0); this one has its first three blocks changed. -/
def threeBad : List Byte := [0x01, 0, 0, 0, 0, 0, 0x01, 0, 0, 0, 0, 0, 0x01] ++ List.replicate 242 0

/-- Four blocks changed. -/
def fourBad : List Byte :=
  [0x01, 0, 0, 0, 0, 0, 0x01, 0, 0, 0, 0, 0, 0x01, 0, 0, 0, 0, 0, 0x01] ++ List.replicate 236 0

/-- Block 0 and the first byte of parity shard 0 changed, as in S6. -/
def badParity : List Byte := 0x01 :: List.replicate 239 0 ++ 0x01 :: List.replicate 14 0

/-- The blocks that fail, as the statements write them. -/
def failingBlocks (rx : List Byte) : List Nat :=
  (List.range 40).filter fun i => Decided.standard.crc8 ((rx.drop (6 * i)).take 5) != rx.getD (6 * i + 5) 0

theorem witness_FecFailureExactlyAboveThreeErasures :
    threeBad.length = 255 ∧ fourBad.length = 255 ∧ failingBlocks threeBad = [0, 1, 2] ∧ failingBlocks fourBad = [0, 1, 2, 3] := by
  decide +kernel

theorem encode_zeros : Decided.standard.packetEncode (List.replicate 200 0) = List.replicate 255 0 := by decide +kernel

theorem witness_LocatedCorruptionIsCorrected :
    (stopped []).decidedDefaults ∧ (List.replicate 200 (0 : Byte)).length = 200 ∧ threeBad.length = 255 ∧
    (∀ n < 255, threeBad[n]? ≠ (Decided.standard.packetEncode (List.replicate 200 0))[n]? → n < 240 ∧
      Decided.standard.crc8 ((threeBad.drop (6 * (n / 6))).take 5) ≠ threeBad.getD (6 * (n / 6) + 5) 0) ∧
    (failingBlocks threeBad).length ≤ 3 := by
  rw [encode_zeros]
  decide +kernel

theorem witness_CorruptedUsedParityGivesWrongData :
    (stopped []).decidedDefaults ∧ (List.replicate 200 (0 : Byte)).length = 200 ∧ badParity.length = 255 ∧ (failingBlocks badParity).length ≤ 3 ∧
    (∀ n < 240, badParity[n]? ≠ (Decided.standard.packetEncode (List.replicate 200 0))[n]? → n / 6 ∈ failingBlocks badParity) ∧
    badParity[240]? ≠ (Decided.standard.packetEncode (List.replicate 200 0))[240]? ∧ 3 < (failingBlocks fourBad).length := by
  rw [encode_zeros]
  decide +kernel

theorem witness_ModeIsCachedOnSuccessfulWritesOnly :
    (stopped ([.gives [0x89]] : List ChipAnswer)).decidedDefaults ∧ (stopped ([.fails] : List ChipAnswer)).decidedDefaults ∧
    nextAnswer (stopped ([.gives [0x89]] : List ChipAnswer)) = .gives [0x89] ∧ nextAnswer (stopped ([.fails] : List ChipAnswer)) = .fails ∧
    (stopped ([.gives [0x89]] : List ChipAnswer)).chip = .gives (0x89 :: []) :: [] := by decide +kernel

theorem witness_SettersKeepTheOtherBits :
    (stopped ([.gives [0xFF], ack] : List ChipAnswer)).decidedDefaults ∧
    (stopped ([.gives [0xFF], ack] : List ChipAnswer)).chip = .gives [0xFF] :: .gives [] :: [] ∧
    (7 ≤ (7 : Byte).toNat ∧ (12 : Byte).toNat ≤ 12) ∧ 5 ≤ (5 : Byte).toNat ∧ (8 : Byte).toNat ≤ 8 := by decide +kernel

theorem witness_PreambleIsWrittenBigEndian :
    (5 : BitVec 16).toNat < 6 ∧ 6 ≤ (6 : BitVec 16).toNat ∧ (stopped [ack, ack]).chip = .gives [] :: .gives [] :: [] := by decide

theorem witness_BadParametersAreRejectedPreHardware :
    (100000 : BitVec 32).toNat ∉ [7800, 10400, 15600, 20800, 31250, 41700, 62500, 125000, 250000, 500000] ∧
    (0 : BitVec 32).toNat ∉ [7800, 10400, 15600, 20800, 31250, 41700, 62500, 125000, 250000, 500000] ∧
    ((⟨915000000, 125000, 5, 5, 8⟩ : RadioParameters).spreadingFactor.toNat < 6 ∧
      (⟨915000000, 125000, 6, 5, 8⟩ : RadioParameters).spreadingFactor.toNat = 6 ∧
      12 < (⟨915000000, 125000, 13, 5, 8⟩ : RadioParameters).spreadingFactor.toNat ∧
      (⟨915000000, 125000, 7, 4, 8⟩ : RadioParameters).codingRate.toNat < 5 ∧
      8 < (⟨915000000, 125000, 7, 9, 8⟩ : RadioParameters).codingRate.toNat ∧
      (⟨915000000, 125000, 7, 5, 5⟩ : RadioParameters).preambleLength.toNat < 6) ∧
    (stopped []).decidedDefaults ∧ (listening []).decidedDefaults ∧ (stopped []).st.running = false ∧ (stopped []).st.mode ≠ some 0x83 ∧ (listening []).st.mode ≠ some 0x83 :=
  ⟨by simp, by simp, by decide, by decide +kernel⟩

/-- The conditions on an accepted record, as the statements write them. -/
abbrev accepted (p : RadioParameters) : Prop :=
  p.bandwidthHz.toNat ∈ [7800, 10400, 15600, 20800, 31250, 41700, 62500, 125000, 250000, 500000] ∧
  7 ≤ p.spreadingFactor.toNat ∧ p.spreadingFactor.toNat ≤ 12 ∧ 5 ≤ p.codingRate.toNat ∧ p.codingRate.toNat ≤ 8 ∧
  6 ≤ p.preambleLength.toNat ∧ p.frequencyHz.toNat ≤ 1023999969

/-- The bandwidths of the table with their codes, as the statements write them. -/
abbrev codedBandwidths : List (Nat × Byte) :=
  [(7800, 0x00), (10400, 0x01), (15600, 0x02), (20800, 0x03), (31250, 0x04), (41700, 0x05), (62500, 0x06), (125000, 0x07),
   (250000, 0x08), (500000, 0x09)]

/-- A bandwidth has its code at both ends of the table. -/
theorem coded_at_both_ends : (pMin.bandwidthHz.toNat, (0x00 : Byte)) ∈ codedBandwidths ∧
    (pMax.bandwidthHz.toNat, (0x09 : Byte)) ∈ codedBandwidths := by decide

theorem accepted_at_both_ends : accepted pMin ∧ accepted p0 ∧ accepted pMax := by decide

/-- Nine attempts that do not verify, the last two by a failed read and a failed write. -/
def nineBad : List (ChipAnswer × ChipAnswer) := List.replicate 7 (ack, .gives [0x81]) ++ [(ack, .fails), (.fails, .gives [0x00])]

theorem nineBad_bad : ∀ a ∈ nineBad, a.2 = .fails ∨ ∃ b d, a.2 = .gives (b :: d) ∧ b &&& 0x87 ≠ 0x80 := by
  intro a ha
  have : a = (ack, .gives [0x81]) ∨ a = (ack, .fails) ∨ a = (.fails, .gives [0x00]) := by
    simpa [nineBad] using ha
  rcases this with rfl | rfl | rfl
  · exact .inr ⟨0x81, [], rfl, by decide⟩
  · exact .inl rfl
  · exact .inr ⟨0x00, [], rfl, by decide⟩

/-- The attempts of the programming statements: nine bad ones, then one whose write fails and whose read-back verifies. -/
def attempts : List (ChipAnswer × ChipAnswer) := nineBad ++ [(.fails, .gives [0xF8])]

/-- What the chip answers to the later transactions, with fields that hold other bits, for a record and its bandwidth's code. -/
def laterSteps (x : RadioParameters × Byte) : List TxnStep := programmingSteps x.1 smallCfg x.2 0xFF 0x04 0x70 fun i => List.replicate i 0xAA

/-- The hypotheses on a record and on the attempts that the programming statements share. -/
abbrev programmable (x : RadioParameters × Byte) : Prop :=
  (x.1.bandwidthHz.toNat, x.2) ∈ codedBandwidths ∧ accepted x.1 ∧ nineBad.length ≤ 9 ∧ (0xF8 : Byte) &&& 0x87 = 0x80 ∧
  attempts = nineBad ++ [(ChipAnswer.fails, ChipAnswer.gives [0xF8])]

theorem witness_ConfigureProgramsTheChip : ∀ x ∈ [(pMin, (0x00 : Byte)), (pMax, 0x09)],
    let s := stopped (attempts.flatMap (fun a => [a.1, a.2]) ++ answersTo (laterSteps x) 16 ++ ([.fails] : List ChipAnswer))
    (s.decidedDefaults ∧ s.st.running = false ∧ programmable x ∧
      laterSteps x = programmingSteps x.1 s.cfg x.2 0xFF 0x04 0x70 fun i => List.replicate i 0xAA) ∧
    (∀ a ∈ nineBad, a.2 = .fails ∨ ∃ b d, a.2 = .gives (b :: d) ∧ b &&& 0x87 ≠ 0x80) ∧
    s.chip = attempts.flatMap (fun a => [a.1, a.2]) ++ answersTo (laterSteps x) 16 ++ ([.fails] : List ChipAnswer) := by
  intro x hx
  simp only [List.mem_cons, List.not_mem_nil, or_false] at hx
  rcases hx with rfl | rfl <;> exact ⟨⟨rfl, rfl, by decide +kernel, rfl⟩, nineBad_bad, rfl⟩

theorem witness_ConfigureCompletesUnderEveryAnswer :
    ((stopped ([.fails] : List ChipAnswer)).decidedDefaults ∧ (stopped ([.fails] : List ChipAnswer)).st.running = false ∧
      accepted pMin ∧ accepted pMax) ∧
    ((listening ([.fails] : List ChipAnswer)).decidedDefaults ∧ (listening ([.fails] : List ChipAnswer)).st.mode ≠ some 0x83 ∧
      nextAnswer (listening ([.fails] : List ChipAnswer)) = .fails) ∧
    ((stopped [ack, .fails]).decidedDefaults ∧ (stopped [ack, .fails]).st.mode ≠ some 0x83 ∧
      nextAnswer (stopped [ack, .fails]) ≠ .fails) := by decide +kernel

/-- Its third clause, with a failure at the first and at the last of the sixteen transactions. -/
theorem witness_ConfigureCompletesUnderEveryAnswer_ioError :
    ∀ x ∈ [(pMin, (0x00 : Byte)), (pMax, 0x09)], ∀ k ∈ [0, 15],
    let s := stopped (attempts.flatMap (fun a => [a.1, a.2]) ++ (answersTo (laterSteps x) k ++ ([.fails] : List ChipAnswer)))
    (s.decidedDefaults ∧ s.st.running = false ∧ programmable x ∧ k < 16 ∧
      laterSteps x = programmingSteps x.1 s.cfg x.2 0xFF 0x04 0x70 fun i => List.replicate i 0xAA) ∧
    (∀ a ∈ nineBad, a.2 = .fails ∨ ∃ b d, a.2 = .gives (b :: d) ∧ b &&& 0x87 ≠ 0x80) ∧
    s.chip = attempts.flatMap (fun a => [a.1, a.2]) ++ (answersTo (laterSteps x) k ++ .fails :: []) := by
  intro x hx k hk
  simp only [List.mem_cons, List.not_mem_nil, or_false] at hx hk
  rcases hx with rfl | rfl <;> rcases hk with rfl | rfl <;> exact ⟨⟨rfl, rfl, by decide +kernel, by decide, rfl⟩, nineBad_bad, rfl⟩

/-- Its fourth clause, with a failure at the first and at the last of the eighteen. -/
theorem witness_ConfigureCompletesUnderEveryAnswer_reconfigure :
    ∀ x ∈ [(pMin, (0x00 : Byte)), (pMax, 0x09)], ∀ k ∈ [0, 17],
    let steps := laterSteps x ++ enterRxSteps fun _ => [0x55]
    let s := listening (.gives [0xAA] :: (attempts.flatMap (fun a => [a.1, a.2]) ++ (answersTo steps k ++ ([.fails] : List ChipAnswer))))
    (s.decidedDefaults ∧ s.st.mode ≠ some 0x83 ∧ programmable x ∧ k < 18 ∧
      laterSteps x = programmingSteps x.1 s.cfg x.2 0xFF 0x04 0x70 fun i => List.replicate i 0xAA) ∧
    (∀ a ∈ nineBad, a.2 = .fails ∨ ∃ b d, a.2 = .gives (b :: d) ∧ b &&& 0x87 ≠ 0x80) ∧
    s.chip = .gives [0xAA] :: (attempts.flatMap (fun a => [a.1, a.2]) ++ (answersTo steps k ++ .fails :: [])) := by
  intro x hx k hk
  simp only [List.mem_cons, List.not_mem_nil, or_false] at hx hk
  rcases hx with rfl | rfl <;> rcases hk with rfl | rfl <;>
    exact ⟨⟨rfl, by decide, by decide +kernel, by decide, rfl⟩, nineBad_bad, rfl⟩

/-- Ten of them. -/
def tenBad : List (ChipAnswer × ChipAnswer) := nineBad ++ [(.fails, .fails)]

theorem witness_TenFailedAttemptsGiveInitializationError :
    (stopped (tenBad.flatMap fun a => [a.1, a.2])).decidedDefaults ∧
    (stopped (tenBad.flatMap fun a => [a.1, a.2])).st.running = false ∧ accepted pMax ∧ tenBad.length = 10 ∧
    (∀ a ∈ tenBad, a.2 = .fails ∨ ∃ b d, a.2 = .gives (b :: d) ∧ b &&& 0x87 ≠ 0x80) ∧
    (stopped (tenBad.flatMap fun a => [a.1, a.2])).chip = tenBad.flatMap (fun a => [a.1, a.2]) ++ [] := by
  refine ⟨rfl, rfl, by decide, rfl, fun a ha => ?_, by rw [List.append_nil]; rfl⟩
  rcases List.mem_append.mp ha with h | h
  · exact nineBad_bad a h
  · rw [List.mem_singleton.mp h]; exact .inl rfl

theorem witness_ReconfigureIsBusyWhileTransmitting :
    (sending [] []).decidedDefaults ∧ (sending [] []).st.mode = some 0x83 := ⟨rfl, rfl⟩

theorem witness_ReconfigureReentersReceive : ∀ x ∈ [(pMin, (0x00 : Byte)), (pMax, 0x09)],
    let steps := laterSteps x ++ enterRxSteps fun _ => [0x55]
    let chip := ChipAnswer.gives [0xAA] ::
      (attempts.flatMap (fun a => [a.1, a.2]) ++ answersTo steps 18 ++ ([.fails] : List ChipAnswer))
    ((listening chip).decidedDefaults ∧ (listening chip).st.mode ≠ some 0x83 ∧ (stopped chip).decidedDefaults ∧
      (stopped chip).st.mode ≠ some 0x83 ∧ programmable x ∧
      laterSteps x = programmingSteps x.1 (listening chip).cfg x.2 0xFF 0x04 0x70 fun i => List.replicate i 0xAA) ∧
    (∀ a ∈ nineBad, a.2 = .fails ∨ ∃ b d, a.2 = .gives (b :: d) ∧ b &&& 0x87 ≠ 0x80) ∧
    (listening chip).chip = chip := by
  intro x hx
  simp only [List.mem_cons, List.not_mem_nil, or_false] at hx
  rcases hx with rfl | rfl <;>
    exact ⟨⟨rfl, by decide, rfl, by decide, by decide +kernel, rfl⟩, nineBad_bad, rfl⟩

theorem witness_FrameOfProgrammingCommands :
    (∃ t, exec (.configure ⟨0, 0, 0, 0, 0⟩) (stopped []) = .next t) ∧ (∃ t, exec (.reconfigure p0) (sending [] []) = .next t) :=
  ⟨⟨_, rfl⟩, ⟨_, rfl⟩⟩

theorem witness_WhereProgrammingIsRefused :
    (listening []).st.running = true ∧ (stopped []).decidedDefaults ∧ (listening []).decidedDefaults ∧
    (stopped []).cfg.validParams ⟨1023999970, 125000, 7, 5, 8⟩ = true ∧
    1023999970 ≤ (1023999970 : BitVec 64).toNat ∧ (stopped []).st.running = false ∧ (listening []).st.mode ≠ some 0x83 := by decide +kernel

theorem witness_StartEntersReceive :
    let ready (chip : List ChipAnswer) : State := { stopped chip with st := configuredSt }
    (listening []).st.running = true ∧ ((stopped []).st.running = false ∧ (stopped []).st.configured = false) ∧
    (∀ chip, (ready chip).decidedDefaults ∧ (ready chip).st.running = false ∧ (ready chip).st.configured = true) ∧
    (ready [ack, ack]).chip = .gives [] :: .gives [] :: [] ∧ (ready ([.fails] : List ChipAnswer)).chip = .fails :: [] ∧
    (ready [ack, .fails]).chip = .gives [] :: .fails :: [] :=
  ⟨rfl, ⟨rfl, rfl⟩, fun _ => ⟨rfl, rfl, rfl⟩, rfl, rfl, rfl⟩

theorem witness_SendAppendsAndTrims :
    (sending [[1], [2]] []).st.running = true ∧ 1 ≤ [(0x41 : Byte)].length ∧ (List.replicate 255 (0 : Byte)).length ≤ 255 ∧
    255 < (List.replicate 256 (0 : Byte)).length := by decide +kernel

theorem witness_WhereSendingIsRefused : (stopped []).st.running = false ∧ (listening []).st.running = true := by decide

theorem witness_SendSyncBeginsOrWaits :
    ((∀ chip, (listening chip).decidedDefaults ∧ (polling chip).decidedDefaults ∧ (sending [] chip).decidedDefaults) ∧
      (listening []).st.running = true ∧ 255 < (List.replicate 256 (0 : Byte)).length) ∧
    ((polling []).st.running = true ∧ (polling []).st.txLock ≠ .free ∧ (sending [] []).st.running = true ∧
      (sending [] []).st.mode = some 0x83) ∧
    ((listening (List.replicate 6 ack)).st.running = true ∧ 1 ≤ (List.replicate 255 (0 : Byte)).length ∧
      (List.replicate 255 (0 : Byte)).length ≤ 255 ∧
      (listening (List.replicate 6 ack)).st.txLock = .free ∧ (listening (List.replicate 6 ack)).st.mode ≠ some 0x83 ∧
      (∀ a ∈ (listening (List.replicate 6 ack)).syncs, a.id < (listening (List.replicate 6 ack)).nextSyncId) ∧
      (listening (List.replicate 6 ack)).chip = (List.replicate 6 []).map ChipAnswer.gives ++ []) := 
  ⟨⟨fun _ => ⟨rfl, rfl, rfl⟩, by decide +kernel⟩, by decide +kernel, by decide +kernel⟩


/-- Its clauses on a step of the agent: gone, holding for each of the three reasons, beginning. -/
theorem witness_SendSyncBeginsOrWaits_agent :
    (stopped []).syncs.find? (fun a => a.id = 1) = none ∧
    (∀ mode lock running chip,
      (suspended mode lock running chip).decidedDefaults ∧
      (suspended mode lock running chip).syncs.find? (fun a => a.id = 1) = some ⟨1, .waiting [0x41]⟩) ∧
    (1 ≤ [(0x41 : Byte)].length ∧ [(0x41 : Byte)].length ≤ 255) ∧
    ((suspended 0x85 .free false []).st.running = false ∧ (suspended 0x85 .arb true []).st.txLock ≠ .free ∧
      (suspended 0x83 .free true []).st.mode = some 0x83) ∧
    ( let s := suspended 0x85 .free true (List.replicate 6 ack)
      s.st.running = true ∧ s.st.txLock = .free ∧ s.st.mode ≠ some 0x83 ∧ (List.replicate 6 ([] : List Byte)).length = 6 ∧
      s.chip = (List.replicate 6 []).map ChipAnswer.gives ++ []) := by
  refine ⟨rfl, fun _ _ _ _ => ⟨rfl, rfl⟩, by decide, by decide, by decide⟩

theorem witness_FailedSendSyncReturnsIoError :
    ∀ n ∈ [0, 5], let s := listening (List.replicate n ack ++ ([.fails] : List ChipAnswer))
      s.decidedDefaults ∧ s.st.running = true ∧ 1 ≤ [(0x41 : Byte)].length ∧ [(0x41 : Byte)].length ≤ 255 ∧ s.st.txLock = .free ∧
      s.st.mode ≠ some 0x83 ∧ (∀ a ∈ s.syncs, a.id < s.nextSyncId) ∧ (List.replicate n ([] : List Byte)).length < 6 ∧
      s.chip = (List.replicate n []).map ChipAnswer.gives ++ .fails :: [] := by decide +kernel


/-- Its clause on a step of the agent. -/
theorem witness_FailedSendSyncReturnsIoError_agent :
    ∀ n ∈ [0, 5], let s := suspended 0x81 .free true (List.replicate n ack ++ ([.fails] : List ChipAnswer))
      s.decidedDefaults ∧ s.syncs.find? (fun a => a.id = 1) = some ⟨1, .waiting [0x41]⟩ ∧ s.st.running = true ∧ s.st.txLock = .free ∧
      s.st.mode ≠ some 0x83 ∧ (List.replicate n ([] : List Byte)).length < 6 ∧
      s.chip = (List.replicate n []).map ChipAnswer.gives ++ .fails :: [] := by decide +kernel

theorem witness_SyncPollReturnsWhenTheChipLeavesTx :
    (∀ chip, (polling chip).decidedDefaults ∧ (polling chip).syncs.find? (fun a => a.id = 1) = some ⟨1, .polling 0⟩) ∧
    ({ polling [] with cfg := { smallCfg with syncPollMax := some 0 } } : State).decidedDefaults ∧
    (∃ m, ({ polling [] with cfg := { smallCfg with syncPollMax := some 0 } } : State).cfg.syncPollMax = some m ∧ m ≤ 0) ∧
    (∀ chip, ∀ m, (polling chip).cfg.syncPollMax = some m → 0 < m) ∧
    ((polling ([.gives [0xFB]] : List ChipAnswer)).chip = .gives (0xFB :: []) :: [] ∧ (0xFB : Byte) &&& 0x87 = 0x83) ∧
    ((polling ([.gives [0x81]] : List ChipAnswer)).chip = .gives (0x81 :: []) :: [] ∧ (0x81 : Byte) &&& 0x87 ≠ 0x83) ∧
    (polling ([.fails] : List ChipAnswer)).chip = .fails :: [] := by
  refine ⟨fun _ => ⟨rfl, rfl⟩, rfl, ⟨0, rfl, le_rfl⟩, ?_, by decide, by decide, rfl⟩
  intro _ m h; cases h

theorem witness_ArbiterIsSuspendedWhenNothingIsPending :
    (stopped []).st.running = false ∧ (stopped []).st.irqPending = 0 ∧ (listening []).st.msgPending = 0 ∧
    (listening []).st.stopPending = false := by decide

theorem witness_InterruptFlagsAreAlwaysCleared :
    (listening []).st.running = true ∧ 0 < (listening []).st.irqPending ∧
    (∃ t, exec .evIrq (listening ([.fails, .fails] : List ChipAnswer)) = .next t) :=
  ⟨rfl, by decide, ⟨_, rfl⟩⟩

/-- With a finite `RXBUF_CAP` that is not reached, too. -/
theorem witness_EventStepsNeverStopTheLoop :
    State.Inv { listening [] with cfg := { smallCfg with rxbufCap := some 1 } } ∧
    (∀ c, ({ smallCfg with rxbufCap := some 1 } : Config).rxbufCap = some c → (listening []).st.rxbuf.length < c) := by
  refine ⟨?_, fun c h => by cases h; decide⟩
  constructor <;>
    simp [listening, stopped, receivingSt, LinkState.reset, State.reset, smallCfg, State.transmitting, modeTx_eq, Decided.legalMode] <;>
    decide

/-- A packet of the greatest length and one of length 0, received; each failing at its first and at its last transaction; and a
read of the flags that fails. -/
theorem witness_ReceivedPacketIsAppended :
    (∀ chip, (listening chip).decidedDefaults ∧ (listening chip).st.running = true ∧ 0 < (listening chip).st.irqPending ∧ (listening chip).st.mode = some 0x85 ∧
      (listening chip).st.params = some p0 ∧ (listening chip).chip = chip ∧
      ∀ c, (listening chip).cfg.rxbufCap = some c → (listening chip).st.rxbuf.length < c) ∧
    (0xC0 : Byte).getLsbD 6 = true ∧ (0xC0 : Byte).getLsbD 5 = false ∧
    ((List.replicate 255 (0x5A : Byte)).length = (0xFF : Byte).toNat ∧ ([] : List Byte).length = (0x00 : Byte).toNat) ∧
    (0 < (rxPacketTxns 0x00 0x10 0x80 0x00 [] []).length ∧ 4 < (rxPacketTxns 0x00 0x10 0x80 0x00 [] []).length ∧
      0 < (rxPacketTxns 0xFF 0x10 0x80 0x00 [] (List.replicate 255 0x5A)).length ∧
      5 < (rxPacketTxns 0xFF 0x10 0x80 0x00 [] (List.replicate 255 0x5A)).length) ∧
    ({ listening [] with cfg := { smallCfg with rxbufCap := some 0 } } : State).decidedDefaults ∧
    (∃ c, ({ listening [] with cfg := { smallCfg with rxbufCap := some 0 } } : State).cfg.rxbufCap = some c ∧
      c ≤ (listening []).st.rxbuf.length) := by
  refine ⟨fun chip => ⟨rfl, rfl, Nat.one_pos, rfl, rfl, rfl, fun c h => by cases h⟩, by decide, by decide, by decide +kernel, by decide +kernel,
    rfl, ⟨0, rfl, le_rfl⟩⟩

theorem witness_InterruptWithoutItsFlagChangesNothing :
    (∀ f ∈ [(0x60 : Byte), 0x80], let s := listening ([.gives [f], ack] : List ChipAnswer)
      s.decidedDefaults ∧ s.st.running = true ∧ 0 < s.st.irqPending ∧ s.chip = .gives [f] :: .gives [] :: [] ∧ s.st.mode = some 0x85 ∧
      (f.getLsbD 5 = true ∨ f.getLsbD 6 = false)) ∧
    ( let s := sending [[1]] ([.gives [0x40], ack] : List ChipAnswer)
      s.decidedDefaults ∧ s.st.running = true ∧ 0 < s.st.irqPending ∧ s.chip = .gives [0x40] :: .gives [] :: [] ∧ s.st.mode = some 0x83 ∧
      (0x40 : Byte).getLsbD 3 = false) ∧
    ( let s := { stopped ([.gives [0x48], ack] : List ChipAnswer) with st := { receivingSt with mode := some 0x81, irqPending := 1 } }
      s.decidedDefaults ∧ s.st.running = true ∧ 0 < s.st.irqPending ∧ s.chip = .gives [0x48] :: .gives [] :: [] ∧ s.st.mode ≠ some 0x85 ∧
      s.st.mode ≠ some 0x83) := by decide +kernel

theorem witness_TransmitCompleteReturnsToReceive :
    (∀ chip, (sending [] chip).decidedDefaults) ∧ (sending [] []).st.running = true ∧ 0 < (sending [] []).st.irqPending ∧ (sending [] []).st.mode = some 0x83 ∧
    (sending [] []).st.txStart = some 40 ∧ (sending [] []).st.backlog = [] ∧ (0x48 : Byte).getLsbD 3 = true ∧
    (sending [] ([.gives [0x48], ack, ack, ack] : List ChipAnswer)).chip = .gives [0x48] :: .gives [] :: .gives [] :: .gives [] :: [] ∧
    (sending [] ([.gives [0x48], .fails, ack] : List ChipAnswer)).chip = .gives [0x48] :: .fails :: .gives [] :: [] ∧
    (sending [] ([.gives [0x48], ack, .fails, ack] : List ChipAnswer)).chip = .gives [0x48] :: .gives [] :: .fails :: .gives [] :: [] :=
  ⟨fun _ => rfl, by decide⟩

theorem witness_TransmitCompleteStartsTheNextMessage :
    let s := sending [[0x41], [0x42]] (.gives [0x08] :: List.replicate 7 ack)
    s.decidedDefaults ∧ s.st.running = true ∧ 0 < s.st.irqPending ∧ s.st.mode = some 0x83 ∧ s.st.txStart = some 40 ∧
    s.st.backlog = [0x41] :: [[0x42]] ∧ (0x08 : Byte).getLsbD 3 = true ∧ (List.replicate 7 ([] : List Byte)).length = 7 ∧
    s.chip = .gives [0x08] :: ((List.replicate 7 []).map ChipAnswer.gives ++ []) := by decide +kernel

/-- The states that the two faults need: TX without a start time, RXCONTINUOUS without parameters. -/
theorem witness_MissingValuesAreFaults :
    ( let s := { sending [] ([.gives [0x08]] : List ChipAnswer) with st := { (sending [] []).st with txStart := none } }
      s.decidedDefaults ∧ s.st.running = true ∧ 0 < s.st.irqPending ∧ s.st.mode = some 0x83 ∧ s.st.txStart = none ∧ (0x08 : Byte).getLsbD 3 = true ∧
      s.chip = .gives [0x08] :: []) ∧
    ( let script : List ChipAnswer := ([.gives [0x40], .gives [1], .gives [0], .gives [], .gives [0xAA], .gives [2], .gives [3]] : List ChipAnswer) ++ []
      let s := { listening script with st := { (listening []).st with params := none } }
      s.decidedDefaults ∧ s.st.running = true ∧ 0 < s.st.irqPending ∧ s.st.mode = some 0x85 ∧ s.st.params = none ∧ (0x40 : Byte).getLsbD 6 = true ∧
      (0x40 : Byte).getLsbD 5 = false ∧ (1 : Byte) ≠ 0 ∧ [(0xAA : Byte)].length = (1 : Byte).toNat ∧ s.chip = script) := by decide +kernel

theorem witness_NewMessageStartsWhenIdle :
    ( let s := sending [[0x41]] []
      s.decidedDefaults ∧ s.st.running = true ∧ 0 < s.st.msgPending ∧ s.st.mode = some 0x83) ∧
    ( let s := { stopped [] with st := { receivingSt with msgPending := 1 } }
      s.decidedDefaults ∧ s.st.running = true ∧ 0 < s.st.msgPending ∧ s.st.backlog = []) ∧
    ( let s := { stopped (List.replicate 6 ack) with st := { receivingSt with msgPending := 1, backlog := [[0x41], [0x42]] } }
      s.decidedDefaults ∧ s.st.running = true ∧ 0 < s.st.msgPending ∧ s.st.mode ≠ some 0x83 ∧ s.st.backlog = [0x41] :: [[0x42]] ∧
      (List.replicate 6 ([] : List Byte)).length = 6 ∧ s.chip = (List.replicate 6 []).map ChipAnswer.gives ++ []) := by decide +kernel

theorem witness_FailedStartConsumesTheMessage :
    ∀ n ∈ [0, 5], let s := { stopped (List.replicate n ack ++ ([.fails] : List ChipAnswer)) with
                              st := { receivingSt with msgPending := 1, backlog := [[0x41]] } }
      s.decidedDefaults ∧ s.st.running = true ∧ 0 < s.st.msgPending ∧ s.st.mode ≠ some 0x83 ∧ s.st.backlog = [0x41] :: [] ∧
      (List.replicate n ([] : List Byte)).length < 6 ∧
      s.chip = (List.replicate n []).map ChipAnswer.gives ++ .fails :: [] := by decide +kernel


/-- Its clause on EV_IRQ. -/
theorem witness_FailedStartConsumesTheMessage_irq :
    ∀ n ∈ [0, 5], let s := sending [[0x41]] (.gives [0x08] :: (List.replicate n ack ++ ([.fails, ack] : List ChipAnswer)))
      s.decidedDefaults ∧ s.st.running = true ∧ 0 < s.st.irqPending ∧ s.st.mode = some 0x83 ∧ s.st.txStart = some 40 ∧
      s.st.backlog = [0x41] :: [] ∧ (0x08 : Byte).getLsbD 3 = true ∧ (List.replicate n ([] : List Byte)).length < 6 ∧
      s.chip = .gives [0x08] :: ((List.replicate n []).map ChipAnswer.gives ++ .fails :: .gives [] :: []) := by decide +kernel

theorem witness_StopEventEndsTheLoop :
    ∀ chip ∈ [[ChipAnswer.fails], [ack]], let s := { listening chip with st := { receivingSt with stopPending := true } }
      s.decidedDefaults ∧ s.st.running = true ∧ s.st.stopPending = true ∧ some (nextAnswer s) = chip.head? := by decide +kernel

theorem witness_FrameOfArbiterSteps :
    (∃ t, exec .start { stopped [ack, ack] with st := configuredSt } = .next t) ∧
    (∃ t, exec (.sendSync [1]) (listening (List.replicate 6 ack)) = .next t) ∧
    (∃ t, exec .evIrq (sending [[1]] (.gives [0x08] :: List.replicate 7 ack)) = .next t) ∧
    (∃ t, exec .evMsg (sending [[1]] []) = .next t) ∧
    (∃ t, exec .evStop { listening [ack] with st := { receivingSt with stopPending := true } } = .next t) ∧
    (∃ t, syncStep 1 (suspended 0x85 .free true (List.replicate 6 ack)) = .next t) ∧
    (∃ t, syncStep 1 (suspended 0x85 .free true [ack, .fails]) = .next t) :=
  ⟨⟨_, rfl⟩, ⟨_, rfl⟩, ⟨_, rfl⟩, ⟨_, rfl⟩, ⟨_, rfl⟩, ⟨_, rfl⟩, ⟨_, rfl⟩⟩

/-- Its clauses on an agent that does not begin, and on the other agents. -/
theorem witness_FrameOfArbiterSteps_poll :
    let s := { polling ([.gives [0x81]] : List ChipAnswer) with syncs := [⟨1, .polling 0⟩, ⟨2, .waiting [0x41]⟩], port := [0x02], nextSyncId := 3 }
    (∃ t, syncStep 1 s = .next t) ∧ (∀ msg, ⟨1, .waiting msg⟩ ∉ s.syncs) ∧ ∃ a ∈ s.syncs, a.id ≠ 1 := by
  refine ⟨⟨_, rfl⟩, fun msg h => ?_, ⟨2, .waiting [0x41]⟩, by simp, by simp⟩
  simp at h

theorem witness_InterruptEdgesAreCounted :
    (stopped []).st.irqRegistered = false ∧
    ((listening []).st.irqRegistered = true ∧ (listening []).cfg.irqQueueDepth = none) ∧
    ( let s := { listening [] with cfg := { smallCfg with irqQueueDepth := some 1 } }
      s.st.irqRegistered = true ∧ s.cfg.irqQueueDepth = some 1 ∧ ¬ s.st.irqPending < 1) ∧
    ( let s := { listening [] with cfg := { smallCfg with irqQueueDepth := some 2 } }
      s.st.irqRegistered = true ∧ s.cfg.irqQueueDepth = some 2 ∧ s.st.irqPending < 2) := by decide

theorem witness_BusIsTouchedByItsOwnersOnly :
    (∃ t, exec (.send [1]) (listening []) = .next t) ∧ (∃ t, exec .stop (listening []) = .next t) ∧
    (∃ t, exec .flushRx (listening []) = .next t) ∧ (∃ t, exec .evMsg (stopped []) = .next t) ∧
    (seen (exec (.packetEncode (List.replicate 200 0)) (listening [])) (fun t => t.responses.length)) = some 1 ∧
    (seen (exec (.packetDecode (List.replicate 255 0)) (listening [])) (fun t => t.responses.length)) = some 1 ∧
    (stopped []).st.running = false :=
  ⟨⟨_, rfl⟩, ⟨_, rfl⟩, ⟨_, rfl⟩, ⟨_, rfl⟩, by decide +kernel, by decide +kernel, rfl⟩

/-- Its clauses on a step of an agent: one that does not poll and holds, one that polls. -/
theorem witness_BusIsTouchedByItsOwnersOnly_agent :
    ((∀ mode lock running chip, (suspended mode lock running chip).decidedDefaults) ∧ ∀ chip, (polling chip).decidedDefaults) ∧
    (∃ t, syncStep 1 (suspended 0x85 .free false []) = .next t) ∧
    ((∀ n, ⟨1, .polling n⟩ ∉ (suspended 0x85 .free false []).syncs) ∧ (suspended 0x85 .free false []).st.running = false ∧
      (suspended 0x85 .arb true []).st.txLock ≠ .free ∧ (suspended 0x83 .free true []).st.mode = some 0x83) ∧
    (∃ t, syncStep 1 (polling ([.gives [0x81]] : List ChipAnswer)) = .next t) ∧
    (∀ msg, ⟨1, .waiting msg⟩ ∉ (polling ([.gives [0x81]] : List ChipAnswer)).syncs) := by
  refine ⟨⟨fun _ _ _ _ => rfl, fun _ => rfl⟩, ⟨_, rfl⟩, ⟨fun n h => ?_, rfl, by decide, rfl⟩, ⟨_, rfl⟩, fun msg h => ?_⟩
  · simp [suspended] at h
  · simp [polling] at h

end Sys2Proof.Tests
end

/-! PROOFS. The outputs of a step (O14, O15): what every sub-operation, command and agent step adds to the bus trace, the
responses and the log, said once for both obligations by `OutputsGrow`. -/

namespace Sys2Proof.Machine

/-! ## The relation between the outputs before and after -/

/-- From `s` to `t` the outputs only grow, time does not go back and the parameters stay; and given `ok`, every transaction
added is one the register map lists. `ok` is the premise under which the waiting messages have 1 to 255 bytes: all else holds
without it. -/
structure OutputsGrow (ok : Prop) (s t : State) : Prop where
  trace : ∃ new, t.trace = s.trace ++ new ∧ (ok → ∀ x ∈ new, s.cfg.listedTxn x)
  responses : s.responses <+: t.responses
  log : s.log <+: t.log
  clock : s.clock ≤ t.clock
  cfg : t.cfg = s.cfg

/-- The outputs of a state, with the time and the parameters. -/
def State.outputs (s : State) : List BusTxn × List Response × List LogEvent × Nat × Config :=
  (s.trace, s.responses, s.log, s.clock, s.cfg)

section
variable {ok : Prop} {s t u : State}

/-- A change of anything else is no change of the outputs. -/
theorem OutputsGrow.of_outputs_eq (h : t.outputs = s.outputs := by rfl) : OutputsGrow ok s t := by
  simp only [State.outputs, Prod.mk.injEq] at h
  obtain ⟨htrace, hresponses, hlog, hclock, hcfg⟩ := h
  exact ⟨⟨[], by simp [htrace], by simp⟩, by simp [hresponses], by simp [hlog], hclock.ge, hcfg⟩

theorem OutputsGrow.trans (h1 : OutputsGrow ok s t) (h2 : OutputsGrow ok t u) : OutputsGrow ok s u := by
  obtain ⟨n1, e1, l1⟩ := h1.trace
  obtain ⟨n2, e2, l2⟩ := h2.trace
  rw [h1.cfg] at l2
  refine ⟨⟨n1 ++ n2, by rw [e2, e1, List.append_assoc], fun ho x hx => ?_⟩, h1.responses.trans h2.responses,
    h1.log.trans h2.log, h1.clock.trans h2.clock, h2.cfg.trans h1.cfg⟩
  exact (List.mem_append.mp hx).elim (l1 ho x) (l2 ho x)

/-- Another state with the same outputs may stand at the start, -/
theorem OutputsGrow.from_eq (h : OutputsGrow ok t u) (he : t.outputs = s.outputs := by rfl) : OutputsGrow ok s u :=
  (OutputsGrow.of_outputs_eq he).trans h

/-- and at the end. -/
theorem OutputsGrow.to_eq (h : OutputsGrow ok s t) (he : u.outputs = t.outputs := by rfl) : OutputsGrow ok s u :=
  h.trans (.of_outputs_eq he)

/-- A sub-operation, by what it adds to the bus trace. -/
theorem OutputsGrow.of_subOp {new : List BusTxn} (h : SubOp s t) (ht : t.trace = s.trace ++ new)
    (hl : ok → ∀ x ∈ new, s.cfg.listedTxn x) : OutputsGrow ok s t :=
  ⟨⟨new, ht, hl⟩, by rw [h.responses], h.log, h.clock, h.cfg⟩

theorem OutputsGrow.of_record (n : Nat) {x : BusTxn} (hx : ok → s.cfg.listedTxn x) :
    OutputsGrow ok s ((s.useAnswer n).record x) :=
  ⟨⟨[x], rfl, by simpa using hx⟩, List.prefix_rfl, List.prefix_rfl, le_rfl, rfl⟩

theorem OutputsGrow.of_log (e : LogEvent) : OutputsGrow ok s (s.logEvent e) :=
  .of_subOp (new := []) (.of_log s e) (by simp) (by simp)

theorem OutputsGrow.of_sampleTime : OutputsGrow ok s s.sampleTime :=
  .of_subOp (new := []) (.of_sampleTime s) (by simp) (by simp)

theorem OutputsGrow.of_respond (id : Option Nat) (e : Status) (r : Results) : OutputsGrow ok s (s.respond id e r) :=
  ⟨⟨[], by simp, by simp⟩, List.prefix_append _ _, List.prefix_rfl, le_rfl, rfl⟩

/-- A sub-operation whose answer is known left the state that stands in the answer. -/
theorem OutputsGrow.of_done {α : Type} {r : Res α} {a : α} (h : OutputsGrow ok s r.state) (hr : r = .done a t) :
    OutputsGrow ok s t := by
  subst hr; exact h

theorem OutputsGrow.of_raised {α : Type} {r : Res α} {e : Status} (h : OutputsGrow ok s r.state) (hr : r = .raised e t) :
    OutputsGrow ok s t := by
  subst hr; exact h

/-- The rule of sequence: each part is judged from the state it starts in. -/
theorem OutputsGrow.andThen {α β : Type} {r : Res α} {f : α → State → Res β} (h : OutputsGrow ok s r.state)
    (hf : ∀ a t, OutputsGrow ok t (f a t).state) : OutputsGrow ok s (r.andThen f).state := by
  cases r with
  | done a t => exact h.trans (hf a t)
  | raised e t => exact h

/-- The end of a command adds its response. -/
theorem OutputsGrow.endCommand {r : Res Unit} (ht : endCommand r = .next t) (h : OutputsGrow ok s r.state) :
    OutputsGrow ok s t := by
  obtain ⟨e, he⟩ := endCommand_eq_next r
  cases he.symm.trans ht
  exact h.trans (.of_respond _ _ _)

end

/-! ## Which transactions the register map lists -/

/-- The registers the block writes for which the map lists no values (R45). -/
def freelyWrittenRegs : List RegAddr :=
  writableRegs.filter fun reg => reg ∉ ([0x01, 0x0E, 0x0F, 0x12, 0x40] : List RegAddr)

section
variable {d : Decided}

theorem listedTxn_setByte {reg : RegAddr} (h : reg ∈ freelyWrittenRegs) (v : Byte) (b : Bool) :
    d.listedTxn (.setByte reg v b) := by
  simp only [freelyWrittenRegs, List.mem_filter, List.mem_cons, List.not_mem_nil, or_false, not_or, decide_eq_true_iff] at h
  obtain ⟨hw, h01, h0E, h0F, h12, h40⟩ := h
  exact ⟨hw, (absurd · h01), (Or.elim · (absurd · h0E) (absurd · h0F)), (absurd · h12), (absurd · h40)⟩

/-- A write of a legal mode byte (R16). -/
theorem listedTxn_setMode {m : Byte} (h : d.legalMode m) (b : Bool) : d.listedTxn (.setByte regOpMode m b) := by
  simpa [Decided.listedTxn, writableRegs, regOpMode] using h

/-- The FIFO base addresses are written with zero. -/
theorem listedTxn_fifoBase {reg : RegAddr} (h : reg = regFifoTxBase ∨ reg = regFifoRxBase) (b : Bool) :
    d.listedTxn (.setByte reg 0 b) := by
  rcases h with rfl | rfl <;> simp [Decided.listedTxn, writableRegs, regFifoTxBase, regFifoRxBase]

/-- The flags are cleared by writing all ones (R82). -/
theorem listedTxn_clearFlags (b : Bool) : d.listedTxn (.setByte regIrqFlags irqClearAll b) := by
  simp [Decided.listedTxn, writableRegs, regIrqFlags, irqClearAll]

/-- The two DIO mappings (R83). -/
theorem listedTxn_dioMapping {v : Byte} (h : v = d.dioMapRxDone ∨ v = d.dioMapTxDone) (b : Bool) :
    d.listedTxn (.setByte regDioMapping1 v b) := by
  simpa [Decided.listedTxn, writableRegs, regDioMapping1] using h

theorem legalMode_sleep : d.legalMode d.modeSleep := .inl rfl
theorem legalMode_standby : d.legalMode d.modeStandby := .inr (.inl rfl)
theorem legalMode_tx : d.legalMode d.modeTx := .inr (.inr (.inl rfl))
theorem legalMode_rxContinuous : d.legalMode d.modeRxContinuous := .inr (.inr (.inr rfl))

end

/-! ## The shared operations -/

section
variable {ok : Prop}

theorem getByte_outputs {reg : RegAddr} (h : reg ∈ readableRegs) (s : State) : OutputsGrow ok s (getByte reg s).state := by
  unfold getByte
  split <;> exact .of_record _ fun _ => h

theorem getBytes_outputs {n : Nat} (h1 : 1 ≤ n) (h2 : n ≤ 255) (s : State) :
    OutputsGrow ok s (getBytes s.cfg.regFifo n s).state := by
  unfold getBytes
  split <;> exact .of_record _ fun _ => ⟨rfl, h1, h2⟩

theorem setByte_outputs {reg : RegAddr} {v : Byte} {s : State} (h : ∀ b, s.cfg.listedTxn (.setByte reg v b)) :
    OutputsGrow ok s (setByte reg v s).state := by
  unfold setByte
  split <;> exact .of_record _ fun _ => h _

theorem setBytes_outputs {msg : List Byte} (h : ok → messageOk msg) (s : State) :
    OutputsGrow ok s (setBytes s.cfg.regFifo msg s).state := by
  unfold setBytes
  split <;> exact .of_record _ fun ho => ⟨rfl, h ho⟩

/-- A write of a register for which the map lists no values. -/
theorem setByte_free_outputs {reg : RegAddr} (h : reg ∈ freelyWrittenRegs) (v : Byte) (s : State) :
    OutputsGrow ok s (setByte reg v s).state :=
  setByte_outputs (listedTxn_setByte h v)

theorem setMode_outputs {m : Byte} {s : State} (h : s.cfg.legalMode m) : OutputsGrow ok s (setMode m s).state :=
  (setByte_outputs (listedTxn_setMode h)).andThen fun _ _ => .of_outputs_eq

theorem getMode_outputs (s : State) : OutputsGrow ok s (getMode s).state :=
  (getByte_outputs (by decide) s).andThen fun _ _ => .of_outputs_eq

theorem enterRx_outputs (s : State) : OutputsGrow ok s (enterRx s).state :=
  (setByte_outputs (listedTxn_dioMapping (.inl rfl))).andThen fun _ _ => setMode_outputs legalMode_rxContinuous

theorem beginTx_outputs {msg : List Byte} (h : ok → messageOk msg) (s : State) : OutputsGrow ok s (beginTx msg s).state :=
  (setMode_outputs legalMode_standby).andThen fun _ _ =>
  (setByte_free_outputs (by decide) _ _).andThen fun _ _ =>
  (setBytes_outputs h _).andThen fun _ _ =>
  (setByte_free_outputs (by decide) _ _).andThen fun _ _ =>
  (setByte_outputs (listedTxn_dioMapping (.inr rfl))).andThen fun _ _ =>
  (setMode_outputs legalMode_tx).andThen fun _ _ => OutputsGrow.of_sampleTime.to_eq

theorem startNext_outputs {s : State} (h : ok → ∀ msg ∈ s.st.backlog, messageOk msg) : OutputsGrow ok s (startNext s) := by
  unfold startNext
  split
  · exact .of_outputs_eq
  next msg rest hb =>
    have hmsg : ok → messageOk msg := fun ho => h ho msg (by simp [hb])
    have hbegin := beginTx_outputs hmsg { s with st := { s.st with backlog := rest, txLock := .arb } }
    split
    next hr => exact (hbegin.of_done hr).from_eq
    next hr => exact ((hbegin.of_raised hr).from_eq.trans (.of_log .txStartFailed)).to_eq

/-! ## INITIALIZE -/

/-- A read of a register, then a write of it that depends on the byte read. -/
theorem readModifyWrite_outputs {reg : RegAddr} (hr : reg ∈ readableRegs) (hw : reg ∈ freelyWrittenRegs) (f : Byte → Byte)
    (s : State) : OutputsGrow ok s ((getByte reg s).andThen fun v s => setByte reg (f v) s).state :=
  (getByte_outputs hr s).andThen fun _ _ => setByte_free_outputs hw _ _

theorem setBandwidth_outputs (bw : BitVec 32) (s : State) : OutputsGrow ok s (setBandwidth bw s).state := by
  unfold setBandwidth
  split
  · exact .of_outputs_eq
  · exact readModifyWrite_outputs (by decide) (by decide) _ s

theorem setSpreadingFactor_outputs (sf : Byte) (s : State) : OutputsGrow ok s (setSpreadingFactor sf s).state := by
  unfold setSpreadingFactor
  split
  · exact readModifyWrite_outputs (by decide) (by decide) _ s
  · exact .of_outputs_eq

theorem setCodingRate_outputs (cr : Byte) (s : State) : OutputsGrow ok s (setCodingRate cr s).state := by
  unfold setCodingRate
  split
  · exact readModifyWrite_outputs (by decide) (by decide) _ s
  · exact .of_outputs_eq

theorem setPreamble_outputs (n : BitVec 16) (s : State) : OutputsGrow ok s (setPreamble n s).state := by
  unfold setPreamble
  split
  · exact (setByte_free_outputs (by decide) _ s).andThen fun _ _ => setByte_free_outputs (by decide) _ _
  · exact .of_outputs_eq

theorem setFrequency_outputs (f : BitVec 64) (s : State) : OutputsGrow ok s (setFrequency f s).state :=
  (setByte_free_outputs (by decide) _ s).andThen fun _ _ =>
  (setByte_free_outputs (by decide) _ _).andThen fun _ _ => setByte_free_outputs (by decide) _ _

theorem programOps_outputs (p : RadioParameters) (s : State) : OutputsGrow ok s (programOps p s).state :=
  (setByte_outputs (listedTxn_fifoBase (.inl rfl))).andThen fun _ _ =>
  (setByte_outputs (listedTxn_fifoBase (.inr rfl))).andThen fun _ _ =>
  (setMode_outputs legalMode_standby).andThen fun _ _ =>
  (setBandwidth_outputs _ _).andThen fun _ _ =>
  (setSpreadingFactor_outputs _ _).andThen fun _ _ =>
  (setCodingRate_outputs _ _).andThen fun _ _ =>
  (setPreamble_outputs _ _).andThen fun _ _ =>
  (setFrequency_outputs _ _).andThen fun _ _ =>
  (setByte_free_outputs (by decide) _ _).andThen fun _ _ => setByte_free_outputs (by decide) _ _

theorem programChip_outputs (p : RadioParameters) (s : State) : OutputsGrow ok s (programChip p s).state := by
  rw [programChip_eq]
  exact (programOps_outputs p _).from_eq.andThen fun _ _ => .of_outputs_eq

theorem attemptWrite_outputs (s : State) : OutputsGrow ok s (attemptWrite s) := by
  have h := setMode_outputs (ok := ok) (s := s) legalMode_sleep
  unfold attemptWrite
  split
  next hr => exact h.of_done hr
  next hr => exact (h.of_raised hr).trans (.of_log _)

theorem attemptRead_outputs (s : State) : OutputsGrow ok s (attemptRead s).2 := by
  have h := getMode_outputs (ok := ok) s
  unfold attemptRead
  split
  next hr => exact h.of_done hr
  next hr => exact (h.of_raised hr).trans (.of_log _)

theorem verifySleep_outputs (n : Nat) (s : State) : OutputsGrow ok s (verifySleep n s).2 := by
  induction n generalizing s with
  | zero => exact .of_outputs_eq
  | succ n ih =>
    have h := (attemptWrite_outputs (ok := ok) s).trans (attemptRead_outputs _)
    unfold verifySleep
    split
    next hr => rw [hr] at h; exact h
    next hr => rw [hr] at h; exact h.trans (ih _)

theorem initializeChip_outputs (p : RadioParameters) (s : State) : OutputsGrow ok s (initializeChip p s).state := by
  have h := verifySleep_outputs (ok := ok) initAttempts { s with st := { s.st with configured := false } }
  unfold initializeChip
  split
  next hr => rw [hr] at h; exact h.from_eq.trans (programChip_outputs p _)
  next hr => rw [hr] at h; exact h.from_eq

/-! ## The parts of the arbiter's event steps -/

theorem readPacket_outputs (s : State) : OutputsGrow ok s (readPacket s).state := by
  refine (getByte_outputs (by decide) s).andThen fun n _ => (getByte_outputs (by decide) _).andThen fun _ _ =>
    (setByte_free_outputs (by decide) _ _).andThen fun _ c => OutputsGrow.andThen ?_ fun _ _ =>
    (getByte_outputs (by decide) _).andThen fun _ _ => (getByte_outputs (by decide) _).andThen fun _ _ => .of_outputs_eq
  -- the bulk read: a length byte other than 0 is 1 to 255
  split
  · exact .of_outputs_eq
  next hn =>
    have hpos : n.toNat ≠ 0 := fun h => hn (BitVec.eq_of_toNat_eq h)
    exact getBytes_outputs (by omega) (by omega) c

theorem rxPacket_outputs {s t : State} (h : rxPacket s = .next t) : OutputsGrow ok s t := by
  have hp := readPacket_outputs (ok := ok) s
  unfold rxPacket at h
  split at h
  next hr => cases h; exact (hp.of_raised hr).trans (.of_log _)
  next hr =>
    split at h
    · cases h
    · split at h
      · cases h
      · cases h
        exact ((hp.of_done hr).trans .of_sampleTime).to_eq

theorem afterTx_outputs {s : State} (h : ok → ∀ msg ∈ s.st.backlog, messageOk msg) : OutputsGrow ok s (afterTx s) := by
  have hrx := enterRx_outputs (ok := ok) s
  unfold afterTx
  split
  · split
    next hr => exact hrx.of_done hr
    next hr => exact (hrx.of_raised hr).trans (.of_log _)
  · exact startNext_outputs h

theorem txBranch_outputs {flags : Byte} {s t : State} (h : txBranch flags s = .next t)
    (hb : ok → ∀ msg ∈ s.st.backlog, messageOk msg) : OutputsGrow ok s t := by
  cases hf : flagSet flags s.cfg.irqTxDone with
  | false => rw [txBranch_idle s hf] at h; cases h; exact .of_outputs_eq
  | true =>
    cases h0 : s.st.txStart with
    | none => simp [txBranch, hf, h0] at h
    | some t0 =>
      rw [txBranch_txDone hf h0] at h
      cases h
      have hdone : OutputsGrow ok s (txDone s t0) :=
        (OutputsGrow.of_sampleTime.trans (.of_log (.txElapsed (nextTime s - t0)))).to_eq
      exact hdone.trans (afterTx_outputs hb)

theorem irqBranch_outputs {mode flags : Option Byte} {s t : State} (h : irqBranch mode flags s = .next t)
    (hb : ok → ∀ msg ∈ s.st.backlog, messageOk msg) : OutputsGrow ok s t := by
  unfold irqBranch at h
  split at h
  · -- TX
    split at h
    · exact txBranch_outputs h hb
    · cases h; exact .of_outputs_eq
  · split at h
    · -- RXCONTINUOUS
      split at h
      · unfold rxBranch at h
        split at h
        · exact rxPacket_outputs h
        · cases h; exact .of_outputs_eq
      · cases h; exact .of_outputs_eq
    · cases h; exact .of_outputs_eq

theorem readIrqFlags_outputs (s : State) : OutputsGrow ok s (readIrqFlags s).2 := by
  obtain ⟨-, -, hsub, htrace, -⟩ := readIrqFlags_spec s
  exact .of_subOp hsub htrace fun _ x hx => by rw [List.mem_singleton.mp hx]; exact (by decide : regIrqFlags ∈ readableRegs)

theorem clearIrqFlags_outputs (s : State) : OutputsGrow ok s (clearIrqFlags s) := by
  obtain ⟨b, htrace, -, -, -, -, -, hsub⟩ := clearIrqFlags_spec s
  exact .of_subOp hsub htrace fun _ x hx => by rw [List.mem_singleton.mp hx]; exact listedTxn_clearFlags b

theorem handleIrq_outputs {s t : State} (h : handleIrq s = .next t)
    (hb : ok → ∀ msg ∈ s.st.backlog, messageOk msg) : OutputsGrow ok s t := by
  obtain ⟨s', hs'⟩ : ∃ s', s' = { s with st := { s.st with irqPending := s.st.irqPending - 1 } } := ⟨_, rfl⟩
  have hread : OutputsGrow ok s (readIrqFlags s').2 :=
    (readIrqFlags_outputs s').from_eq (by rw [hs']; rfl)
  have hbacklog : (readIrqFlags s').2.st.backlog = s.st.backlog := by rw [(readIrqFlags_spec s').1, hs']
  unfold handleIrq at h
  rw [← hs'] at h
  cases hi : irqBranch s.st.mode (readIrqFlags s').1 (readIrqFlags s').2 with
  | next u =>
    simp only [hi, onNext_next] at h
    cases h
    exact hread.trans ((irqBranch_outputs hi (by rwa [hbacklog])).trans (clearIrqFlags_outputs u))
  | fault e => simp [hi] at h
  | refused e => simp [hi] at h

theorem handleMsg_outputs {s : State} (hb : ok → ∀ msg ∈ s.st.backlog, messageOk msg) : OutputsGrow ok s (handleMsg s) := by
  have hnext := startNext_outputs (s := { s with st := { s.st with msgPending := s.st.msgPending - 1 } }) hb
  unfold handleMsg
  dsimp only
  split
  · exact .of_outputs_eq
  · exact hnext.from_eq

theorem enterStandbyForStop_outputs (s : State) : OutputsGrow ok s (enterStandbyForStop s) := by
  have h := setMode_outputs (ok := ok) (s := s) legalMode_standby
  unfold enterStandbyForStop
  split
  next hr => exact h.of_done hr
  next hr => exact (h.of_raised hr).trans (.of_log _)

/-! ## The steps of a SEND_SYNC -/

theorem syncBegin_outputs {id : Nat} {msg : List Byte} {s t : State} (h : syncBegin id msg s = .next t)
    (hm : ok → messageOk msg) : OutputsGrow ok s t := by
  have hbegin := beginTx_outputs hm { s with st := { s.st with txLock := .sync id } }
  unfold syncBegin at h
  split at h
  next hr => cases h; exact (hbegin.of_done hr).from_eq.to_eq
  next e _ hr => cases h; exact ((hbegin.of_raised hr).from_eq.trans (.of_respond (some id) e .none)).to_eq

theorem syncPoll_outputs {id n : Nat} {s t : State} (h : syncPoll id n s = .next t) : OutputsGrow ok s t := by
  obtain ⟨⟨hclock, hlog, -, -, -, hcfg, a, htrace⟩, hcase⟩ := syncPoll_spec h
  have hresp : s.responses <+: t.responses := by
    rcases hcase with ⟨-, hr, -⟩ | ⟨-, ⟨e, -, hr⟩, -⟩
    · rw [hr]
    · rw [hr]; exact List.prefix_append _ _
  refine ⟨⟨_, htrace, fun _ x hx => ?_⟩, hresp, by rw [hlog], hclock.ge, hcfg⟩
  rw [List.mem_singleton.mp hx]
  exact (by decide : regOpMode ∈ readableRegs)

theorem syncStep_outputs {id : Nat} {s t : State} (h : syncStep id s = .next t)
    (hw : ok → ∀ a ∈ s.syncs, ∀ msg, a.phase = .waiting msg → messageOk msg) : OutputsGrow ok s t := by
  unfold syncStep at h
  split at h
  · cases h; exact .of_outputs_eq
  next a hfind =>
    split at h
    next msg hphase =>
      split at h
      · exact syncBegin_outputs h fun ho => hw ho a (List.mem_of_find?_eq_some hfind) msg hphase
      · cases h; exact .of_outputs_eq
    next => exact syncPoll_outputs h

/-! ## The commands and the event steps -/

theorem execConfigure_outputs {p : RadioParameters} {s t : State} (h : execConfigure p s = .next t) : OutputsGrow ok s t := by
  unfold execConfigure at h
  split at h
  · cases h
  · split at h
    · split at h
      · exact .endCommand h (initializeChip_outputs p _).from_eq
      · cases h
    · exact .endCommand h .of_outputs_eq

theorem execReconfigure_outputs {p : RadioParameters} {s t : State} (h : execReconfigure p s = .next t) : OutputsGrow ok s t := by
  unfold execReconfigure at h
  split at h
  · exact .endCommand h .of_outputs_eq
  · split at h
    · split at h
      · exact .endCommand h <| (setMode_outputs legalMode_standby).andThen fun _ _ =>
          (initializeChip_outputs p _).from_eq.andThen fun _ _ => enterRx_outputs _
      · cases h
    · exact .endCommand h .of_outputs_eq

theorem execStart_outputs {s t : State} (h : execStart s = .next t) : OutputsGrow ok s t := by
  unfold execStart at h
  split at h
  · exact .endCommand h .of_outputs_eq
  · split at h
    · exact .endCommand h ((enterRx_outputs _).from_eq.andThen fun _ _ => .of_outputs_eq)
    · exact .endCommand h .of_outputs_eq

theorem execStop_outputs {s t : State} (h : execStop s = .next t) : OutputsGrow ok s t := by
  unfold execStop at h
  split at h <;> exact .endCommand h .of_outputs_eq

theorem execSend_outputs {msg : List Byte} {s t : State} (h : execSend msg s = .next t) : OutputsGrow ok s t := by
  unfold execSend at h
  split at h
  · cases h
  · split at h
    · cases h
    · split at h <;> exact .endCommand h .of_outputs_eq

/-- SEND_SYNC tests the length of its message at issue, so that its begin step needs no premise. -/
theorem execSendSync_outputs {msg : List Byte} {s t : State} (h : execSendSync msg s = .next t) : OutputsGrow ok s t := by
  unfold execSendSync at h
  split at h
  · cases h
  · split at h
    · cases h
    next hne =>
      split at h
      · exact .endCommand h .of_outputs_eq
      next hlen =>
        split at h
        · have hmsg : messageOk msg := ⟨List.length_pos_of_ne_nil (by simpa using hne), Nat.le_of_not_lt hlen⟩
          exact (syncBegin_outputs h fun _ => hmsg).from_eq
        · cases h; exact .of_outputs_eq

theorem execPacketEncode_outputs {plain : List Byte} {s t : State} (h : execPacketEncode plain s = .next t) :
    OutputsGrow ok s t := by
  unfold execPacketEncode at h
  split at h
  · cases h; exact .of_respond _ _ _
  · cases h

theorem execPacketDecode_outputs {rx : List Byte} {s t : State} (h : execPacketDecode rx s = .next t) :
    OutputsGrow ok s t := by
  unfold execPacketDecode at h
  split at h
  · split at h
    · cases h; exact (OutputsGrow.of_respond _ _ _).from_eq
    · cases h; exact .of_respond _ _ _
  · cases h

theorem execFlushRx_outputs {s t : State} (h : execFlushRx s = .next t) : OutputsGrow ok s t := by
  cases h
  exact (OutputsGrow.of_respond _ _ _).from_eq

theorem execEvIrq_outputs {s t : State} (h : execEvIrq s = .next t)
    (hb : ok → ∀ msg ∈ s.st.backlog, messageOk msg) : OutputsGrow ok s t := by
  unfold execEvIrq at h
  split at h
  · exact handleIrq_outputs h hb
  · cases h; exact .of_outputs_eq

theorem execEvMsg_outputs {s t : State} (h : execEvMsg s = .next t)
    (hb : ok → ∀ msg ∈ s.st.backlog, messageOk msg) : OutputsGrow ok s t := by
  unfold execEvMsg at h
  split at h
  · cases h
    exact handleMsg_outputs hb
  · cases h; exact .of_outputs_eq

theorem execEvStop_outputs {s t : State} (h : execEvStop s = .next t) : OutputsGrow ok s t := by
  unfold execEvStop at h
  split at h
  · cases h
    exact (enterStandbyForStop_outputs { s with st := { s.st with stopPending := false } }).from_eq.to_eq
  · cases h; exact .of_outputs_eq

theorem envEdge_outputs {s t : State} (h : envEdge s = .next t) : OutputsGrow ok s t := by
  unfold envEdge at h
  split at h
  · split at h
    · cases h
    · cases h; exact .of_outputs_eq
  · cases h; exact .of_outputs_eq

/-- Of all instructions only the event steps EV_IRQ and EV_MSG transmit a message that waited. -/
theorem exec_outputs {i : Instr} {s t : State} (h : exec i s = .next t)
    (hb : ok → ∀ msg ∈ s.st.backlog, messageOk msg) : OutputsGrow ok s t := by
  cases i with
  | configure p => exact execConfigure_outputs h
  | start => exact execStart_outputs h
  | stop => exact execStop_outputs h
  | send msg => exact execSend_outputs h
  | sendSync msg => exact execSendSync_outputs h
  | flushRx => exact execFlushRx_outputs h
  | packetEncode plain => exact execPacketEncode_outputs h
  | packetDecode rx => exact execPacketDecode_outputs h
  | reconfigure p => exact execReconfigure_outputs h
  | evIrq => exact execEvIrq_outputs h hb
  | evMsg => exact execEvMsg_outputs h hb
  | evStop => exact execEvStop_outputs h

end

/-! ## The step and the obligations -/

/-- What a step does to the outputs. The invariant is needed for the lengths of the waiting messages only (R31 ii, R144). -/
theorem step_outputs {s t : State} (h : step s = .next t) : OutputsGrow s.Inv s t := by
  have hb : s.Inv → ∀ msg ∈ s.st.backlog, messageOk msg := fun hi => hi.backlog_messages
  have hturn : OutputsGrow s.Inv s s.takeTurn := .of_outputs_eq
  unfold step at h
  split at h
  · split at h
    · exact (exec_outputs h hb).from_eq
    · cases h; exact hturn
    · cases h
  · exact hturn.trans (exec_outputs h hb)
  · exact hturn.trans (syncStep_outputs h fun hi => hi.waiting_messages)
  · exact hturn.trans (envEdge_outputs h)

/-- Settles O14: in a step from the invariant every transaction that is added is listed, the lengths of the bulk writes by the
lengths of the waiting messages. -/
theorem onlyListedTransactionsAreIssued : Obligations.OnlyListedTransactionsAreIssued := by
  intro s t hinv hstep
  obtain ⟨new, htrace, hlisted⟩ := (step_outputs hstep).trace
  exact ⟨new, htrace, hlisted hinv⟩

/-- Settles O15: every operation a step is made of appends to the outputs, samples a later time and leaves the parameters. -/
theorem outputsGrowAndTimeIsMonotonic : Obligations.OutputsGrowAndTimeIsMonotonic := by
  intro s t hstep
  have h := step_outputs hstep
  obtain ⟨new, htrace, -⟩ := h.trace
  exact ⟨htrace ▸ List.prefix_append _ _, h.responses, h.log, h.clock, h.cfg⟩

end Sys2Proof.Machine

/-! PROOFS. The invariant of the block (O11, O12), and the turns and the reset values (O8, O9, O10). First what each part of the
state that a step writes does to the invariant, said once; then each sub-operation, event step, SEND_SYNC step and command from
these. -/

namespace Sys2Proof.Machine

/-! ## What keeps the invariant: one lemma for each part of the state that a step writes -/

section
variable {s t : State}

/-- The cached mode is as it was, or one of the three that the block writes and that are not TX. -/
def State.quietMode (s : State) (m : Option Byte) : Prop :=
  m = s.st.mode ∨ m = some s.cfg.modeStandby ∨ m = some s.cfg.modeSleep ∨ m = some s.cfg.modeRxContinuous

namespace State.Inv

/-- The invariant speaks of `st`, the SEND_SYNCs, the time and the parameters only, and of the time only as a bound from above. -/
theorem of_view (hi : s.Inv) (hst : t.st = s.st := by rfl) (hsyncs : t.syncs = s.syncs := by rfl)
    (hnext : t.nextSyncId = s.nextSyncId := by rfl) (hclock : s.clock ≤ t.clock := by exact le_rfl)
    (hcfg : t.cfg = s.cfg := by rfl) : t.Inv := by
  obtain ⟨st, syncs, next, port, responses, trace, log, chip, ticks, clock, turns, draws, cfg⟩ := t
  simp only at hst hsyncs hnext hclock hcfg
  subst hst hsyncs hnext hcfg
  exact { hi with
    tx_start_past := fun t0 h => (hi.tx_start_past t0 h).trans hclock
    rxbuf_messages := fun m hm => (hi.rxbuf_messages m hm).imp_right (And.imp_right fun h => h.trans hclock) }

theorem freeLock (hi : s.Inv) : ({ s with st := { s.st with txLock := .free } } : State).Inv :=
  { hi with
    lock_running := (absurd rfl ·)
    lock_transmitting := (absurd rfl ·)
    lock_sync := fun _ h => TxLock.noConfusion h }

/-- With the lock free the cached mode may leave TX. -/
theorem withMode {m : Option Byte} (hi : s.Inv) (hfree : s.st.txLock = .free) (hm : s.quietMode m) :
    ({ s with st := { s.st with mode := m } } : State).Inv := by
  rcases hm with rfl | hm
  · exact hi.of_view
  obtain ⟨b, rfl, hlegal, hne⟩ : ∃ b, m = some b ∧ s.cfg.legalMode b ∧ s.cfg.modeTx ≠ b := by
    obtain ⟨hsleep, hstandby, hrx⟩ := hi.tx_mode_apart
    rcases hm with rfl | rfl | rfl
    · exact ⟨_, rfl, legalMode_standby, hstandby⟩
    · exact ⟨_, rfl, legalMode_sleep, hsleep⟩
    · exact ⟨_, rfl, legalMode_rxContinuous, hrx⟩
  exact { hi with
    mode_legal := fun _ h => by cases h; exact hlegal
    tx_start_set := fun h => absurd (show b = s.cfg.modeTx by simpa [State.transmitting] using h).symm hne
    lock_transmitting := (absurd hfree ·) }

/-- A transmission begun: the lock is held, TX is cached and the start time is the present. -/
theorem transmit {l : TxLock} (hi : s.Inv) (hrun : s.st.running = true)
    (hlock : ∀ id, l = .sync id → ∃ n, ⟨id, .polling n⟩ ∈ s.syncs) :
    ({ s with st := { s.st with txLock := l, mode := some s.cfg.modeTx, txStart := some s.clock } } : State).Inv :=
  { hi with
    mode_legal := fun _ h => by cases h; exact legalMode_tx
    tx_start_set := fun _ => rfl
    tx_start_past := fun _ h => by cases h; exact le_rfl
    lock_running := fun _ => hrun
    lock_transmitting := fun _ => by simp [State.transmitting]
    lock_sync := hlock }

theorem withBacklog {b : List (List Byte)} (hi : s.Inv) (hrun : s.st.running = true ∨ b = [])
    (hlen : b.length ≤ s.cfg.pileupLimit) (hmsg : ∀ msg ∈ b, messageOk msg) :
    ({ s with st := { s.st with backlog := b } } : State).Inv :=
  { hi with
    backlog_bounded := hlen
    backlog_messages := hmsg
    stopped_idle := fun h => ⟨hrun.resolve_left (by rw [show s.st.running = false from h]; decide), (hi.stopped_idle h).2⟩ }

/-- The counts of the pending events. -/
theorem withPending {irq msg : Nat} {stop : Bool} (hi : s.Inv) (hirq : 0 < irq → s.st.irqRegistered = true)
    (hidle : s.st.running = false → msg = 0 ∧ stop = false) :
    ({ s with st := { s.st with irqPending := irq, msgPending := msg, stopPending := stop } } : State).Inv :=
  { hi with
    irq_counted := hirq
    stopped_idle := fun h => ⟨(hi.stopped_idle h).1, hidle h⟩ }

theorem withElapsed (d : Option Nat) (hi : s.Inv) : ({ s with st := { s.st with lastTxElapsed := d } } : State).Inv :=
  { hi with }

theorem withParams {p : RadioParameters} (hi : s.Inv) (hvalid : s.cfg.validParams p = true)
    (hfreq : frequencyEncodable p.frequencyHz = true) : ({ s with st := { s.st with params := some p } } : State).Inv :=
  { hi with
    params_valid := fun _ h => by cases h; exact ⟨hvalid, hfreq⟩
    configured_params := fun _ => rfl
    running_params := fun _ => rfl }

theorem withConfigured {c : Bool} (hi : s.Inv) (hc : c = true → s.st.params.isSome = true) :
    ({ s with st := { s.st with configured := c } } : State).Inv :=
  { hi with configured_params := hc }

theorem withRegistered {r : Bool} (hi : s.Inv) (hr : s.st.irqRegistered = true → r = true) :
    ({ s with st := { s.st with irqRegistered := r } } : State).Inv :=
  { hi with irq_counted := fun h => hr (hi.irq_counted h) }

theorem starting (hi : s.Inv) (hp : s.st.params.isSome = true) : ({ s with st := { s.st with running := true } } : State).Inv :=
  { hi with
    lock_running := fun _ => rfl
    running_params := fun _ => hp
    stopped_idle := fun h => by cases h }

theorem stopping (hi : s.Inv) (hfree : s.st.txLock = .free)
    (hidle : s.st.backlog = [] ∧ s.st.msgPending = 0 ∧ s.st.stopPending = false) :
    ({ s with st := { s.st with running := false } } : State).Inv :=
  { hi with
    lock_running := (absurd hfree ·)
    running_params := fun h => by cases h
    stopped_idle := fun _ => hidle }

theorem withoutReceived (hi : s.Inv) : ({ s with st := { s.st with rxbuf := [] } } : State).Inv :=
  { hi with
    rxbuf_messages := fun _ h => absurd h List.not_mem_nil
    rxbuf_ordered := List.Pairwise.nil }

/-- A message received now is the newest. -/
theorem receive {m : ReceivedMessage} (hi : s.Inv) (hpay : m.payload.length ≤ 255) (hp : s.st.params = some m.params)
    (hnow : m.timestamp = s.clock) : ({ s with st := { s.st with rxbuf := s.st.rxbuf ++ [m] } } : State).Inv :=
  { hi with
    rxbuf_messages := fun x hx => by
      rcases List.mem_append.mp hx with hx | hx
      · exact hi.rxbuf_messages x hx
      · obtain rfl := List.mem_singleton.mp hx
        exact ⟨hpay, (hi.params_valid _ hp).1, hnow.le⟩
    rxbuf_ordered := by
      rw [List.map_append, List.pairwise_append]
      refine ⟨hi.rxbuf_ordered, List.pairwise_singleton _ _, fun a ha b hb => ?_⟩
      obtain ⟨x, hx, rfl⟩ := List.mem_map.mp ha
      obtain rfl : b = m.timestamp := by simpa using hb
      exact hnow ▸ (hi.rxbuf_messages x hx).2.2 }

/-- Fewer SEND_SYNCs, or the same in other places. -/
theorem withSyncs {as : List SyncAgent} (hi : s.Inv) (hids : (as.map SyncAgent.id).Sublist (s.syncs.map SyncAgent.id))
    (hlock : ∀ id, s.st.txLock = .sync id → ∃ n, ⟨id, .polling n⟩ ∈ as)
    (hwait : ∀ a ∈ as, ∀ msg, a.phase = .waiting msg → messageOk msg) : ({ s with syncs := as } : State).Inv :=
  { hi with
    lock_sync := hlock
    waiting_messages := hwait
    sync_ids_old := fun a ha => by
      obtain ⟨b, hb, hab⟩ := List.mem_map.mp (hids.subset (List.mem_map_of_mem ha))
      exact hab ▸ hi.sync_ids_old b hb
    sync_ids_distinct := hi.sync_ids_distinct.sublist hids }

/-- A SEND_SYNC that has returned does not hold the lock. -/
theorem withoutSync {id : Nat} (hi : s.Inv) (hlock : s.st.txLock ≠ .sync id) :
    ({ s with syncs := s.syncs.filter fun a => a.id ≠ id } : State).Inv := by
  refine hi.withSyncs (List.filter_sublist.map _) (fun id' h => ?_) fun a ha => hi.waiting_messages a (List.mem_of_mem_filter ha)
  obtain ⟨n, hn⟩ := hi.lock_sync id' h
  have hne : id' ≠ id := fun he => hlock (he ▸ h)
  exact ⟨n, List.mem_filter.mpr ⟨hn, by simpa using hne⟩⟩

/-- A SEND_SYNC that polls. -/
theorem setPolling (id n : Nat) (hi : s.Inv) : (s.setSyncPhase id (.polling n)).Inv := by
  have hids : (s.setSyncPhase id (.polling n)).syncs.map SyncAgent.id = s.syncs.map SyncAgent.id := by
    rw [State.setSyncPhase_syncs, List.map_map]
    exact List.map_congr_left fun a _ => by dsimp only [Function.comp]; split <;> rfl
  refine hi.withSyncs (hids ▸ .refl _) (fun id' h => ?_) fun a ha msg hmsg => ?_
  · obtain ⟨k, hk⟩ := hi.lock_sync id' h
    by_cases he : id' = id
    · exact ⟨n, List.mem_map.mpr ⟨_, hk, by simp [he]⟩⟩
    · exact ⟨k, List.mem_map.mpr ⟨_, hk, by simp [he]⟩⟩
  · obtain ⟨b, hb, rfl⟩ := List.mem_map.mp ha
    split at hmsg
    · cases hmsg
    · exact hi.waiting_messages b hb msg hmsg

/-- The id of a new SEND_SYNC is above all others. -/
theorem issueSync {msg : List Byte} (hi : s.Inv) (hmsg : messageOk msg) : (s.issueSync msg).Inv :=
  { hi with
    lock_sync := fun id h => (hi.lock_sync id h).imp fun _ hn => List.mem_append_left _ hn
    waiting_messages := fun a ha m hm => by
      rcases List.mem_append.mp ha with ha | ha
      · exact hi.waiting_messages a ha m hm
      · obtain rfl := List.mem_singleton.mp ha
        cases hm
        exact hmsg
    sync_ids_old := fun a ha => by
      rcases List.mem_append.mp ha with ha | ha
      · exact Nat.lt_succ_of_lt (hi.sync_ids_old a ha)
      · obtain rfl := List.mem_singleton.mp ha
        exact Nat.lt_succ_self _
    sync_ids_distinct := by
      rw [State.issueSync_syncs, List.map_append, List.nodup_append]
      refine ⟨hi.sync_ids_distinct, List.nodup_singleton _, fun a ha b hb => ?_⟩
      obtain ⟨x, hx, rfl⟩ := List.mem_map.mp ha
      obtain rfl : b = s.nextSyncId := by simpa using hb
      exact (hi.sync_ids_old x hx).ne }

/-- A stopped arbiter's lock is free, -/
theorem free_of_stopped (hi : s.Inv) (h : s.st.running = false) : s.st.txLock = .free :=
  Decidable.not_not.mp fun hl => by simp [hi.lock_running hl] at h

/-- and so is the lock of one that is not transmitting. -/
theorem free_of_quiet (hi : s.Inv) (h : s.transmitting = false) : s.st.txLock = .free :=
  Decidable.not_not.mp fun hl => by simp [hi.lock_transmitting hl] at h

end State.Inv

/-- A sub-operation, by what it leaves of `st`. -/
theorem SubOp.inv {st : LinkState} (h : SubOp s t) (hst : t.st = st) (hi : ({ s with st := st } : State).Inv) : t.Inv :=
  hi.of_view hst h.syncs h.nextSyncId h.clock h.cfg

/-- A sub-operation on the chip that leaves TX or keeps the mode, with the lock free. -/
theorem ChipOp.inv (h : ChipOp s t) (hi : s.Inv) (hfree : s.st.txLock = .free) (hm : s.quietMode t.st.mode) : t.Inv :=
  h.toSubOp.inv h.st (hi.withMode hfree hm)

end

/-! ## Sub-operations that do not sample the time -/

/-- What a sub-operation leaves alone that issues transactions and may log, but does not sample the time. -/
structure UntimedOp (s t : State) : Prop extends SubOp s t where
  sameClock : t.clock = s.clock
  sameTicks : t.ticks = s.ticks

section
variable {s t u : State}

theorem UntimedOp.trans (h : UntimedOp s t) (g : UntimedOp t u) : UntimedOp s u :=
  ⟨h.toSubOp.trans g.toSubOp, g.sameClock.trans h.sameClock, g.sameTicks.trans h.sameTicks⟩

theorem UntimedOp.of_chipOp (h : ChipOp s t) : UntimedOp s t := ⟨h.toSubOp, h.sameClock, h.sameTicks⟩

theorem UntimedOp.of_st {st : LinkState} (h : st.mode = s.st.mode) : UntimedOp s { s with st := st } := ⟨.of_st h, rfl, rfl⟩

theorem UntimedOp.of_log (e : LogEvent) : UntimedOp s (s.logEvent e) := ⟨SubOp.of_log s e, rfl, rfl⟩

end

/-! ## The invariant through the sub-operations -/

section
variable {s t : State}

/-- What both answers of a sub-operation make sure of holds of the state it left. -/
theorem Res.All.state {α : Type} {P : α → State → Prop} {Q : Status → State → Prop} {R : State → Prop} {r : Res α}
    (h : r.All P Q) (hP : ∀ a t, P a t → R t) (hQ : ∀ e t, Q e t → R t) : R r.state := by
  cases r with
  | done a t => exact hP a t h
  | raised e t => exact hQ e t h

/-- The end of a command: the state it has come to, with the response. -/
theorem endCommand_eq_respond {r : Res Unit} (h : endCommand r = .next t) : ∃ e, t = r.state.respond none e .none := by
  obtain ⟨e, he⟩ := endCommand_eq_next r
  cases he.symm.trans h
  exact ⟨e, rfl⟩

theorem endCommand_inv {r : Res Unit} (h : endCommand r = .next t) (hi : r.state.Inv) : t.Inv := by
  obtain ⟨e, rfl⟩ := endCommand_eq_respond h
  exact hi.of_view

/-- INITIALIZE of a valid record that is stored already. -/
theorem initializeChip_inv {p : RadioParameters} (hi : s.Inv) (hfree : s.st.txLock = .free) (hp : s.st.params = some p) :
    (initializeChip p s).All (fun _ t => t.Inv ∧ t.st.txLock = .free) fun _ t => t.Inv := by
  refine (initializeChip_spec (hi.params_valid p hp).1).mono ?_ ?_
  · rintro - t ⟨hsub, -, -, hst⟩
    refine ⟨hsub.inv hst ?_, by rw [hst]; exact hfree⟩
    exact ((hi.withRegistered fun _ => rfl).withMode hfree (.inr (.inl rfl))).withConfigured fun _ => by simp [hp]
  · rintro e t ⟨-, hsub, -, -, hst, hreg, hm⟩
    have hquiet : s.quietMode t.st.mode := hm.imp_right fun h => h.symm.imp_right .inl
    exact hsub.inv hst (((hi.withRegistered hreg).withMode hfree hquiet).withConfigured nofun)

theorem enterRx_inv (hi : s.Inv) (hfree : s.st.txLock = .free) :
    (enterRx s).All (fun _ t => t.Inv ∧ t.st = { s.st with mode := t.st.mode }) fun _ t => t.Inv :=
  (enterRx_spec s).mono (fun _ _ h => ⟨h.1.inv hi hfree (.inr (.inr (.inr h.2))), h.1.st⟩)
    fun _ _ h => h.2.1.inv hi hfree (.inl h.2.2)

/-- START_NEXT: a message waits on a running arbiter only. -/
theorem startNext_inv (hi : s.Inv) : (startNext s).Inv := by
  cases hb : s.st.backlog with
  | nil => rwa [startNext_nil hb]
  | cons msg more =>
    have hrun : s.st.running = true := Decidable.byContradiction fun h => by
      have hidle := (hi.stopped_idle (by simpa using h)).1
      simp [hb] at hidle
    have hmore : ({ s with st := { s.st with backlog := more } } : State).Inv := by
      refine hi.withBacklog (.inl hrun) ?_ fun m hm => hi.backlog_messages m (by simp [hb, hm])
      exact (by simp [hb] : more.length ≤ s.st.backlog.length).trans hi.backlog_bounded
    obtain ⟨hsub, ⟨hst, -⟩ | ⟨hst, hm, -⟩⟩ := startNext_cons hb
    · have hnow : ({ s with st := { s.st with backlog := more }, clock := (startNext s).clock } : State).Inv :=
        hmore.of_view (hclock := hsub.clock)
      exact (hnow.transmit (l := .arb) hrun nofun).of_view hst hsub.syncs hsub.nextSyncId le_rfl hsub.cfg
    · exact hsub.inv hst (hmore.freeLock.withMode rfl (hm.imp_right .inl))

/-! ## The invariant through the event steps -/

theorem afterTx_inv (hi : s.Inv) (hfree : s.st.txLock = .free) : (afterTx s).Inv := by
  have hrx := enterRx_inv hi hfree
  unfold afterTx
  split
  · split
    next hr => rw [hr] at hrx; exact hrx.1
    next hr => rw [hr] at hrx; exact State.Inv.of_view hrx
  · exact startNext_inv hi

theorem rxPacket_inv (hi : s.Inv) (h : rxPacket s = .next t) : t.Inv := by
  obtain ⟨hsub, ⟨hst, -⟩ | ⟨m, hst, hpay, hnow, hp, -⟩⟩ := rxPacket_spec h
  · exact hsub.inv hst hi
  · have hclock : ({ s with clock := t.clock } : State).Inv := hi.of_view (hclock := hsub.clock)
    exact (hclock.receive hpay hp hnow).of_view hst hsub.syncs hsub.nextSyncId le_rfl hsub.cfg

/-- The branch of EV_IRQ: nothing, a transmission's end, or a packet (R148). -/
theorem irqBranch_cases {mode flags : Option Byte} (h : irqBranch mode flags s = .next t) :
    t = s ∨ (∃ t0, t = afterTx (txDone s t0)) ∨ rxPacket s = .next t := by
  unfold irqBranch at h
  split at h
  · split at h
    next f =>
      cases hf : flagSet f s.cfg.irqTxDone with
      | false => rw [txBranch_idle s hf] at h; cases h; exact .inl rfl
      | true =>
        cases h0 : s.st.txStart with
        | none => simp [txBranch, hf, h0] at h
        | some t0 => rw [txBranch_txDone hf h0] at h; cases h; exact .inr (.inl ⟨t0, rfl⟩)
    · cases h; exact .inl rfl
  · split at h
    · split at h
      · unfold rxBranch at h
        split at h
        · exact .inr (.inr h)
        · cases h; exact .inl rfl
      · cases h; exact .inl rfl
    · cases h; exact .inl rfl

theorem irqBranch_inv {mode flags : Option Byte} (hi : s.Inv) (h : irqBranch mode flags s = .next t) : t.Inv := by
  rcases irqBranch_cases h with rfl | ⟨t0, rfl⟩ | h
  · exact hi
  · have hdone : (txDone s t0).Inv :=
      (hi.withElapsed (some (nextTime s - t0))).freeLock.of_view (hclock := nextTime_ge s)
    exact afterTx_inv hdone rfl
  · exact rxPacket_inv hi h

/-- One edge of the count is consumed (R148). -/
def irqTaken (s : State) : State :=
  { s with st := { s.st with irqPending := s.st.irqPending - 1 } }

/-- EV_IRQ: an edge is consumed and the flags are read, the branch runs, the flags are cleared (R148). -/
theorem handleIrq_eq_next (h : handleIrq s = .next t) : ∃ u,
    irqBranch s.st.mode (readIrqFlags (irqTaken s)).1 (readIrqFlags (irqTaken s)).2 = .next u ∧ t = clearIrqFlags u := by
  change onNext (irqBranch s.st.mode (readIrqFlags (irqTaken s)).1 (readIrqFlags (irqTaken s)).2) _ = _ at h
  cases hb : irqBranch s.st.mode (readIrqFlags (irqTaken s)).1 (readIrqFlags (irqTaken s)).2 with
  | next u => rw [hb] at h; cases h; exact ⟨u, rfl, rfl⟩
  | fault e => rw [hb] at h; cases h
  | refused e => rw [hb] at h; cases h

theorem handleIrq_inv (hi : s.Inv) (h : handleIrq s = .next t) : t.Inv := by
  obtain ⟨u, hbranch, rfl⟩ := handleIrq_eq_next h
  obtain ⟨hst, -, hread, -⟩ := readIrqFlags_spec (irqTaken s)
  obtain ⟨-, -, -, hclear, -, -, -, hsub⟩ := clearIrqFlags_spec u
  have htaken : (irqTaken s).Inv := hi.withPending (fun h => hi.irq_counted (by omega)) fun h => (hi.stopped_idle h).2
  exact hsub.inv hclear (irqBranch_inv (hread.inv hst htaken) hbranch)

theorem handleMsg_inv (hi : s.Inv) : (handleMsg s).Inv := by
  have htaken : ({ s with st := { s.st with msgPending := s.st.msgPending - 1 } } : State).Inv := by
    refine hi.withPending hi.irq_counted fun h => ?_
    obtain ⟨-, hmsg, hstop⟩ := hi.stopped_idle h
    exact ⟨by rw [hmsg], hstop⟩
  unfold handleMsg
  dsimp only
  split
  · exact htaken
  · exact startNext_inv htaken

/-- EV_STOP's write changes the cached mode at most; its failure is logged. -/
theorem enterStandbyForStop_spec (s : State) : UntimedOp s (enterStandbyForStop s) ∧
    (enterStandbyForStop s).st = { s.st with mode := (enterStandbyForStop s).st.mode } ∧
    ((enterStandbyForStop s).st.mode = s.st.mode ∨ (enterStandbyForStop s).st.mode = some s.cfg.modeStandby) := by
  have h := setMode_spec s.cfg.modeStandby s
  unfold enterStandbyForStop
  split
  next hr => rw [hr] at h; exact ⟨.of_chipOp h.1, h.1.st, .inr h.2⟩
  next hr => rw [hr] at h; exact ⟨(UntimedOp.of_chipOp h.2.1).trans (.of_log _), h.2.1.st, .inl h.2.2⟩

/-- EV_STOP, by the mode it leaves (R154). -/
theorem handleStop_spec (s : State) : UntimedOp s (handleStop s) ∧
    (handleStop s).st = { s.st with
      mode := (handleStop s).st.mode, backlog := [], irqPending := 0, msgPending := 0, stopPending := false, txLock := .free,
      running := false } ∧
    s.quietMode (handleStop s).st.mode := by
  obtain ⟨hop, hst, hm⟩ := enterStandbyForStop_spec { s with st := { s.st with stopPending := false } }
  have h0 : UntimedOp s { s with st := { s.st with stopPending := false } } := .of_st rfl
  refine ⟨(h0.trans hop).trans (.of_st rfl), ?_, hm.imp_right .inl⟩
  unfold handleStop
  dsimp only
  rw [hst]

theorem handleStop_inv (hi : s.Inv) : (handleStop s).Inv := by
  obtain ⟨hop, hst, hm⟩ := handleStop_spec s
  refine hop.toSubOp.inv hst ?_
  have hquiet := (hi.freeLock.withMode rfl hm).withBacklog (.inr rfl) (Nat.zero_le _) nofun
  exact (hquiet.withPending (irq := 0) (msg := 0) (stop := false) nofun fun _ => ⟨rfl, rfl⟩).stopping rfl ⟨rfl, rfl, rfl⟩

theorem execEvIrq_inv (hi : s.Inv) (h : execEvIrq s = .next t) : t.Inv := by
  unfold execEvIrq at h
  split at h
  · exact handleIrq_inv hi h
  · cases h; exact hi

theorem execEvMsg_inv (hi : s.Inv) (h : execEvMsg s = .next t) : t.Inv := by
  unfold execEvMsg at h
  split at h <;> cases h
  · exact handleMsg_inv hi
  · exact hi

theorem execEvStop_inv (hi : s.Inv) (h : execEvStop s = .next t) : t.Inv := by
  unfold execEvStop at h
  split at h <;> cases h
  · exact handleStop_inv hi
  · exact hi

theorem envEdge_inv (hi : s.Inv) (h : envEdge s = .next t) : t.Inv := by
  unfold envEdge at h
  split at h
  next hreg =>
    split at h
    · cases h
    · cases h; exact hi.withPending (fun _ => hreg) fun h => (hi.stopped_idle h).2
  · cases h; exact hi

/-! ## The invariant through the steps of a SEND_SYNC -/

theorem State.canBeginSync_iff (s : State) :
    s.canBeginSync = true ↔ s.st.running = true ∧ s.st.txLock = .free ∧ s.transmitting = false := by
  simp [State.canBeginSync, and_assoc]

theorem syncBegin_inv {id : Nat} {msg : List Byte} (hi : s.Inv) (hid : ∃ ph, ⟨id, ph⟩ ∈ s.syncs)
    (hbegin : s.canBeginSync = true)
    (h : syncBegin id msg s = .next t) : t.Inv := by
  obtain ⟨hrun, hfree, -⟩ := s.canBeginSync_iff.mp hbegin
  rcases syncBegin_spec h with
    ⟨hst, -, hclock, -, hnext, -, -, hcfg, -, hsyncs⟩ | ⟨hst, hm, -, hclock, -, hnext, -, -, hcfg, -, hsyncs⟩
  · have hpoll : ∃ n, ⟨id, .polling n⟩ ∈ (s.setSyncPhase id (.polling 0)).syncs := by
      obtain ⟨ph, hph⟩ := hid
      exact ⟨0, List.mem_map.mpr ⟨_, hph, by simp⟩⟩
    have hnow : ({ s.setSyncPhase id (.polling 0) with clock := t.clock } : State).Inv :=
      (hi.setPolling id 0).of_view (hclock := hclock)
    exact (hnow.transmit (l := .sync id) hrun fun id' he => by cases he; exact hpoll).of_view hst hsyncs hnext le_rfl hcfg
  · have hgone := hi.withoutSync (id := id) (by simp [hfree])
    exact (hgone.freeLock.withMode rfl (hm.imp_right .inl)).of_view hst hsyncs hnext hclock.ge hcfg

theorem syncPoll_inv {id n : Nat} (hi : s.Inv) (h : syncPoll id n s = .next t) : t.Inv := by
  obtain ⟨⟨hclock, -, hnext, -, -, hcfg, -⟩, ⟨hst, -, hsyncs⟩ | ⟨hst, -, hsyncs⟩⟩ := syncPoll_spec h
  · exact (hi.setPolling id (n + 1)).of_view hst hsyncs hnext hclock.ge hcfg
  · split at hst
    · exact (hi.freeLock.withoutSync (id := id) nofun).of_view hst hsyncs hnext hclock.ge hcfg
    next hlock => exact (hi.withoutSync hlock).of_view hst hsyncs hnext hclock.ge hcfg

/-- A step of a SEND_SYNC's agent: none, its begin step or a poll. -/
theorem syncStep_cases {id : Nat} (h : syncStep id s = .next t) :
    t = s ∨ (∃ msg, ⟨id, .waiting msg⟩ ∈ s.syncs ∧ s.canBeginSync = true ∧ syncBegin id msg s = .next t) ∨
      (∃ n, ⟨id, .polling n⟩ ∈ s.syncs ∧ syncPoll id n s = .next t) := by
  unfold syncStep at h
  split at h
  · cases h; exact .inl rfl
  next a hfind =>
    obtain ⟨id', phase⟩ := a
    obtain rfl : id' = id := by simpa using List.find?_some hfind
    have hmem := List.mem_of_find?_eq_some hfind
    cases phase with
    | waiting msg =>
      dsimp only at h
      split at h
      next hbegin => exact .inr (.inl ⟨msg, hmem, hbegin, h⟩)
      · cases h; exact .inl rfl
    | polling n => exact .inr (.inr ⟨n, hmem, h⟩)

theorem syncStep_inv {id : Nat} (hi : s.Inv) (h : syncStep id s = .next t) : t.Inv := by
  rcases syncStep_cases h with rfl | ⟨msg, hmem, hbegin, h⟩ | ⟨n, -, h⟩
  · exact hi
  · exact syncBegin_inv hi ⟨_, hmem⟩ hbegin h
  · exact syncPoll_inv hi h

/-! ## The invariant through the commands -/

theorem execConfigure_inv {p : RadioParameters} (hi : s.Inv) (h : execConfigure p s = .next t) : t.Inv := by
  unfold execConfigure at h
  split at h
  · cases h
  next hstop =>
    split at h
    next hvalid =>
      split at h
      next hfreq =>
        have hfree := hi.free_of_stopped (by simpa using hstop)
        exact endCommand_inv h <| (initializeChip_inv (hi.withParams hvalid hfreq) hfree rfl).state (fun _ _ h => h.1) fun _ _ h => h
      · cases h
    · exact endCommand_inv h hi

theorem execReconfigure_inv {p : RadioParameters} (hi : s.Inv) (h : execReconfigure p s = .next t) : t.Inv := by
  unfold execReconfigure at h
  split at h
  · exact endCommand_inv h hi
  next hquiet =>
    split at h
    next hvalid =>
      split at h
      next hfreq =>
        have hfree := hi.free_of_quiet (by simpa using hquiet)
        have hstandby : (setMode s.cfg.modeStandby s).All
            (fun _ u => u.Inv ∧ u.st.txLock = .free ∧ u.cfg = s.cfg) fun _ u => u.Inv :=
          (setMode_spec s.cfg.modeStandby s).mono
            (fun _ u h => ⟨h.1.inv hi hfree (.inr (.inl h.2)), by rw [h.1.st]; exact hfree, h.1.cfg⟩)
            fun _ u h => h.2.1.inv hi hfree (.inl h.2.2)
        refine endCommand_inv h ((hstandby.andThen (P' := fun _ u => u.Inv) ?_).state (fun _ _ h => h) fun _ _ h => h)
        rintro - u ⟨hu, hfree, hcfg⟩
        refine (initializeChip_inv (hu.withParams (hcfg ▸ hvalid) hfreq) hfree rfl).andThen fun _ v ⟨hv, hfree⟩ => ?_
        exact (enterRx_inv hv hfree).mono (fun _ _ h => h.1) fun _ _ h => h
      · cases h
    · exact endCommand_inv h hi

theorem execStart_inv (hi : s.Inv) (h : execStart s = .next t) : t.Inv := by
  unfold execStart at h
  split at h
  · exact endCommand_inv h hi
  next hstop =>
    split at h
    next hconf =>
      have hfree := hi.free_of_stopped (by simpa using hstop)
      have hcleared := hi.withPending (irq := 0) (msg := 0) (stop := false) nofun fun _ => ⟨rfl, rfl⟩
      refine endCommand_inv h (((enterRx_inv hcleared hfree).andThen (P' := fun _ t => t.Inv) ?_).state (fun _ _ h => h) fun _ _ h => h)
      rintro - u ⟨hu, hst⟩
      exact hu.starting (by rw [hst]; exact hi.configured_params hconf)
    · exact endCommand_inv h hi

theorem execStop_inv (hi : s.Inv) (h : execStop s = .next t) : t.Inv := by
  unfold execStop at h
  split at h
  next hrun => exact endCommand_inv h (hi.withPending hi.irq_counted fun h => by simp [hrun] at h)
  · exact endCommand_inv h hi

/-- SEND: TRIM keeps the bound (R159). -/
theorem execSend_inv {msg : List Byte} (hi : s.Inv) (h : execSend msg s = .next t) : t.Inv := by
  unfold execSend at h
  split at h
  · cases h
  next hrun =>
    split at h
    · cases h
    next hne =>
      split at h
      · exact endCommand_inv h hi
      next hlen =>
        have hmsg : messageOk msg := ⟨List.length_pos_of_ne_nil (by simpa using hne), Nat.le_of_not_lt hlen⟩
        have hrun : s.st.running = true := by simpa using hrun
        have hqueued := hi.withBacklog (b := trim s.cfg.pileupLimit (s.st.backlog ++ [msg])) (.inl hrun)
          ((trim_length _ _).trans_le (Nat.min_le_left _ _)) fun m hm => by
            rcases List.mem_append.mp ((trim_suffix _ _).subset hm) with hm | hm
            · exact hi.backlog_messages m hm
            · exact List.mem_singleton.mp hm ▸ hmsg
        exact endCommand_inv h (hqueued.withPending hi.irq_counted fun h => by simp [hrun] at h)

theorem execSendSync_inv {msg : List Byte} (hi : s.Inv) (h : execSendSync msg s = .next t) : t.Inv := by
  unfold execSendSync at h
  split at h
  · cases h
  · split at h
    · cases h
    next hne =>
      split at h
      · exact endCommand_inv h hi
      next hlen =>
        have hissued := hi.issueSync (msg := msg) ⟨List.length_pos_of_ne_nil (by simpa using hne), Nat.le_of_not_lt hlen⟩
        split at h
        next hbegin => exact syncBegin_inv hissued ⟨_, List.mem_append_right _ (List.mem_singleton.mpr rfl)⟩ hbegin h
        · cases h; exact hissued

theorem execPacketEncode_inv {plain : List Byte} (hi : s.Inv) (h : execPacketEncode plain s = .next t) : t.Inv := by
  unfold execPacketEncode at h
  split at h <;> cases h
  exact hi.of_view

theorem execPacketDecode_inv {rx : List Byte} (hi : s.Inv) (h : execPacketDecode rx s = .next t) : t.Inv := by
  unfold execPacketDecode at h
  split at h
  · split at h <;> cases h <;> exact hi.of_view
  · cases h

theorem execFlushRx_inv (hi : s.Inv) (h : execFlushRx s = .next t) : t.Inv := by
  cases h
  exact hi.withoutReceived.of_view

theorem exec_inv {i : Instr} (hi : s.Inv) (h : exec i s = .next t) : t.Inv := by
  cases i with
  | configure p => exact execConfigure_inv hi h
  | start => exact execStart_inv hi h
  | stop => exact execStop_inv hi h
  | send msg => exact execSend_inv hi h
  | sendSync msg => exact execSendSync_inv hi h
  | flushRx => exact execFlushRx_inv hi h
  | packetEncode plain => exact execPacketEncode_inv hi h
  | packetDecode rx => exact execPacketDecode_inv hi h
  | reconfigure p => exact execReconfigure_inv hi h
  | evIrq => exact execEvIrq_inv hi h
  | evMsg => exact execEvMsg_inv hi h
  | evStop => exact execEvStop_inv hi h

/-- What a step can be: the turn alone, an instruction, a SEND_SYNC's step or an edge, from the state with the turn taken. -/
theorem step_cases (h : step s = .next t) :
    t = s.takeTurn ∨ (∃ i rest, exec i { s.takeTurn with port := rest } = .next t) ∨
      (∃ id, syncStep id s.takeTurn = .next t) ∨ envEdge s.takeTurn = .next t := by
  unfold step at h
  split at h
  · split at h
    next i rest _ => exact .inr (.inl ⟨i, rest, h⟩)
    · cases h; exact .inl rfl
    · cases h
  next k _ => exact .inr (.inl ⟨k.instr, s.port, h⟩)
  next id _ => exact .inr (.inr (.inl ⟨id, h⟩))
  · exact .inr (.inr (.inr h))

end

/-- Settles O11: after reset nothing is held, waiting or outstanding, and the parameters are the decided defaults. -/
theorem resetMeetsTheInvariant : Obligations.ResetMeetsTheInvariant where
  tx_mode_apart := by decide
  pileup_pos := Nat.succ_pos _
  backlog_bounded := Nat.zero_le _
  backlog_messages := nofun
  params_valid := nofun
  mode_legal := nofun
  tx_start_set := nofun
  tx_start_past := nofun
  lock_running := (absurd rfl ·)
  lock_transmitting := (absurd rfl ·)
  lock_sync := nofun
  configured_params := nofun
  running_params := nofun
  stopped_idle := fun _ => ⟨rfl, rfl, rfl⟩
  irq_counted := nofun
  waiting_messages := nofun
  sync_ids_old := nofun
  sync_ids_distinct := List.nodup_nil
  rxbuf_messages := nofun
  rxbuf_ordered := .nil

/-- Settles O12: each part of a step that writes the state keeps the invariant. -/
theorem everyStepKeepsTheInvariant : Obligations.EveryStepKeepsTheInvariant := by
  intro s t hi hstep
  have hturn : s.takeTurn.Inv := hi.of_view
  rcases step_cases hstep with rfl | ⟨i, rest, h⟩ | ⟨id, h⟩ | h
  · exact hturn
  · exact exec_inv hi.of_view h
  · exact syncStep_inv hturn h
  · exact envEdge_inv hturn h

/-! ## The turns (O8, O9) and the reset values (O10) -/

theorem fetchCommand_of_ok {port rest : List Byte} {i : Instr} (h : decodeCommand port = .ok (i, rest)) :
    fetchCommand port = .command i rest := by
  simp [fetchCommand, h]

theorem fetchCommand_of_incomplete {port : List Byte} (h : decodeCommand port = .error .incomplete) :
    fetchCommand port = .nothing := by
  simp [fetchCommand, h]

/-- Settles O8: a HOST turn that finds a command. -/
theorem stepRunsTheCommandOnThePort : Obligations.StepRunsTheCommandOnThePort := by
  intro s i rest hturn hport
  simp only [step, hturn, fetchCommand_of_ok hport]
  rfl

/-- Settles O9: the other turns, and a HOST turn that finds no whole command. -/
theorem stepRunsTheTurnOfTheAgent : Obligations.StepRunsTheTurnOfTheAgent := by
  refine fun s => ⟨fun k hturn => ?_, fun id hturn => ?_, fun hturn => ?_, fun hturn hport => ?_⟩
  · simp only [step, hturn]
    cases k <;> rfl
  · simp only [step, hturn]
    rfl
  · simp only [step, hturn]
    rfl
  · simp only [step, hturn, fetchCommand_of_incomplete hport]
    rfl

/-- Settles O10: the fields of `State.reset`, read off. -/
theorem resetValues : Obligations.ResetValues :=
  ⟨rfl, rfl, rfl, rfl, rfl, rfl, rfl, rfl, rfl, rfl, rfl, rfl, rfl, rfl, rfl, rfl⟩

end Sys2Proof.Machine

/-! PROOFS. The mode cache (O13) and what the instructions leave alone (O37, O58). -/

namespace Sys2Proof.Machine

/-! ## What the parts of the event steps leave alone -/

/-- What ends a transmission or begins one may write of `st`. -/
structure TransmitOp (s t : State) : Prop extends SubOp s t where
  st : t.st = { s.st with
    mode := t.st.mode, backlog := t.st.backlog, txStart := t.st.txStart, txLock := t.st.txLock }
  backlog : t.st.backlog <:+ s.st.backlog

/-- What EV_IRQ may write of `st`. -/
structure IrqOp (s t : State) : Prop extends SubOp s t where
  st : t.st = { s.st with
    mode := t.st.mode, backlog := t.st.backlog, rxbuf := t.st.rxbuf, txStart := t.st.txStart,
    lastTxElapsed := t.st.lastTxElapsed, txLock := t.st.txLock, irqPending := t.st.irqPending }
  rxbuf : s.st.rxbuf <+: t.st.rxbuf
  rxbuf_length : t.st.rxbuf.length ≤ s.st.rxbuf.length + 1
  backlog : t.st.backlog <:+ s.st.backlog

section
variable {s t u : State}

theorem TransmitOp.refl (s : State) : TransmitOp s s := ⟨.refl s, rfl, List.suffix_rfl⟩

theorem startNext_op (s : State) : TransmitOp s (startNext s) := by
  cases hb : s.st.backlog with
  | nil => rw [startNext_nil hb]; exact .refl s
  | cons msg more =>
    obtain ⟨hsub, ⟨hst, -⟩ | ⟨hst, -⟩⟩ := startNext_cons hb <;>
      exact ⟨hsub, by rw [hst], by rw [hst, hb]; exact List.suffix_cons msg more⟩

theorem afterTx_op (s : State) : TransmitOp s (afterTx s) := by
  have hrx := enterRx_spec s
  unfold afterTx
  split
  · split
    next hr =>
      rw [hr] at hrx
      obtain ⟨hop, -⟩ := hrx
      exact ⟨hop.toSubOp, by rw [hop.st], by rw [hop.st]⟩
    next t hr =>
      rw [hr] at hrx
      obtain ⟨-, hop, -⟩ := hrx
      exact ⟨hop.toSubOp.trans (.of_log t _), by rw [State.logEvent_st, hop.st], by rw [State.logEvent_st, hop.st]⟩
  · exact startNext_op s

theorem IrqOp.refl (s : State) : IrqOp s s := ⟨.refl s, rfl, List.prefix_rfl, Nat.le_succ _, List.suffix_rfl⟩

theorem txDone_subOp (s : State) (t0 : Nat) : SubOp s (txDone s t0) :=
  ⟨rfl, rfl, rfl, rfl, rfl, rfl, nextTime_ge s, List.prefix_append _ _, [], (List.append_nil _).symm, rfl⟩

theorem irqBranch_op {mode flags : Option Byte} (h : irqBranch mode flags s = .next t) : IrqOp s t := by
  rcases irqBranch_cases h with rfl | ⟨t0, rfl⟩ | h
  · exact .refl t
  · have hop := afterTx_op (txDone s t0)
    have hrx : (afterTx (txDone s t0)).st.rxbuf = s.st.rxbuf := by rw [hop.st]; rfl
    exact ⟨(txDone_subOp s t0).trans hop.toSubOp, by rw [hop.st]; rfl, by rw [hrx], by rw [hrx]; exact Nat.le_succ _, hop.backlog⟩
  · obtain ⟨hsub, ⟨hst, -⟩ | ⟨m, hst, -⟩⟩ := rxPacket_spec h
    · exact ⟨hsub, by rw [hst], by rw [hst], by rw [hst]; exact Nat.le_succ _, by rw [hst]⟩
    · exact ⟨hsub, by rw [hst], by rw [hst]; exact List.prefix_append _ _, by rw [hst]; simp, by rw [hst]⟩

theorem handleIrq_op (h : handleIrq s = .next t) : IrqOp s t := by
  obtain ⟨u, hbranch, rfl⟩ := handleIrq_eq_next h
  obtain ⟨hread, -, hsubread, -⟩ := readIrqFlags_spec (irqTaken s)
  obtain ⟨-, -, -, hclear, -, -, -, hsubclear⟩ := clearIrqFlags_spec u
  have hop := irqBranch_op hbranch
  have htaken : SubOp s (irqTaken s) := .of_st rfl
  have hst := hop.st
  have hrx := hop.rxbuf
  have hlen := hop.rxbuf_length
  have hback := hop.backlog
  rw [hread] at hst hrx hlen hback
  refine ⟨((htaken.trans hsubread).trans hop.toSubOp).trans hsubclear, ?_, ?_, ?_, ?_⟩ <;> rw [hclear]
  · rw [hst]; rfl
  · exact hrx
  · exact hlen
  · exact hback

theorem handleMsg_op (s : State) : SubOp s (handleMsg s) ∧ (handleMsg s).st.backlog <:+ s.st.backlog ∧
    (handleMsg s).st = { s.st with
      mode := (handleMsg s).st.mode, backlog := (handleMsg s).st.backlog, txStart := (handleMsg s).st.txStart,
      txLock := (handleMsg s).st.txLock, msgPending := (handleMsg s).st.msgPending } := by
  have hop := startNext_op { s with st := { s.st with msgPending := s.st.msgPending - 1 } }
  have htaken : SubOp s { s with st := { s.st with msgPending := s.st.msgPending - 1 } } := .of_st rfl
  unfold handleMsg
  dsimp only
  split
  · exact ⟨htaken, List.suffix_rfl, rfl⟩
  · exact ⟨htaken.trans hop.toSubOp, hop.backlog, by rw [hop.st]⟩

/-! ## What the programming commands and START leave alone -/

/-- What CONFIGURE and RECONFIGURE may write of `st`. -/
structure ProgrammingOp (s t : State) : Prop extends UntimedOp s t where
  st : t.st = { s.st with
    params := t.st.params, mode := t.st.mode, configured := t.st.configured, irqRegistered := t.st.irqRegistered }

theorem ProgrammingOp.refl (s : State) : ProgrammingOp s s := ⟨.of_chipOp (.refl s), rfl⟩

theorem ProgrammingOp.trans (h : ProgrammingOp s t) (g : ProgrammingOp t u) : ProgrammingOp s u :=
  ⟨h.toUntimedOp.trans g.toUntimedOp, by rw [g.st, h.st]⟩

theorem ProgrammingOp.of_chipOp (h : ChipOp s t) : ProgrammingOp s t := ⟨.of_chipOp h, by rw [h.st]⟩

theorem ProgrammingOp.of_params (p : RadioParameters) : ProgrammingOp s { s with st := { s.st with params := some p } } :=
  ⟨.of_st rfl, rfl⟩

/-- The rule of sequence. -/
theorem ProgrammingOp.andThen {α β : Type} {r : Res α} {f : α → State → Res β} (h : ProgrammingOp s r.state)
    (hf : ∀ a t, t.cfg = s.cfg → ProgrammingOp t (f a t).state) : ProgrammingOp s (r.andThen f).state := by
  cases r with
  | done a t => exact h.trans (hf a t h.cfg)
  | raised e t => exact h

theorem setMode_programmingOp (m : Byte) (s : State) : ProgrammingOp s (setMode m s).state :=
  (setMode_spec m s).state (fun _ _ h => .of_chipOp h.1) fun _ _ h => .of_chipOp h.2.1

theorem enterRx_programmingOp (s : State) : ProgrammingOp s (enterRx s).state :=
  (enterRx_spec s).state (fun _ _ h => .of_chipOp h.1) fun _ _ h => .of_chipOp h.2.1

theorem initializeChip_programmingOp {p : RadioParameters} (h : s.cfg.validParams p = true) :
    ProgrammingOp s (initializeChip p s).state := by
  refine (initializeChip_spec h).state ?_ ?_
  · rintro - t ⟨hsub, hclock, hticks, hst⟩
    exact ⟨⟨hsub, hclock, hticks⟩, by rw [hst]⟩
  · rintro - t ⟨-, hsub, hclock, hticks, hst, -⟩
    exact ⟨⟨hsub, hclock, hticks⟩, by rw [hst]⟩

/-- CONFIGURE ends, when it is not refused, with its response after what programming may write. -/
theorem execConfigure_eq_next {p : RadioParameters} (h : execConfigure p s = .next t) :
    ∃ e u, t = u.respond none e .none ∧ ProgrammingOp s u := by
  unfold execConfigure at h
  split at h
  · cases h
  · split at h
    next hvalid =>
      split at h
      · obtain ⟨e, rfl⟩ := endCommand_eq_respond h
        exact ⟨e, _, rfl, (ProgrammingOp.of_params p).trans (initializeChip_programmingOp hvalid)⟩
      · cases h
    · cases h; exact ⟨_, s, rfl, .refl s⟩

theorem execReconfigure_eq_next {p : RadioParameters} (h : execReconfigure p s = .next t) :
    ∃ e u, t = u.respond none e .none ∧ ProgrammingOp s u := by
  unfold execReconfigure at h
  split at h
  · cases h; exact ⟨_, s, rfl, .refl s⟩
  · split at h
    next hvalid =>
      split at h
      · obtain ⟨e, rfl⟩ := endCommand_eq_respond h
        refine ⟨e, _, rfl, (setMode_programmingOp _ s).andThen fun _ u hcfg => ?_⟩
        have hinit := (ProgrammingOp.of_params p).trans (initializeChip_programmingOp (hcfg ▸ hvalid))
        exact ProgrammingOp.andThen (s := u) hinit fun _ v _ => enterRx_programmingOp v
      · cases h
    · cases h; exact ⟨_, s, rfl, .refl s⟩

/-- What START may write of `st`; it logs nothing. -/
structure StartOp (s t : State) : Prop extends UntimedOp s t where
  sameLog : t.log = s.log
  st : t.st = { s.st with
    mode := t.st.mode, irqPending := t.st.irqPending, msgPending := t.st.msgPending, stopPending := t.st.stopPending,
    running := t.st.running }

theorem StartOp.refl (s : State) : StartOp s s := ⟨.of_chipOp (.refl s), rfl, rfl⟩

theorem StartOp.trans (h : StartOp s t) (g : StartOp t u) : StartOp s u :=
  ⟨h.toUntimedOp.trans g.toUntimedOp, g.sameLog.trans h.sameLog, by rw [g.st, h.st]⟩

theorem StartOp.of_chipOp (h : ChipOp s t) : StartOp s t := ⟨.of_chipOp h, h.sameLog, by rw [h.st]⟩

theorem StartOp.andThen {α β : Type} {r : Res α} {f : α → State → Res β} (h : StartOp s r.state)
    (hf : ∀ a t, StartOp t (f a t).state) : StartOp s (r.andThen f).state := by
  cases r with
  | done a t => exact h.trans (hf a t)
  | raised e t => exact h

theorem execStart_eq_next (h : execStart s = .next t) : ∃ e u, t = u.respond none e .none ∧ StartOp s u := by
  unfold execStart at h
  split at h
  · cases h; exact ⟨_, s, rfl, .refl s⟩
  · split at h
    · obtain ⟨e, rfl⟩ := endCommand_eq_respond h
      have hcleared : StartOp s { s with st := { s.st with irqPending := 0, msgPending := 0, stopPending := false } } :=
        ⟨.of_st rfl, rfl, rfl⟩
      have hrx := hcleared.trans ((enterRx_spec _).state (fun _ _ h => .of_chipOp h.1) fun _ _ h => .of_chipOp h.2.1)
      exact ⟨e, _, rfl, hrx.andThen fun _ u => ⟨.of_st rfl, rfl, rfl⟩⟩
    · cases h; exact ⟨_, s, rfl, .refl s⟩

/-! ## What the steps of a SEND_SYNC leave alone -/

/-- What a SEND_SYNC's steps may write of `st`; they log nothing. -/
structure SyncOp (s t : State) : Prop where
  st : t.st = { s.st with mode := t.st.mode, txStart := t.st.txStart, txLock := t.st.txLock }
  port : t.port = s.port
  log : t.log = s.log
  turns : t.turns = s.turns
  cfg : t.cfg = s.cfg

theorem syncBegin_op {id : Nat} {msg : List Byte} (h : syncBegin id msg s = .next t) :
    SyncOp s t ∧ t.nextSyncId = s.nextSyncId ∧ ∀ a ∈ s.syncs, a.id ≠ id → a ∈ t.syncs := by
  rcases syncBegin_spec h with
    ⟨hst, hlog, -, -, hnext, hport, hturns, hcfg, -, hsyncs⟩ | ⟨hst, -, hlog, -, -, hnext, hport, hturns, hcfg, -, hsyncs⟩
  · refine ⟨⟨by rw [hst], hport, hlog, hturns, hcfg⟩, hnext, fun a ha hid => ?_⟩
    rw [hsyncs]
    exact List.mem_map.mpr ⟨a, ha, if_neg hid⟩
  · refine ⟨⟨by rw [hst], hport, hlog, hturns, hcfg⟩, hnext, fun a ha hid => ?_⟩
    rw [hsyncs]
    exact List.mem_filter.mpr ⟨ha, by simpa using hid⟩

/-- A poll besides does not sample the time, and writes nothing of `st` but the lock. -/
theorem syncPoll_op {id n : Nat} (h : syncPoll id n s = .next t) :
    (SyncOp s t ∧ t.nextSyncId = s.nextSyncId ∧ ∀ a ∈ s.syncs, a.id ≠ id → a ∈ t.syncs) ∧
    t.clock = s.clock ∧ t.ticks = s.ticks ∧ t.st = { s.st with txLock := t.st.txLock } := by
  obtain ⟨⟨hclock, hlog, hnext, hport, hturns, hcfg, -⟩, hcase⟩ := syncPoll_spec h
  have hticks : t.ticks = s.ticks := by
    have hget := getMode_spec s
    unfold syncPoll at h
    split at h
    · cases h
    · split at h
      next hr => rw [hr] at hget; cases h; rw [State.endSync_ticks, State.releaseSync_eq]; exact hget.2.1.sameTicks
      next hr =>
        rw [hr] at hget
        split at h <;> cases h
        · exact hget.1.sameTicks
        · rw [State.endSync_ticks, State.releaseSync_eq]; exact hget.1.sameTicks
  have hst : t.st = { s.st with txLock := t.st.txLock } := by
    rcases hcase with ⟨hst, -⟩ | ⟨hst, -⟩ <;> rw [hst]
  refine ⟨⟨⟨by rw [hst], hport, hlog, hturns, hcfg⟩, hnext, fun a ha hid => ?_⟩, hclock, hticks, hst⟩
  rcases hcase with ⟨-, -, hsyncs⟩ | ⟨-, -, hsyncs⟩ <;> rw [hsyncs]
  · exact List.mem_map.mpr ⟨a, ha, if_neg hid⟩
  · exact List.mem_filter.mpr ⟨ha, by simpa using hid⟩

theorem execSendSync_op {msg : List Byte} (h : execSendSync msg s = .next t) : SyncOp s t := by
  unfold execSendSync at h
  split at h
  · cases h
  · split at h
    · cases h
    · split at h
      · cases h; exact ⟨rfl, rfl, rfl, rfl, rfl⟩
      · split at h
        · obtain ⟨⟨hst, hport, hlog, hturns, hcfg⟩, -⟩ := syncBegin_op h
          exact ⟨hst, hport, hlog, hturns, hcfg⟩
        · cases h; exact ⟨rfl, rfl, rfl, rfl, rfl⟩

/-! ## The mode cache -/

/-- The cached mode moves with the mode writes that stand in the trace from `s` to `t` (R21, R56). -/
def ModeCacheFollows (s t : State) : Prop :=
  ∃ new, t.trace = s.trace ++ new ∧ t.st.mode = lastModeWrite s.st.mode new

theorem ModeCacheFollows.of_eq (htrace : t.trace = s.trace := by rfl) (hmode : t.st.mode = s.st.mode := by rfl) :
    ModeCacheFollows s t :=
  ⟨[], by rw [htrace, List.append_nil], hmode⟩

/-- Another state with the same trace and mode may stand at the start. -/
theorem ModeCacheFollows.from_eq (h : ModeCacheFollows t u) (htrace : t.trace = s.trace := by rfl)
    (hmode : t.st.mode = s.st.mode := by rfl) : ModeCacheFollows s u := by
  obtain ⟨new, hnew, hm⟩ := h
  exact ⟨new, htrace ▸ hnew, hmode ▸ hm⟩

theorem syncPoll_mode {id n : Nat} (h : syncPoll id n s = .next t) : ModeCacheFollows s t := by
  obtain ⟨⟨-, -, -, -, -, -, a, htrace⟩, -⟩ := syncPoll_spec h
  obtain ⟨-, -, -, hst⟩ := syncPoll_op h
  exact ⟨_, htrace, by rw [hst]; rfl⟩

theorem syncBegin_mode {id : Nat} {msg : List Byte} (h : syncBegin id msg s = .next t) : ModeCacheFollows s t := by
  rcases syncBegin_spec h with ⟨-, -, -, -, -, -, -, -, hmode, -⟩ | ⟨-, -, -, -, -, -, -, -, -, hmode, -⟩ <;> exact hmode

theorem syncStep_mode {id : Nat} (h : syncStep id s = .next t) : ModeCacheFollows s t := by
  rcases syncStep_cases h with rfl | ⟨msg, -, -, h⟩ | ⟨n, -, h⟩
  · exact .of_eq
  · exact syncBegin_mode h
  · exact syncPoll_mode h

theorem execSendSync_mode {msg : List Byte} (h : execSendSync msg s = .next t) : ModeCacheFollows s t := by
  unfold execSendSync at h
  split at h
  · cases h
  · split at h
    · cases h
    · split at h
      · cases h; exact .of_eq
      · split at h
        · exact (syncBegin_mode h).from_eq
        · cases h; exact .of_eq

theorem execStop_mode (h : execStop s = .next t) : ModeCacheFollows s t := by
  unfold execStop at h
  split at h <;> cases h <;> exact .of_eq

theorem execSend_mode {msg : List Byte} (h : execSend msg s = .next t) : ModeCacheFollows s t := by
  unfold execSend at h
  split at h
  · cases h
  · split at h
    · cases h
    · split at h <;> cases h <;> exact .of_eq

theorem execPacketEncode_mode {plain : List Byte} (h : execPacketEncode plain s = .next t) : ModeCacheFollows s t := by
  unfold execPacketEncode at h
  split at h <;> cases h
  exact .of_eq

theorem execPacketDecode_mode {rx : List Byte} (h : execPacketDecode rx s = .next t) : ModeCacheFollows s t := by
  unfold execPacketDecode at h
  split at h
  · split at h <;> cases h <;> exact .of_eq
  · cases h

theorem execFlushRx_mode (h : execFlushRx s = .next t) : ModeCacheFollows s t := by
  cases h
  exact .of_eq

theorem envEdge_mode (h : envEdge s = .next t) : ModeCacheFollows s t := by
  unfold envEdge at h
  split at h
  · split at h <;> cases h
    exact .of_eq
  · cases h; exact .of_eq

theorem execEvIrq_op (h : execEvIrq s = .next t) : IrqOp s t := by
  unfold execEvIrq at h
  split at h
  · exact handleIrq_op h
  · cases h; exact .refl s

theorem execEvMsg_op (h : execEvMsg s = .next t) : SubOp s t ∧ t.st.backlog <:+ s.st.backlog ∧
    t.st = { s.st with
      mode := t.st.mode, backlog := t.st.backlog, txStart := t.st.txStart, txLock := t.st.txLock, msgPending := t.st.msgPending } := by
  unfold execEvMsg at h
  split at h <;> cases h
  · exact handleMsg_op s
  · exact ⟨.refl s, List.suffix_rfl, rfl⟩

theorem execEvStop_op (h : execEvStop s = .next t) : UntimedOp s t ∧
    t.st = { s.st with
      mode := t.st.mode, backlog := t.st.backlog, irqPending := t.st.irqPending, msgPending := t.st.msgPending,
      stopPending := t.st.stopPending, txLock := t.st.txLock, running := t.st.running } := by
  unfold execEvStop at h
  split at h <;> cases h
  · obtain ⟨hop, hst, -⟩ := handleStop_spec s
    exact ⟨hop, by rw [hst]⟩
  · exact ⟨.of_chipOp (.refl s), rfl⟩

theorem exec_mode {i : Instr} (h : exec i s = .next t) : ModeCacheFollows s t := by
  cases i with
  | configure p => obtain ⟨e, u, rfl, hop⟩ := execConfigure_eq_next h; exact hop.trace
  | start => obtain ⟨e, u, rfl, hop⟩ := execStart_eq_next h; exact hop.trace
  | stop => exact execStop_mode h
  | send msg => exact execSend_mode h
  | sendSync msg => exact execSendSync_mode h
  | flushRx => exact execFlushRx_mode h
  | packetEncode plain => exact execPacketEncode_mode h
  | packetDecode rx => exact execPacketDecode_mode h
  | reconfigure p => obtain ⟨e, u, rfl, hop⟩ := execReconfigure_eq_next h; exact hop.trace
  | evIrq => exact (execEvIrq_op h).trace
  | evMsg => exact (execEvMsg_op h).1.trace
  | evStop => exact (execEvStop_op h).1.trace

/-! ## The state as a whole, by what may differ -/

theorem SubOp.eq_update (h : SubOp s t) :
    t = { s with
      st := t.st, trace := t.trace, log := t.log, chip := t.chip, ticks := t.ticks, clock := t.clock, draws := t.draws } := by
  rw [← h.syncs, ← h.nextSyncId, ← h.port, ← h.responses, ← h.turns, ← h.cfg]

theorem UntimedOp.eq_update (h : UntimedOp s t) :
    t = { s with st := t.st, trace := t.trace, log := t.log, chip := t.chip, draws := t.draws } := by
  rw [← h.sameClock, ← h.sameTicks]
  exact h.toSubOp.eq_update

/-- The end of a command. -/
theorem UntimedOp.respond_eq_update (h : UntimedOp s t) (id : Option Nat) (e : Status) (r : Results) :
    t.respond id e r = { s with
      st := t.st, responses := (t.respond id e r).responses, trace := t.trace, log := t.log, chip := t.chip, draws := t.draws } := by
  rw [← h.syncs, ← h.nextSyncId, ← h.port, ← h.turns, ← h.cfg, ← h.sameClock, ← h.sameTicks]
  rfl

theorem SyncOp.eq_update (h : SyncOp s t) :
    t = { s with
      st := { s.st with mode := t.st.mode, txStart := t.st.txStart, txLock := t.st.txLock },
      syncs := t.syncs, nextSyncId := t.nextSyncId, responses := t.responses, trace := t.trace, chip := t.chip,
      ticks := t.ticks, clock := t.clock, draws := t.draws } := by
  rw [← h.st, ← h.port, ← h.log, ← h.turns, ← h.cfg]

end

/-- Settles O13: only sub-operations touch the bus, and each moves the cache with its own mode writes (`SubOp.trace`). -/
theorem modeCacheIsTheLastModeWrite : Obligations.ModeCacheIsTheLastModeWrite := by
  intro s t hstep
  rcases step_cases hstep with rfl | ⟨i, rest, h⟩ | ⟨id, h⟩ | h
  · exact ModeCacheFollows.of_eq
  · exact (exec_mode h).from_eq
  · exact (syncStep_mode h).from_eq
  · exact (envEdge_mode h).from_eq

/-- Settles O37: both commands are programming operations, followed by the response. -/
theorem frameOfProgrammingCommands : Obligations.FrameOfProgrammingCommands := by
  intro p s t h
  obtain ⟨e, u, rfl, hop⟩ : ∃ e u, t = u.respond none e .none ∧ ProgrammingOp s u :=
    h.elim (fun h => execConfigure_eq_next h) fun h => execReconfigure_eq_next h
  have hu := hop.toUntimedOp.respond_eq_update none e .none
  rwa [hop.st] at hu

/-- Settles O58: the frame of each kind of step, with the rest of the state put together by the `eq_update` lemmas. -/
theorem frameOfArbiterSteps : Obligations.FrameOfArbiterSteps := by
  refine fun s t => ⟨fun h => ?_, fun msg h => ?_, fun h => ?_, fun h => ?_, fun h => ?_, fun id h => ?_⟩
  · -- START
    obtain ⟨e, u, rfl, hop⟩ := execStart_eq_next h
    have hu := hop.toUntimedOp.respond_eq_update none e .none
    rwa [hop.sameLog, hop.st] at hu
  · exact (execSendSync_op h).eq_update
  · -- EV_IRQ
    have hop := execEvIrq_op h
    refine ⟨?_, hop.rxbuf, hop.rxbuf_length, hop.backlog⟩
    rw [← hop.st]
    exact hop.toSubOp.eq_update
  · -- EV_MSG
    obtain ⟨hop, hback, hst⟩ := execEvMsg_op h
    rw [← hst]
    exact ⟨hop.eq_update, hback⟩
  · -- EV_STOP
    obtain ⟨hop, hst⟩ := execEvStop_op h
    rw [← hst]
    exact hop.eq_update
  · -- a step of a SEND_SYNC's agent
    rcases syncStep_cases h with rfl | ⟨msg, hmem, -, h⟩ | ⟨n, -, h⟩
    · exact ⟨rfl, fun _ => rfl, fun a ha _ => ha⟩
    · obtain ⟨hop, hnext, hothers⟩ := syncBegin_op h
      have hu := hop.eq_update
      rw [hnext] at hu
      exact ⟨hu, fun hpolls => absurd hmem (hpolls msg), hothers⟩
    · obtain ⟨⟨hop, hnext, hothers⟩, hclock, hticks, hst⟩ := syncPoll_op h
      have hu := hop.eq_update
      rw [hnext] at hu
      refine ⟨hu, fun _ => ?_, hothers⟩
      rw [← hop.st, hclock, hticks] at hu
      rwa [← hst]

end Sys2Proof.Machine

/-! PROOFS. Missing values (O54), and the telemetry and the bytes of the responses (O6). -/

namespace Sys2Proof.Machine

/-! ## The branch EV_IRQ takes -/

section
variable {s : State} {flags : Byte}

theorem irqBranch_tx (hd : s.decidedDefaults) : irqBranch (some 0x83) (some flags) s = txBranch flags s := by
  rw [irqBranch, hd, modeTx_eq, if_pos rfl]

theorem irqBranch_rx (hd : s.decidedDefaults) : irqBranch (some 0x85) (some flags) s = rxBranch flags s := by
  rw [irqBranch, hd, modeTx_eq, modeRxContinuous_eq, if_neg (by decide), if_pos rfl]

theorem txBranch_noTxStart (hf : flagSet flags s.cfg.irqTxDone = true) (h0 : s.st.txStart = none) :
    txBranch flags s = .fault .noTxStart := by
  rw [txBranch, if_pos hf, h0]

theorem rxPacket_noParams {r : List Byte × Byte × Byte} {t : State} (hr : readPacket s = .done r t) (hp : t.st.params = none) :
    rxPacket s = .fault .noParams := by
  obtain ⟨pay, snr, rssi⟩ := r
  simp only [rxPacket, hr, hp]

/-- The RX branch reads the packet when receive-complete is set without CRC-error (R150). -/
theorem rxBranch_ready (hd : s.decidedDefaults) (hdone : flags.getLsbD 6 = true) (hcrc : flags.getLsbD 5 = false) :
    rxBranch flags s = rxPacket s := by
  have hready : s.cfg.rxPacketReady flags = true := by
    rw [hd, Decided.rxPacketReady, flagSet_irqRxDone, flagSet_irqCrcErr, hdone, hcrc]; rfl
  rw [rxBranch, if_pos hready]

/-- A branch that faults stops EV_IRQ before the flags are cleared. -/
theorem evIrq_fault {e : Fault} {c : List ChipAnswer} (hrun : s.st.running = true) (hirq : 0 < s.st.irqPending)
    (hc : s.chip = .gives [flags] :: c) (hb : irqBranch s.st.mode (some flags) (flagsRead s flags c) = .fault e) :
    exec .evIrq s = .fault e := by
  change execEvIrq s = _
  rw [evIrq_read hrun hirq hc, hb, onNext_fault]

end

/-- Settles O54: the flags are read, and the branch of the cached mode faults. -/
theorem missingValuesAreFaults : Obligations.MissingValuesAreFaults := by
  refine fun s flags rest hd hrun hirq => ⟨fun hm h0 hflag hc => ?_, fun n a snr rssi pay d1 hm hp hdone hcrc hn hl hc => ?_⟩
  · have hd' : (flagsRead s flags rest).decidedDefaults := hd
    have hset : flagSet flags (flagsRead s flags rest).cfg.irqTxDone = true := by rw [hd', flagSet_irqTxDone, hflag]
    exact evIrq_fault hrun hirq hc (by rw [hm, irqBranch_tx hd', txBranch_noTxStart hset h0])
  · refine evIrq_fault hrun hirq hc ?_
    generalize hu : flagsRead s flags _ = u
    have hd' : u.decidedDefaults := hu ▸ hd
    obtain ⟨t, hread, hst, -⟩ := readPacket_gives (s := u) (n := n) (a := a) (snr := snr) (rssi := rssi) (d := d1)
      (rest := rest) hd' hl
      (by rw [← hu, rxPacketTxns, if_neg hn]; rfl)
    have hpar : t.st.params = none := by rw [hst, ← hu]; exact hp
    rw [hm, irqBranch_rx hd', rxBranch_ready hd' hdone hcrc, rxPacket_noParams hread hpar]

/-! ## Telemetry and responses -/

theorem rssiDbm_range (m : ReceivedMessage) : -137 ≤ rssiDbm m ∧ rssiDbm m ≤ 118 := by
  have h := m.rssiRaw.isLt
  unfold rssiDbm
  omega

theorem snrQuarterDb_eq (m : ReceivedMessage) :
    snrQuarterDb m = if m.snrRaw.toNat < 128 then (m.snrRaw.toNat : Int) else (m.snrRaw.toNat : Int) - 256 := by
  rw [snrQuarterDb, BitVec.toInt_eq_toNat_cond]
  have h : 2 * m.snrRaw.toNat < 2 ^ 8 ↔ m.snrRaw.toNat < 128 := by omega
  simp only [h]
  rfl

theorem snrQuarterDb_range (m : ReceivedMessage) : -128 ≤ snrQuarterDb m ∧ snrQuarterDb m ≤ 127 := by
  have h := m.snrRaw.isLt
  rw [snrQuarterDb_eq]
  split <;> omega

/-- Field `i` of a sequence of big-endian fields, each given by its width in bytes and its value. -/
theorem beNat_field {fields : List (Nat × Nat)} {i w v : Nat} (h : fields[i]? = some (w, v)) (bs : List Byte) :
    beNat (((bs ++ fields.flatMap fun f => beBytes f.1 f.2).drop (bs.length + ((fields.take i).map Prod.fst).sum)).take w) =
      v % 256 ^ w := by
  obtain ⟨hi, hf⟩ := List.getElem?_eq_some_iff.mp h
  have hsplit : fields = fields.take i ++ (w, v) :: fields.drop (i + 1) := by
    rw [← hf, ← List.drop_eq_getElem_cons hi, List.take_append_drop]
  have hbytes : (fields.flatMap fun f => beBytes f.1 f.2) = ((fields.take i).flatMap fun f => beBytes f.1 f.2) ++
      (beBytes w v ++ (fields.drop (i + 1)).flatMap fun f => beBytes f.1 f.2) := by
    conv_lhs => rw [hsplit, List.flatMap_append, List.flatMap_cons]
  have hlen : ((fields.take i).flatMap fun f => beBytes f.1 f.2).length = ((fields.take i).map Prod.fst).sum := by
    simp only [List.length_flatMap, beBytes_length]
  rw [List.drop_length_add_append, ← hlen, hbytes, List.drop_left, List.take_left' (beBytes_length w v), beNat_beBytes]

/-- The fields of a ReceivedMessage record that follow its payload: the telemetry, the timestamp and the parameters (R91, R92). -/
def recordFields (m : ReceivedMessage) : List (Nat × Nat) :=
  [(1, m.rssiRaw.toNat), (1, m.snrRaw.toNat), (8, m.timestamp), (8, m.params.frequencyHz.toNat), (4, m.params.bandwidthHz.toNat),
    (1, m.params.spreadingFactor.toNat), (1, m.params.codingRate.toNat), (2, m.params.preambleLength.toNat)]

theorem beBytes_one_toNat (b : Byte) : beBytes 1 b.toNat = [b] := by
  simp [beBytes]

theorem messageBytes_eq (m : ReceivedMessage) : messageBytes m =
    (BitVec.ofNat 8 m.payload.length :: m.payload) ++ (recordFields m).flatMap fun f => beBytes f.1 f.2 := by
  simp [messageBytes, encodeParams, recordFields, beBytes_one_toNat, show beBytes 1 m.payload.length = [_] from rfl]

/-- A field of a record, by its number among those after the payload. -/
theorem messageBytes_field {m : ReceivedMessage} {w v k : Nat} (i : Nat) (h : (recordFields m)[i]? = some (w, v))
    (hk : 1 + (((recordFields m).take i).map Prod.fst).sum = k) :
    beNat (((messageBytes m).drop (m.payload.length + k)).take w) = v % 256 ^ w := by
  rw [messageBytes_eq, ← hk, ← Nat.add_assoc]
  exact beNat_field h (BitVec.ofNat 8 m.payload.length :: m.payload)

/-- A field that is wide enough for its value. -/
theorem messageBytes_field_of_lt {m : ReceivedMessage} {w v k : Nat} (i : Nat) (h : (recordFields m)[i]? = some (w, v))
    (hk : 1 + (((recordFields m).take i).map Prod.fst).sum = k) (hv : v < 256 ^ w) :
    beNat (((messageBytes m).drop (m.payload.length + k)).take w) = v :=
  (messageBytes_field i h hk).trans (Nat.mod_eq_of_lt hv)

/-- Settles O6: the ranges by the width of a byte, the fields of a record by their place in `recordFields`. -/
theorem telemetryRanges : Obligations.TelemetryRanges := by
  refine ⟨fun m => ?_, ⟨rfl, rfl, rfl, rfl, rfl, rfl, rfl⟩,
    fun sync e bs ms => ⟨rfl, rfl, beBytes 4 ms.length, rfl, ?_, ?_⟩, fun m _ => ?_⟩
  · obtain ⟨hrssi, hrssi'⟩ := rssiDbm_range m
    exact ⟨rfl, hrssi, hrssi', snrQuarterDb_eq m, snrQuarterDb_range m⟩
  · exact beBytes_length 4 _
  · exact beNat_beBytes 4 _
  · refine ⟨?_, ?_, ?_, ?_⟩
    · rw [messageBytes_eq]
      simp [recordFields]
    · rw [messageBytes_eq]; rfl
    · rw [messageBytes_eq]; simp
    · exact ⟨messageBytes_field_of_lt 0 rfl rfl m.rssiRaw.isLt, messageBytes_field_of_lt 1 rfl rfl m.snrRaw.isLt,
        messageBytes_field 2 rfl rfl, messageBytes_field_of_lt 3 rfl rfl m.params.frequencyHz.isLt,
        messageBytes_field_of_lt 4 rfl rfl m.params.bandwidthHz.isLt, messageBytes_field_of_lt 5 rfl rfl m.params.spreadingFactor.isLt,
        messageBytes_field_of_lt 6 rfl rfl m.params.codingRate.isLt, messageBytes_field_of_lt 7 rfl rfl m.params.preambleLength.isLt⟩

end Sys2Proof.Machine

/-! PROOFS. CONFIGURE and RECONFIGURE of a valid record under every answer of the chip (O33). -/

namespace Sys2Proof.Machine

/-! ## The last transaction of INITIALIZE: the write of the transmit power -/

/-- From `s` to `t` no write of the transmit power succeeds, and the parameters stay. -/
structure NoPowerWrite (s t : State) : Prop where
  cfg : t.cfg = s.cfg
  trace : ∃ new, t.trace = s.trace ++ new ∧ ∀ v, .setByte regPaConfig v true ∉ new

/-- A sub-operation writes the transmit power exactly when it is done. -/
def PowerWriteDecides (s : State) (r : Res Unit) : Prop :=
  r.All (fun _ t => ∃ new, t.trace = s.trace ++ new ∧ .setByte regPaConfig s.cfg.txPowerByte true ∈ new)
    fun _ t => NoPowerWrite s t

section
variable {s t u : State}

theorem NoPowerWrite.of_eq (htrace : t.trace = s.trace := by rfl) (hcfg : t.cfg = s.cfg := by rfl) : NoPowerWrite s t :=
  ⟨hcfg, [], by rw [htrace, List.append_nil], nofun⟩

theorem NoPowerWrite.trans (h : NoPowerWrite s t) (g : NoPowerWrite t u) : NoPowerWrite s u := by
  obtain ⟨a, ha, hna⟩ := h.trace
  obtain ⟨b, hb, hnb⟩ := g.trace
  exact ⟨g.cfg.trans h.cfg, a ++ b, by rw [hb, ha, List.append_assoc], fun v hv =>
    (List.mem_append.mp hv).elim (hna v) (hnb v)⟩

/-- Another state with the same trace may stand at the start. -/
theorem NoPowerWrite.from_eq (h : NoPowerWrite t u) (htrace : t.trace = s.trace := by rfl) (hcfg : t.cfg = s.cfg := by rfl) :
    NoPowerWrite s u :=
  (NoPowerWrite.of_eq htrace hcfg).trans h

theorem NoPowerWrite.of_record (n : Nat) {x : BusTxn} (hx : ∀ v, x ≠ .setByte regPaConfig v true) :
    NoPowerWrite s ((s.useAnswer n).record x) :=
  ⟨rfl, [x], rfl, fun v hv => hx v (List.mem_singleton.mp hv).symm⟩

theorem NoPowerWrite.andThen {α β : Type} {r : Res α} {f : α → State → Res β} (h : NoPowerWrite s r.state)
    (hf : ∀ a t, NoPowerWrite t (f a t).state) : NoPowerWrite s (r.andThen f).state := by
  cases r with
  | done a t => exact h.trans (hf a t)
  | raised e t => exact h

theorem PowerWriteDecides.after {r : Res Unit} (h : NoPowerWrite s t) (hr : PowerWriteDecides t r) : PowerWriteDecides s r := by
  refine hr.mono (fun _ u ⟨new, hu, hmem⟩ => ?_) fun _ u hu => h.trans hu
  obtain ⟨a, ha, -⟩ := h.trace
  exact ⟨a ++ new, by rw [hu, ha, List.append_assoc], List.mem_append_right a (h.cfg ▸ hmem)⟩

/-- The rule of sequence: the power is written by the last part. -/
theorem PowerWriteDecides.andThen {α : Type} {r : Res α} {f : α → State → Res Unit} (h : NoPowerWrite s r.state)
    (hf : ∀ a t, PowerWriteDecides t (f a t)) : PowerWriteDecides s (r.andThen f) := by
  cases r with
  | done a t => exact (hf a t).after h
  | raised e t => exact h

theorem getByte_noPowerWrite (reg : RegAddr) (s : State) : NoPowerWrite s (getByte reg s).state := by
  unfold getByte
  split <;> exact .of_record _ nofun

theorem setByte_noPowerWrite {reg : RegAddr} (h : reg ≠ regPaConfig) (v : Byte) (s : State) :
    NoPowerWrite s (setByte reg v s).state := by
  unfold setByte
  split
  · exact .of_record _ nofun
  · exact .of_record _ fun w he => by cases he; exact h rfl

theorem setMode_noPowerWrite (m : Byte) (s : State) : NoPowerWrite s (setMode m s).state :=
  (setByte_noPowerWrite (by decide) m s).andThen fun _ _ => .of_eq

theorem attemptWrite_noPowerWrite (s : State) : NoPowerWrite s (attemptWrite s) := by
  have h := setMode_noPowerWrite s.cfg.modeSleep s
  unfold attemptWrite
  split
  next hr => rw [hr] at h; exact h
  next hr => rw [hr] at h; exact h.trans .of_eq

theorem attemptRead_noPowerWrite (s : State) : NoPowerWrite s (attemptRead s).2 := by
  have h : NoPowerWrite s (getMode s).state := (getByte_noPowerWrite regOpMode s).andThen fun _ _ => .of_eq
  unfold attemptRead
  split
  next hr => rw [hr] at h; exact h
  next hr => rw [hr] at h; exact h.trans .of_eq

theorem verifySleep_noPowerWrite (n : Nat) (s : State) : NoPowerWrite s (verifySleep n s).2 := by
  induction n generalizing s with
  | zero => exact .of_eq
  | succ n ih =>
    have h := (attemptWrite_noPowerWrite s).trans (attemptRead_noPowerWrite _)
    unfold verifySleep
    split
    next hr => rw [hr] at h; exact h
    next hr => rw [hr] at h; exact h.trans (ih _)

theorem readModifyWrite_noPowerWrite {reg : RegAddr} (h : reg ≠ regPaConfig) (f : Byte → Byte) (s : State) :
    NoPowerWrite s ((getByte reg s).andThen fun v s => setByte reg (f v) s).state :=
  (getByte_noPowerWrite reg s).andThen fun _ _ => setByte_noPowerWrite h _ _

theorem setBandwidth_noPowerWrite (bw : BitVec 32) (s : State) : NoPowerWrite s (setBandwidth bw s).state := by
  unfold setBandwidth
  split
  · exact .of_eq
  · exact readModifyWrite_noPowerWrite (by decide) _ s

theorem setSpreadingFactor_noPowerWrite (sf : Byte) (s : State) : NoPowerWrite s (setSpreadingFactor sf s).state := by
  unfold setSpreadingFactor
  split
  · exact readModifyWrite_noPowerWrite (by decide) _ s
  · exact .of_eq

theorem setCodingRate_noPowerWrite (cr : Byte) (s : State) : NoPowerWrite s (setCodingRate cr s).state := by
  unfold setCodingRate
  split
  · exact readModifyWrite_noPowerWrite (by decide) _ s
  · exact .of_eq

theorem setPreamble_noPowerWrite (n : BitVec 16) (s : State) : NoPowerWrite s (setPreamble n s).state := by
  unfold setPreamble
  split
  · exact (setByte_noPowerWrite (by decide) _ s).andThen fun _ _ => setByte_noPowerWrite (by decide) _ _
  · exact .of_eq

theorem setFrequency_noPowerWrite (f : BitVec 64) (s : State) : NoPowerWrite s (setFrequency f s).state :=
  (setByte_noPowerWrite (by decide) _ s).andThen fun _ _ =>
  (setByte_noPowerWrite (by decide) _ _).andThen fun _ _ => setByte_noPowerWrite (by decide) _ _

theorem setTxPower_decides (s : State) : PowerWriteDecides s (setTxPower s) := by
  unfold setTxPower setByte
  split
  · exact NoPowerWrite.of_record _ (by simp)
  · exact ⟨_, rfl, List.mem_singleton.mpr rfl⟩

theorem programOps_decides (p : RadioParameters) (s : State) : PowerWriteDecides s (programOps p s) :=
  .andThen (setByte_noPowerWrite (by decide) _ s) fun _ _ =>
  .andThen (setByte_noPowerWrite (by decide) _ _) fun _ _ =>
  .andThen (setMode_noPowerWrite _ _) fun _ _ =>
  .andThen (setBandwidth_noPowerWrite _ _) fun _ _ =>
  .andThen (setSpreadingFactor_noPowerWrite _ _) fun _ _ =>
  .andThen (setCodingRate_noPowerWrite _ _) fun _ _ =>
  .andThen (setPreamble_noPowerWrite _ _) fun _ _ =>
  .andThen (setFrequency_noPowerWrite _ _) fun _ _ =>
  .andThen (setByte_noPowerWrite (by decide) _ _) fun _ _ => setTxPower_decides _

/-- INITIALIZE succeeds exactly when its last transaction does, whatever the chip answers (R121). -/
theorem initializeChip_decides (p : RadioParameters) (s : State) : PowerWriteDecides s (initializeChip p s) := by
  have h := (verifySleep_noPowerWrite initAttempts { s with st := { s.st with configured := false } }).from_eq (s := s)
  unfold initializeChip
  split
  next u hr =>
    rw [hr] at h
    rw [programChip_eq]
    have hops := programOps_decides p { u with st := { u.st with irqRegistered := true } }
    exact PowerWriteDecides.after (h.trans .of_eq) (Res.All.andThen hops fun _ _ h => h)
  next hr => rw [hr] at h; exact h

/-! ## The two commands on a valid record -/

/-- A record in the four domains, with a bandwidth that has this code and a frequency that has an encoding, is valid (R77, R81,
R113). -/
theorem validParams_of_domains {p : RadioParameters} {code : Byte} (hd : s.decidedDefaults)
    (hbw : ∃ c, Decided.standard.bwCode p.bandwidthHz = some c ∧ c.setWidth 8 = code)
    (hsf : 7 ≤ p.spreadingFactor.toNat) (hsf' : p.spreadingFactor.toNat ≤ 12) (hcr : 5 ≤ p.codingRate.toNat)
    (hcr' : p.codingRate.toNat ≤ 8) (hpre : 6 ≤ p.preambleLength.toNat) : s.cfg.validParams p = true := by
  obtain ⟨c, hc, -⟩ := hbw
  rw [hd, validParams_iff, hc]
  exact ⟨rfl, spreadingFactorOk_of hsf hsf', codingRateOk_of hcr hcr', preambleLengthOk_of hpre⟩

/-- Each of the ten bandwidths has a code. -/
theorem bwCode_of_mem_bandwidths {bw : BitVec 32}
    (h : bw.toNat ∈ [7800, 10400, 15600, 20800, 31250, 41700, 62500, 125000, 250000, 500000]) :
    ∃ code c, Decided.standard.bwCode bw = some c ∧ c.setWidth 8 = (code : Byte) := by
  have h' : bw.toNat ∈ List.map Prod.fst [(7800, (0x00 : Byte)), (10400, 0x01), (15600, 0x02), (20800, 0x03), (31250, 0x04),
    (41700, 0x05), (62500, 0x06), (125000, 0x07), (250000, 0x08), (500000, 0x09)] := h
  obtain ⟨⟨n, code⟩, hmem, hn⟩ := List.mem_map.mp h'
  exact ⟨code, bwCode_of_mem (hn ▸ hmem)⟩

theorem exec_configure_valid {p : RadioParameters} (hrun : s.st.running = false) (hvalid : s.cfg.validParams p = true)
    (hfreq : frequencyEncodable p.frequencyHz = true) :
    exec (.configure p) s = endCommand (initializeChip p { s with st := { s.st with params := some p } }) := by
  simp only [exec, execConfigure, hrun, hvalid, hfreq, Bool.false_eq_true, if_false, if_true]

theorem exec_reconfigure_valid {p : RadioParameters} (hd : s.decidedDefaults) (hm : s.st.mode ≠ some 0x83)
    (hvalid : s.cfg.validParams p = true) (hfreq : frequencyEncodable p.frequencyHz = true) :
    exec (.reconfigure p) s = endCommand ((setMode 0x81 s).andThen fun _ s =>
      (initializeChip p { s with st := { s.st with params := some p } }).andThen fun _ s => enterRx s) := by
  have hquiet : s.transmitting = false := by simpa [State.transmitting, hd, modeTx_eq] using hm
  have hstandby : s.cfg.modeStandby = 0x81 := by rw [hd, modeStandby_eq]
  simp only [exec, execReconfigure, hquiet, hvalid, hfreq, hstandby, Bool.false_eq_true, if_false, if_true]

/-- The state after a successful mode write. -/
def modeWritten (s : State) (m : Byte) : State :=
  { (s.useAnswer 0).record (.setByte regOpMode m true) with st := { s.st with mode := some m } }

theorem setMode_of_gives {d : List Byte} (m : Byte) (h : nextAnswer s = .gives d) : setMode m s = .done () (modeWritten s m) := by
  rw [setMode, setByte_of_gives _ _ h]; rfl

theorem setMode_of_fails (m : Byte) (h : nextAnswer s = .fails) :
    setMode m s = .raised .ioError ((s.useAnswer 0).record (.setByte regOpMode m false)) := by
  rw [setMode, setByte_of_fails _ _ h]; rfl

/-- INITIALIZE of a valid record that CONFIGURE has stored, whatever the chip answers (R122, R223, R224). -/
theorem configure_completes {p : RadioParameters} (hd : s.decidedDefaults) (hrun : s.st.running = false)
    (hvalid : s.cfg.validParams p = true) (hfreq : frequencyEncodable p.frequencyHz = true) :
    ∃ t e, exec (.configure p) s = .next t ∧ t.responses = s.responses ++ ([⟨none, e, .none⟩] : List Response) ∧
      (e = .ok ∨ e = .ioError ∨ e = .initializationError) ∧ (t.st.configured = true ↔ e = .ok) ∧
      t.st = { s.st with params := some p, mode := t.st.mode, configured := t.st.configured,
                         irqRegistered := t.st.irqRegistered } ∧
      (e = .ok → t.st.mode = some 0x81 ∧ t.st.irqRegistered = true) ∧
      (s.st.irqRegistered = true → t.st.irqRegistered = true) := by
  have hspec := initializeChip_spec (p := p) (s := { s with st := { s.st with params := some p } }) hvalid
  rw [exec_configure_valid hrun hvalid hfreq]
  cases hr : initializeChip p { s with st := { s.st with params := some p } } with
  | done _ u =>
    rw [hr] at hspec
    obtain ⟨hsub, -, -, hst⟩ := hspec
    refine ⟨_, .ok, rfl, by rw [State.respond_responses, hsub.responses], .inl rfl, ?_⟩
    rw [State.respond_st, hst]
    exact ⟨by simp, rfl, fun _ => ⟨by rw [hd, modeStandby_eq], rfl⟩, fun _ => rfl⟩
  | raised e u =>
    rw [hr] at hspec
    obtain ⟨he, hsub, -, -, hst, hreg, -⟩ := hspec
    refine ⟨_, e, rfl, by rw [State.respond_responses, hsub.responses], .inr he, ?_⟩
    have hne : e ≠ .ok := by rcases he with rfl | rfl <;> decide
    have hconf : u.st.configured = false := by rw [hst]
    rw [State.respond_st]
    refine ⟨by simp [hconf, hne], ?_, fun h => absurd h hne, hreg⟩
    rw [hconf]; exact hst

/-- The state in which RECONFIGURE goes on to INITIALIZE: STANDBY is written, the record is stored (R123). -/
def reconfiguring (p : RadioParameters) (s : State) : State :=
  { modeWritten s 0x81 with st := { s.st with mode := some 0x81, params := some p } }

theorem reconfiguring_noPowerWrite (p : RadioParameters) (s : State) : NoPowerWrite s (reconfiguring p s) :=
  ⟨rfl, [.setByte regOpMode 0x81 true], rfl, by simp [regOpMode, regPaConfig]⟩

/-- A RECONFIGURE whose first SET_MODE fails (R123, R221). -/
theorem reconfigure_of_fails {p : RadioParameters} (hd : s.decidedDefaults) (hm : s.st.mode ≠ some 0x83)
    (hvalid : s.cfg.validParams p = true) (hfreq : frequencyEncodable p.frequencyHz = true) (hfails : nextAnswer s = .fails) :
    exec (.reconfigure p) s = .next (((s.useAnswer 0).record (.setByte 0x01 0x81 false)).respond none .ioError .none) := by
  rw [exec_reconfigure_valid hd hm hvalid hfreq, setMode_of_fails _ hfails]
  rfl

/-- A RECONFIGURE whose first SET_MODE succeeds goes on from STANDBY with the record stored (R123). -/
theorem reconfigure_of_gives {p : RadioParameters} {d : List Byte} (hd : s.decidedDefaults) (hm : s.st.mode ≠ some 0x83)
    (hvalid : s.cfg.validParams p = true) (hfreq : frequencyEncodable p.frequencyHz = true) (hgives : nextAnswer s = .gives d) :
    exec (.reconfigure p) s = endCommand ((initializeChip p (reconfiguring p s)).andThen fun _ s => enterRx s) := by
  rw [exec_reconfigure_valid hd hm hvalid hfreq, setMode_of_gives _ hgives]
  rfl

/-- What a RECONFIGURE that goes on after its first SET_MODE has come to when it ends with status `e` (R24, R121, R123; log
entry 28). -/
structure Reconfigured (p : RadioParameters) (s : State) (e : Status) (t : State) : Prop where
  responses : t.responses = s.responses
  status : e = .ok ∨ e = .ioError ∨ e = .initializationError
  st : t.st = { s.st with
    params := some p, mode := t.st.mode, configured := t.st.configured, irqRegistered := t.st.irqRegistered }
  configured_iff : t.st.configured = true ↔ .setByte 0x09 s.cfg.txPowerByte true ∈ t.trace.drop s.trace.length
  of_ok : e = .ok → t.st.configured = true ∧ t.st.mode = some 0x85 ∧ t.st.irqRegistered = true
  of_initializationError : e = .initializationError → t.st.configured = false
  of_error : e ≠ .ok → t.st.mode = some 0x80 ∨ t.st.mode = some 0x81
  registered : s.st.irqRegistered = true → t.st.irqRegistered = true

/-- Where ENTER_RX of a RECONFIGURE starts: INITIALIZE has succeeded. -/
structure ReadyForRx (p : RadioParameters) (s t : State) : Prop where
  responses : t.responses = s.responses
  cfg : t.cfg = s.cfg
  st : t.st = { s.st with params := some p, mode := some 0x81, configured := true, irqRegistered := true }
  written : ∃ new, t.trace = s.trace ++ new ∧ .setByte 0x09 s.cfg.txPowerByte true ∈ new

/-- INITIALIZE within a RECONFIGURE. -/
theorem initializeChip_reconfiguring {p : RadioParameters} (hd : s.decidedDefaults) (hvalid : s.cfg.validParams p = true) :
    (initializeChip p (reconfiguring p s)).All (fun _ t => ReadyForRx p s t) fun e t => Reconfigured p s e t := by
  have hd' : (reconfiguring p s).cfg.toDecided = Decided.standard := hd
  have hspec := initializeChip_spec (p := p) (s := reconfiguring p s) hvalid
  have hpower := (initializeChip_decides p (reconfiguring p s)).after (reconfiguring_noPowerWrite p s)
  rw [hd', modeStandby_eq, modeSleep_eq] at hspec
  cases hr : initializeChip p (reconfiguring p s) with
  | done a t =>
    rw [hr] at hspec hpower
    obtain ⟨hsub, -, -, hst⟩ := hspec
    exact ⟨hsub.responses, hsub.cfg, hst, hpower⟩
  | raised e t =>
    rw [hr] at hspec hpower
    obtain ⟨he, hsub, -, -, hst, hreg, hmode⟩ := hspec
    obtain ⟨new, htrace, hnone⟩ := hpower.trace
    have hne : e ≠ .ok := by rcases he with rfl | rfl <;> decide
    have hconf : t.st.configured = false := by rw [hst]
    refine ⟨hsub.responses, .inr he, by rw [hconf]; exact hst, ?_, (absurd · hne), fun _ => hconf, fun _ => ?_, hreg⟩
    · rw [htrace, List.drop_left]
      exact iff_of_false (by simp [hconf]) (hnone s.cfg.txPowerByte)
    · rcases hmode with h | h | h
      · exact .inr h
      · exact .inl h
      · exact .inr h

/-- ENTER_RX at the end of a RECONFIGURE moves the mode only. -/
theorem enterRx_reconfiguring {p : RadioParameters} (hd : s.decidedDefaults) (h : ReadyForRx p s t) :
    (enterRx t).All (fun _ u => Reconfigured p s .ok u) fun e u => Reconfigured p s e u := by
  obtain ⟨new, htrace, hmem⟩ := h.written
  have hst : ∀ u, ChipOp t u →
      u.st = { s.st with params := some p, mode := u.st.mode, configured := true, irqRegistered := true } := by
    intro u hu
    rw [hu.st, h.st]
  have hwritten : ∀ u, ChipOp t u → .setByte 0x09 s.cfg.txPowerByte true ∈ u.trace.drop s.trace.length := by
    intro u hu
    obtain ⟨more, hmore, -⟩ := hu.trace
    rw [hmore, htrace, List.append_assoc, List.drop_left]
    exact List.mem_append_left more hmem
  have hcommon : ∀ u, ChipOp t u → u.st.configured = true ∧ u.st.irqRegistered = true ∧
      u.st = { s.st with
        params := some p, mode := u.st.mode, configured := u.st.configured, irqRegistered := u.st.irqRegistered } := by
    intro u hu
    rw [hst u hu]
    exact ⟨rfl, rfl, rfl⟩
  refine (enterRx_spec t).mono ?_ ?_
  · rintro - u ⟨hu, hmode⟩
    obtain ⟨hconf, hreg, hframe⟩ := hcommon u hu
    rw [h.cfg, hd, modeRxContinuous_eq] at hmode
    exact ⟨hu.responses.trans h.responses, .inl rfl, hframe, iff_of_true hconf (hwritten u hu),
      fun _ => ⟨hconf, hmode, hreg⟩, nofun, (absurd rfl ·), fun _ => hreg⟩
  · rintro - u ⟨rfl, hu, hmode⟩
    obtain ⟨hconf, hreg, hframe⟩ := hcommon u hu
    exact ⟨hu.responses.trans h.responses, .inr (.inl rfl), hframe, iff_of_true hconf (hwritten u hu),
      nofun, nofun, fun _ => .inr (by rw [hmode, h.st]), fun _ => hreg⟩

/-- A RECONFIGURE whose first SET_MODE succeeds, whatever the chip answers after it. -/
theorem reconfigure_completes {p : RadioParameters} {d : List Byte} (hd : s.decidedDefaults) (hm : s.st.mode ≠ some 0x83)
    (hvalid : s.cfg.validParams p = true) (hfreq : frequencyEncodable p.frequencyHz = true) (hgives : nextAnswer s = .gives d) :
    ∃ t e, exec (.reconfigure p) s = .next (t.respond none e .none) ∧ Reconfigured p s e t := by
  have hall := (initializeChip_reconfiguring hd hvalid).andThen fun (_ : Unit) t h => enterRx_reconfiguring hd h
  rw [reconfigure_of_gives hd hm hvalid hfreq hgives]
  cases hr : (initializeChip p (reconfiguring p s)).andThen fun _ s => enterRx s with
  | done a t => rw [hr] at hall; exact ⟨t, .ok, rfl, hall⟩
  | raised e t => rw [hr] at hall; exact ⟨t, e, rfl, hall⟩

/-! ## The two commands on a script of the chip's answers that ends in a failure -/

/-- The STANDBY write is the third of the sixteen transactions of INITIALIZE after the verified mode, the only mode write. -/
theorem lastModeWrite_failingAt_programming (p : RadioParameters) (cfg : Config) (code v1 v2 v3 : Byte) (d : Nat → List Byte)
    (m : Option Byte) {k : Nat} (hk : k < 16) :
    lastModeWrite m (failingAt (programmingSteps p cfg code v1 v2 v3 d) k) = if 3 ≤ k then some 0x81 else m := by
  interval_cases k <;> rfl

theorem lastModeWrite_failingAt_reconfiguring (p : RadioParameters) (cfg : Config) (code v1 v2 v3 : Byte) (d d' : Nat → List Byte)
    (m : Option Byte) {k : Nat} (hk : k < 18) :
    lastModeWrite m (failingAt (programmingSteps p cfg code v1 v2 v3 d ++ enterRxSteps d') k) = if 3 ≤ k then some 0x81 else m := by
  interval_cases k <;> rfl

/-- Of two courses one after the other the second does not matter while the first is under way. -/
theorem answersTo_append_of_lt {a : List TxnStep} {k : Nat} (hk : k < a.length) (b : List TxnStep) :
    answersTo (a ++ b) k = answersTo a k := by
  rw [answersTo, answersTo, List.take_append_of_le_length hk.le]

theorem failingAt_append_of_lt {a : List TxnStep} {k : Nat} (hk : k < a.length) (b : List TxnStep) :
    failingAt (a ++ b) k = failingAt a k := by
  have hlen : 1 ≤ (a.drop k).length := by rw [List.length_drop]; omega
  rw [failingAt, failingAt, List.take_append_of_le_length hk.le, List.drop_append_of_le_length hk.le,
    List.take_append_of_le_length hlen]

theorem Initialized.cfg {attempts : List (ChipAnswer × ChipAnswer)} {a : List BusTxn} {c : Bool} {x : List ChipAnswer}
    (h : Initialized s t attempts a c x) : t.cfg = s.cfg := by
  obtain ⟨-, -, -, -, hcfg⟩ := h.hosts
  exact hcfg

/-- A course after INITIALIZE that leaves the cached mode alone, or moves it with its own mode writes. -/
theorem Initialized.andAfter {attempts : List (ChipAnswer × ChipAnswer)} {a b : List BusTxn} {c : Bool} {x y : List ChipAnswer}
    (h : Initialized s t attempts a c x) (g : After t u b y) : Initialized s u attempts (a ++ b) c y where
  chip := g.chip
  trace := by rw [g.trace, h.trace, List.append_assoc]
  log := g.log.trans h.log
  st := by rw [g.st, h.st, lastModeWrite_append]
  responses := g.responses.trans h.responses
  clock := g.clock.trans h.clock
  hosts := h.hosts.trans g.hosts

/-- INITIALIZE and ENTER_RX when an attempt verifies and one of the eighteen transactions after it fails (R121, R123, R221). -/
theorem initializeChip_enterRx_fails {p : RadioParameters} {code v1 v2 v3 : Byte} {d d' : Nat → List Byte}
    {bad : List (ChipAnswer × ChipAnswer)} {a : ChipAnswer × ChipAnswer}
    (hd : s.decidedDefaults) (hbw : ∃ c, Decided.standard.bwCode p.bandwidthHz = some c ∧ c.setWidth 8 = code)
    (hsf : spreadingFactorOk p.spreadingFactor = true) (hcr : codingRateOk p.codingRate = true)
    (hpre : preambleLengthOk p.preambleLength = true) (hn : bad.length ≤ 9)
    (hbad : ∀ a ∈ bad, a.2 = .fails ∨ ∃ b d, a.2 = .gives (b :: d) ∧ b &&& 0x87 ≠ 0x80)
    (ha : ∃ b d, a.2 = .gives (b :: d) ∧ b &&& 0x87 = 0x80) {k : Nat} (hk : k < 18) {rest : List ChipAnswer}
    (hc : s.chip = (bad ++ [a]).flatMap (fun a => [a.1, a.2]) ++
      (answersTo (programmingSteps p s.cfg code v1 v2 v3 d ++ enterRxSteps d') k ++ .fails :: rest)) :
    ∃ t, ((initializeChip p s).andThen fun _ s => enterRx s) = .raised .ioError t ∧
      Initialized s t (bad ++ [a]) (failingAt (programmingSteps p s.cfg code v1 v2 v3 d ++ enterRxSteps d') k) (decide (16 ≤ k))
        rest := by
  obtain ⟨hdone, hfail⟩ := initializeChip_follows (v1 := v1) (v2 := v2) (v3 := v3) (d := d) hd hbw hsf hcr hpre hn hbad ha
  have hlen : (programmingSteps p s.cfg code v1 v2 v3 d).length = 16 := rfl
  by_cases hprog : k < 16
  · -- INITIALIZE fails
    rw [answersTo_append_of_lt (hlen ▸ hprog)] at hc
    obtain ⟨t, ht, hinit⟩ := hfail k (hlen ▸ hprog) rest hc
    refine ⟨t, by rw [ht]; rfl, ?_⟩
    rwa [failingAt_append_of_lt (hlen ▸ hprog), decide_eq_false (by omega)]
  · -- INITIALIZE succeeds, ENTER_RX fails
    obtain ⟨j, rfl⟩ : ∃ j, k = (programmingSteps p s.cfg code v1 v2 v3 d).length + j := ⟨k - 16, by omega⟩
    rw [answersTo_append, List.append_assoc] at hc
    obtain ⟨t, ht, hinit⟩ := hdone _ hc
    have hdt : t.decidedDefaults := by rw [State.decidedDefaults, hinit.cfg]; exact hd
    obtain ⟨u, hu, hafter⟩ := (enterRx_follows d' hdt).fails j (by change j < 2; omega) rest hinit.chip
    refine ⟨u, by rw [ht]; exact hu, ?_⟩
    rw [failingAt_append, decide_eq_true (by omega)]
    exact hinit.andAfter hafter

end

/-- Settles O33: under every answer by `initializeChip_spec` and `initializeChip_decides`, on a script that fails at one
transaction by `initializeChip_follows`. -/
theorem configureCompletesUnderEveryAnswer : Obligations.ConfigureCompletesUnderEveryAnswer := by
  refine ⟨?_, ?_, ?_, ?_⟩
  · intro p s hd hrun hbw hsf hsf' hcr hcr' hpre hfreq
    obtain ⟨code, hcode⟩ := bwCode_of_mem_bandwidths hbw
    exact configure_completes hd hrun (validParams_of_domains hd hcode hsf hsf' hcr hcr' hpre) (frequencyEncodable_of hfreq)
  · intro p s hd hm hbw hsf hsf' hcr hcr' hpre hfreq
    obtain ⟨code, hcode⟩ := bwCode_of_mem_bandwidths hbw
    have hvalid := validParams_of_domains hd hcode hsf hsf' hcr hcr' hpre
    have hfreq := frequencyEncodable_of hfreq
    refine ⟨fun hfails => ?_, fun hgives => ?_⟩
    · exact ⟨_, reconfigure_of_fails hd hm hvalid hfreq hfails, rfl, rfl, rfl, rfl, rfl, rfl, rfl, rfl, rfl, rfl⟩
    · obtain ⟨d, hd0⟩ : ∃ d, nextAnswer s = .gives d := by
        cases ha : nextAnswer s with
        | fails => exact absurd ha hgives
        | gives d => exact ⟨d, rfl⟩
      obtain ⟨t, e, hexec, h⟩ := reconfigure_completes hd hm hvalid hfreq hd0
      exact ⟨_, e, hexec, by rw [State.respond_responses, h.responses], h.status, h.st, h.configured_iff, h.of_ok,
        h.of_initializationError, h.of_error, h.registered⟩
  · intro p s code bad w r v1 v2 v3 d rest hd hrun hbw hsf hsf' hcr hcr' hpre hfreq hn hbad hr attempts steps k hk hc
    have hcode := bwCode_of_mem hbw
    have hvalid := validParams_of_domains hd hcode hsf hsf' hcr hcr' hpre
    obtain ⟨u, hinit, hu⟩ := (initializeChip_follows (s := { s with st := { s.st with params := some p } }) (a := (w, .gives [r]))
      hd hcode (spreadingFactorOk_of hsf hsf') (codingRateOk_of hcr hcr') (preambleLengthOk_of hpre) hn hbad ⟨r, [], rfl, hr⟩).2
      k hk rest hc
    refine ⟨u.respond none .ioError .none, ?_, ?_, hu.trace, hu.log, ?_, hu.chip, hu.clock, hu.hosts⟩
    · rw [exec_configure_valid hrun hvalid (frequencyEncodable_of hfreq), hinit]; rfl
    · rw [State.respond_st, hu.st, lastModeWrite_failingAt_programming _ _ _ _ _ _ _ _ hk]
    · rw [State.respond_responses, hu.responses]
  · intro p s code bad w r v1 v2 v3 d d' d0 rest hd hm hbw hsf hsf' hcr hcr' hpre hfreq hn hbad hr attempts steps k hk hc
    have hcode := bwCode_of_mem hbw
    have hvalid := validParams_of_domains hd hcode hsf hsf' hcr hcr' hpre
    have hexec := reconfigure_of_gives hd hm hvalid (frequencyEncodable_of hfreq) (nextAnswer_of_chip hc)
    have hchip : (reconfiguring p s).chip = attempts.flatMap (fun a => [a.1, a.2]) ++ (answersTo steps k ++ .fails :: rest) := by
      change s.chip.tail = _
      rw [hc]; rfl
    obtain ⟨u, hrun, hu⟩ := initializeChip_enterRx_fails (s := reconfiguring p s) hd hcode (spreadingFactorOk_of hsf hsf')
      (codingRateOk_of hcr hcr') (preambleLengthOk_of hpre) hn hbad ⟨r, [], rfl, hr⟩ hk hchip
    refine ⟨u.respond none .ioError .none, by rw [hexec, hrun]; rfl, ?_, hu.trace, hu.log, ?_, hu.chip, hu.clock, hu.hosts⟩
    · rw [State.respond_st, hu.st, lastModeWrite_failingAt_reconfiguring _ _ _ _ _ _ _ _ _ hk]; rfl
    · rw [State.respond_responses, hu.responses]; rfl

end Sys2Proof.Machine

/-! PROOFS. The encoder and the decoder (O1, O2, O3, O4). -/

namespace Sys2Proof

/-! ## Decoding what was encoded -/

theorem decodeFixed_of_length {n : Nat} {a : List Byte} (mk : List Byte → Instr) (rest : List Byte) (h : a.length = n) :
    decodeFixed n mk (a ++ rest) = .ok (mk a, rest) :=
  h ▸ decodeFixed_append mk a rest

/-- The record of CONFIGURE and of RECONFIGURE (R92). -/
theorem decodeFixed_encodeParams (mk : RadioParameters → Instr) (p : RadioParameters) (rest : List Byte) :
    decodeFixed 16 (fun o => mk (decodeParams o)) (encodeParams p ++ rest) = .ok (mk p, rest) := by
  rw [decodeFixed_of_length _ _ (encodeParams_length p), decodeParams_encodeParams]

/-- A command decodes from its own bytes, whatever follows them on the port (R87, R94). -/
theorem decodeCommand_append {i : Instr} {bs : List Byte} (hwf : i.wellFormed = true) (hbs : encode i = .portBytes bs)
    (rest : List Byte) : decodeCommand (bs ++ rest) = .ok (i, rest) := by
  cases i with
  | evIrq | evMsg | evStop => cases hbs
  | start | stop | flushRx => cases hbs; rfl
  | configure p => cases hbs; exact decodeFixed_encodeParams .configure p rest
  | reconfigure p => cases hbs; exact decodeFixed_encodeParams .reconfigure p rest
  | send msg => cases hbs; exact decodeMessage_append .send msg rest (of_decide_eq_true hwf)
  | sendSync msg => cases hbs; exact decodeMessage_append .sendSync msg rest (of_decide_eq_true hwf)
  | packetEncode plain => cases hbs; exact decodeFixed_of_length .packetEncode rest (of_decide_eq_true hwf)
  | packetDecode rx => cases hbs; exact decodeFixed_of_length .packetDecode rest (of_decide_eq_true hwf)

theorem decodeCommand_of_encode {i : Instr} {bs : List Byte} (hwf : i.wellFormed = true) (hbs : encode i = .portBytes bs) :
    decodeCommand bs = .ok (i, []) := by
  simpa using decodeCommand_append hwf hbs []

theorem decode_encode {i : Instr} (hwf : i.wellFormed = true) : decode (encode i) = some i := by
  cases henc : encode i with
  | portBytes bs => simp only [decode, decodeCommand_of_encode hwf henc]
  | eventCode code => cases i <;> cases henc <;> rfl

/-- Settles O1, by the command's operand reader and writer, which undo each other. -/
theorem decodeOfEncodeIsTheInstruction : Obligations.DecodeOfEncodeIsTheInstruction :=
  fun _ hwf => ⟨decode_encode hwf, fun _ rest hbs => decodeCommand_append hwf hbs rest⟩

/-! ## Encoding what was decoded -/

theorem eq_ofNat_of_toNat_eq {op : Byte} {n : Nat} (h : op.toNat = n) : op = BitVec.ofNat 8 n := by
  rw [← h, BitVec.ofNat_toNat, BitVec.setWidth_eq]

/-- Settles O2, by the opcodes of R87: the operand reader of each row gives the operand and the bytes it stood in. -/
theorem decodedBytesAreTheEncoding : Obligations.DecodedBytesAreTheEncoding := by
  intro bytes i rest h
  unfold decodeCommand at h
  split at h
  · cases h
  next op bs =>
    split at h <;> rename_i hop
    case h_10 => cases h
    all_goals obtain rfl := eq_ofNat_of_toNat_eq hop
    case h_1 | h_9 =>
      obtain ⟨o, ho, rfl, rfl⟩ := decodeFixed_eq_ok h
      exact ⟨rfl, rfl, _, rfl, by rw [encodeParams_decodeParams ho]; rfl⟩
    case h_4 | h_5 =>
      obtain ⟨msg, hmsg, rfl, rfl⟩ := decodeMessage_eq_ok h
      exact ⟨decide_eq_true hmsg, rfl, _, rfl, rfl⟩
    case h_7 | h_8 =>
      obtain ⟨operand, hlen, rfl, rfl⟩ := decodeFixed_eq_ok h
      exact ⟨decide_eq_true hlen, rfl, _, rfl, rfl⟩
    all_goals
      cases h
      exact ⟨rfl, rfl, _, rfl, rfl⟩

/-! ## Words written out -/

/-- Settles O3: each word is the encoding of its instruction. -/
theorem writtenOutWordsDecode : Obligations.WrittenOutWordsDecode :=
  ⟨decodeCommand_of_encode rfl rfl, decodeCommand_of_encode rfl rfl, decodeCommand_of_encode rfl rfl,
    decodeCommand_of_encode rfl rfl, decodeCommand_of_encode rfl rfl, decodeCommand_of_encode rfl rfl,
    decodeCommand_of_encode rfl rfl, rfl, rfl, rfl, rfl⟩

/-! ## Reserved opcodes -/

section
variable {op : Byte} (bs : List Byte)

theorem decodeCommand_of_reserved (h : op.toNat = 0 ∨ 10 ≤ op.toNat) :
    decodeCommand (op :: bs) = .error (.reservedOpcode op) := by
  simp only [decodeCommand]
  split
  case h_10 => rfl
  all_goals omega

theorem decodeFixed_ne_reserved (n : Nat) (mk : List Byte → Instr) (e : Byte) :
    decodeFixed n mk bs ≠ .error (.reservedOpcode e) := by
  unfold decodeFixed
  split <;> nofun

theorem decodeMessage_ne_reserved (mk : List Byte → Instr) (e : Byte) :
    decodeMessage mk bs ≠ .error (.reservedOpcode e) := by
  unfold decodeMessage
  split
  · exact decodeFixed_ne_reserved _ _ _ e
  · nofun

theorem decodeCommand_ne_reserved (h1 : 1 ≤ op.toNat) (h9 : op.toNat ≤ 9) (e : Byte) :
    decodeCommand (op :: bs) ≠ .error (.reservedOpcode e) := by
  simp only [decodeCommand]
  split
  case h_1 | h_7 | h_8 | h_9 => exact decodeFixed_ne_reserved _ _ _ e
  case h_4 | h_5 => exact decodeMessage_ne_reserved _ _ e
  case h_10 => simp only [imp_false] at *; omega
  all_goals nofun

end

/-- A HOST turn that finds a reserved opcode is refused (R93 a, U9). -/
theorem step_of_reserved {s : Machine.State} {op : Byte} (hturn : Machine.nextTurn s = .host)
    (hport : decodeCommand s.port = .error (.reservedOpcode op)) : Machine.step s = .refused (.reservedOpcode op) := by
  have hfetch : Machine.fetchCommand s.port = .reserved op := by simp [Machine.fetchCommand, hport]
  simp only [Machine.step, hturn, hfetch]

/-- Settles O4, by the rows of the decoder: under each of the nine opcodes the bytes are a command or are incomplete. -/
theorem reservedOpcodesAreRefused : Obligations.ReservedOpcodesAreRefused :=
  fun _ bs => ⟨fun h => ⟨decodeCommand_of_reserved bs h, fun _ hturn hport =>
    step_of_reserved hturn (by rw [hport]; exact decodeCommand_of_reserved bs h)⟩, decodeCommand_ne_reserved bs⟩

end Sys2Proof

/-! PROOFS. The parameter setters (O5, O29, O30) and the records that CONFIGURE and RECONFIGURE do not take (O31, O38). -/

namespace Sys2Proof.Machine

/-! ## A setter when the chip accepts its transactions -/

section
variable {s : State}

/-- A course without a mode write, on a script in which all its steps succeed. -/
theorem Follows.done_of_chip {steps : List TxnStep} {r : Res Unit} {P : Unit → Prop} {rest : List ChipAnswer}
    (h : Follows steps P s r) (hm : lastModeWrite s.st.mode (succeeding steps) = s.st.mode)
    (hc : s.chip = answersTo steps steps.length ++ rest) :
    ∃ t, r = .done () t ∧ t.trace = s.trace ++ succeeding steps ∧ t.chip = rest ∧ t.st = s.st := by
  obtain ⟨_, t, ht, -, hafter⟩ := h.succeeds rest hc
  exact ⟨t, ht, hafter.trace, hafter.chip, by rw [hafter.st, hm]⟩

theorem setBandwidth_follows {bw : BitVec 32} {code : BitVec 4} (h : s.cfg.bwCode bw = some code) (v : Byte) (d : List Byte) :
    Follows [readStep 0x1D v, writeStep d 0x1D (withBwCode v code)] (fun _ => True) s (setBandwidth bw s) := by
  unfold setBandwidth
  rw [h]
  exact .modify (by decide) (withBwCode · code) v d s

theorem setSpreadingFactor_follows {sf : Byte} (h : spreadingFactorOk sf = true) (v : Byte) (d : List Byte) :
    Follows [readStep 0x1E v, writeStep d 0x1E (withSpreadingFactor v sf)] (fun _ => True) s (setSpreadingFactor sf s) := by
  unfold setSpreadingFactor
  rw [if_pos h]
  exact .modify (by decide) (withSpreadingFactor · sf) v d s

theorem setCodingRate_follows {cr : Byte} (h : codingRateOk cr = true) (v : Byte) (d : List Byte) :
    Follows [readStep 0x1D v, writeStep d 0x1D (withCodingRate v cr)] (fun _ => True) s (setCodingRate cr s) := by
  unfold setCodingRate
  rw [if_pos h]
  exact .modify (by decide) (withCodingRate · cr) v d s

theorem setPreamble_follows {n : BitVec 16} (h : preambleLengthOk n = true) (d1 d2 : List Byte) :
    Follows [writeStep d1 0x20 (byteOf n.toNat 1), writeStep d2 0x21 (byteOf n.toNat 0)] (fun _ => True) s (setPreamble n s) := by
  unfold setPreamble
  rw [if_pos h]
  exact .andThen (a := [_]) (.setByte (by decide) d1 _ s) fun _ t _ _ => .setByte (by decide) d2 _ t

theorem setFrequency_follows (f : BitVec 64) (d1 d2 d3 : List Byte) :
    Follows [writeStep d1 0x06 (byteOf (frf f) 2), writeStep d2 0x07 (byteOf (frf f) 1), writeStep d3 0x08 (byteOf (frf f) 0)]
      (fun _ => True) s (setFrequency f s) :=
  .andThen (a := [_]) (.setByte (by decide) d1 _ s) fun _ t _ _ =>
    .andThen (a := [_]) (.setByte (by decide) d2 _ t) fun _ u _ _ => .setByte (by decide) d3 _ u

end

/-! ## The bits a setter writes and those it keeps -/

section
variable (v : Byte)

theorem withSpreadingFactor_field (x : Byte) : (withSpreadingFactor v x).extractLsb' 4 4 = x.setWidth 4 := by
  ext i hi
  interval_cases i <;> simp [withSpreadingFactor]

theorem withSpreadingFactor_kept (x : Byte) : (withSpreadingFactor v x).extractLsb' 0 4 = v.extractLsb' 0 4 := by
  ext i hi
  interval_cases i <;> simp [withSpreadingFactor]

/-- Both fields are the upper half of their register (R76, R79). -/
theorem withBwCode_eq (code : BitVec 4) : withBwCode v code = withSpreadingFactor v (code.setWidth 8) := rfl

/-- The code of an accepted coding rate has three bits (R78). -/
theorem codingRate_code {cr : Byte} (h5 : 5 ≤ cr.toNat) (h8 : cr.toNat ≤ 8) :
    ∃ code : BitVec 3, code.toNat = cr.toNat - 4 ∧ cr - 4 = code.setWidth 8 := by
  refine ⟨BitVec.ofNat 3 (cr.toNat - 4), ?_, BitVec.eq_of_toNat_eq ?_⟩ <;> simp <;> omega

/-- The bits of 0x1D after a new coding rate: the code in bits 3 to 1, the others as before (R76, R78). -/
theorem withCodingRate_bits {cr : Byte} {code : BitVec 3} (h : cr - 4 = code.setWidth 8) :
    (withCodingRate v cr).extractLsb' 1 3 = code ∧ (withCodingRate v cr).extractLsb' 4 4 = v.extractLsb' 4 4 ∧
      (withCodingRate v cr).extractLsb' 0 1 = v.extractLsb' 0 1 := by
  unfold withCodingRate
  rw [h]
  refine ⟨?_, ?_, ?_⟩ <;> ext i hi <;> interval_cases i <;> simp

end

/-- The code that stands in the table is the one that is looked up (R77). -/
theorem bwCode_of_mem_bwCodes : ∀ x ∈ bwCodes, Decided.standard.bwCode x.1 = some x.2 := by
  simp only [bwCodes, List.forall_mem_cons]
  exact ⟨rfl, rfl, rfl, rfl, rfl, rfl, rfl, rfl, rfl, rfl, nofun⟩

/-- Settles O29: each setter is a read and a write of what it makes of the byte read, and the bits of that are known. -/
theorem settersKeepTheOtherBits : Obligations.SettersKeepTheOtherBits := by
  intro s v d rest hd hc
  refine ⟨fun x hx => ?_, fun sf hsf hsf' => ?_, fun cr hcr hcr' => ?_⟩
  · have hcode : s.cfg.bwCode x.1 = some x.2 := by rw [hd]; exact bwCode_of_mem_bwCodes x hx
    obtain ⟨t, ht, htrace, -, hst⟩ := (setBandwidth_follows hcode v d).done_of_chip rfl hc
    refine ⟨_, t, ht, htrace, hst, ?_, ?_⟩ <;> rw [withBwCode_eq]
    · rw [withSpreadingFactor_field, BitVec.setWidth_setWidth_of_le _ (by decide), BitVec.setWidth_eq]
    · exact withSpreadingFactor_kept v _
  · obtain ⟨t, ht, htrace, -, hst⟩ := (setSpreadingFactor_follows (spreadingFactorOk_of hsf hsf') v d).done_of_chip rfl hc
    refine ⟨_, t, ht, htrace, hst, ?_, withSpreadingFactor_kept v sf⟩
    rw [withSpreadingFactor_field, BitVec.toNat_setWidth]
    exact Nat.mod_eq_of_lt (by omega)
  · obtain ⟨code, hcode, hbits⟩ := codingRate_code hcr hcr'
    obtain ⟨hfield, hhigh, hlow⟩ := withCodingRate_bits v hbits
    obtain ⟨t, ht, htrace, -, hst⟩ := (setCodingRate_follows (codingRateOk_of hcr hcr') v d).done_of_chip rfl hc
    exact ⟨_, t, ht, htrace, hst, by rw [hfield, hcode], hhigh, hlow⟩

/-! ## Numbers written big-endian -/

theorem setPreamble_of_lt {n : BitVec 16} (h : n.toNat < 6) (s : State) :
    setPreamble n s = .raised .configurationError s := by
  simp [setPreamble, preambleLengthOk, h]

/-- Settles O30: the two bytes are the digits of the length to base 256. -/
theorem preambleIsWrittenBigEndian : Obligations.PreambleIsWrittenBigEndian := by
  refine fun n s => ⟨fun h => setPreamble_of_lt h s, fun h d1 d2 rest hc => ?_⟩
  obtain ⟨t, ht, htrace, -, hst⟩ := (setPreamble_follows (preambleLengthOk_of h) d1 d2).done_of_chip rfl hc
  refine ⟨_, _, t, ht, htrace, hst, ?_⟩
  rw [byteOf_one, byteOf_zero, BitVec.toNat_ofNat, BitVec.toNat_ofNat]
  omega

theorem frequencyEncodable_iff (f : BitVec 64) : frequencyEncodable f = true ↔ f.toNat ≤ 1023999969 := by
  unfold frequencyEncodable frf
  rw [decide_eq_true_iff]
  omega

/-- A number of 24 bits is what its three bytes say (R7). -/
theorem byteOf_three_digits {v : Nat} (h : v < 2 ^ 24) :
    (byteOf v 2).toNat * 65536 + (byteOf v 1).toNat * 256 + (byteOf v 0).toNat = v := by
  rw [byteOf_two, byteOf_one, byteOf_zero, BitVec.toNat_ofNat, BitVec.toNat_ofNat, BitVec.toNat_ofNat]
  omega

/-- Settles O5: the bytes are those of `frf`, the quotient rounded to the nearest; a tie would be an odd multiple of 15625
equal to an even number. -/
theorem frequencyStepCountBytes : Obligations.FrequencyStepCountBytes := by
  intro f s d1 d2 d3 rest hc
  obtain ⟨t, ht, htrace, hchip, hst⟩ := (setFrequency_follows f d1 d2 d3).done_of_chip rfl hc
  refine ⟨(frequencyEncodable_iff f).symm, _, _, _, t, ht, htrace, hchip, hst, fun h => ?_⟩
  have hlt : frf f < 2 ^ 24 := of_decide_eq_true ((frequencyEncodable_iff f).mpr h)
  dsimp only
  rw [byteOf_three_digits hlt, frf]
  omega

/-! ## Records that are rejected -/

section
variable {p : RadioParameters} {s : State}

theorem transmitting_eq_false (hd : s.decidedDefaults) (hm : s.st.mode ≠ some 0x83) : s.transmitting = false := by
  simpa [State.transmitting, hd, modeTx_eq] using hm

theorem bwCode_eq_none {bw : BitVec 32}
    (h : bw.toNat ∉ [7800, 10400, 15600, 20800, 31250, 41700, 62500, 125000, 250000, 500000]) :
    Decided.standard.bwCode bw = none := by
  refine List.lookup_eq_none_iff.mpr fun x hx => bne_iff_ne.mpr ?_
  rintro rfl
  exact h (List.mem_map_of_mem (f := fun y : BitVec 32 × BitVec 4 => y.1.toNat) hx)

/-- A record outside one of the four domains is not valid (R113). -/
theorem validParams_eq_false (hd : s.decidedDefaults)
    (h : p.bandwidthHz.toNat ∉ [7800, 10400, 15600, 20800, 31250, 41700, 62500, 125000, 250000, 500000] ∨
      p.spreadingFactor.toNat < 6 ∨ p.spreadingFactor.toNat = 6 ∨ 12 < p.spreadingFactor.toNat ∨
      p.codingRate.toNat < 5 ∨ 8 < p.codingRate.toNat ∨ p.preambleLength.toNat < 6) : s.cfg.validParams p = false := by
  rw [Bool.eq_false_iff, Ne, hd, validParams_iff]
  rintro ⟨hbw, hsf, hcr, hpre⟩
  simp only [spreadingFactorOk, codingRateOk, preambleLengthOk, Bool.not_eq_true', Bool.or_eq_false_iff,
    decide_eq_false_iff_not] at hsf hcr hpre
  rcases h with h | h
  · rw [bwCode_eq_none h] at hbw; cases hbw
  · omega

theorem exec_configure_invalid (hrun : s.st.running = false) (hvalid : s.cfg.validParams p = false) :
    exec (.configure p) s = .next (s.respond none .configurationError .none) := by
  simp [exec, execConfigure, hrun, hvalid]

theorem exec_reconfigure_invalid (hquiet : s.transmitting = false) (hvalid : s.cfg.validParams p = false) :
    exec (.reconfigure p) s = .next (s.respond none .configurationError .none) := by
  simp [exec, execReconfigure, hquiet, hvalid]

theorem exec_configure_running (hrun : s.st.running = true) :
    exec (.configure p) s = .refused .configureWhileRunning := by
  simp [exec, execConfigure, hrun]

theorem exec_configure_not_encodable (hrun : s.st.running = false) (hvalid : s.cfg.validParams p = true)
    (hfreq : frequencyEncodable p.frequencyHz = false) : exec (.configure p) s = .refused .frequencyNotEncodable := by
  simp [exec, execConfigure, hrun, hvalid, hfreq]

theorem exec_reconfigure_not_encodable (hquiet : s.transmitting = false) (hvalid : s.cfg.validParams p = true)
    (hfreq : frequencyEncodable p.frequencyHz = false) : exec (.reconfigure p) s = .refused .frequencyNotEncodable := by
  simp [exec, execReconfigure, hquiet, hvalid, hfreq]

end

/-- Settles O31: a record outside a domain is not valid, and then the command ends at once. -/
theorem badParametersAreRejectedPreHardware : Obligations.BadParametersAreRejectedPreHardware := by
  intro p s hd hbad
  have hvalid := validParams_eq_false hd hbad
  exact ⟨fun hrun => exec_configure_invalid hrun hvalid,
    fun hm => exec_reconfigure_invalid (transmitting_eq_false hd hm) hvalid⟩

/-- Settles O38: a running arbiter, and a frequency above the bound of `frequencyEncodable_iff`. -/
theorem whereProgrammingIsRefused : Obligations.WhereProgrammingIsRefused := by
  refine fun p s => ⟨exec_configure_running, fun hd hvalid hf => ?_⟩
  have hfreq : frequencyEncodable p.frequencyHz = false := by
    rw [Bool.eq_false_iff, Ne, frequencyEncodable_iff]
    omega
  exact ⟨fun hrun => exec_configure_not_encodable hrun hvalid hfreq,
    fun hm => exec_reconfigure_not_encodable (transmitting_eq_false hd hm) hvalid hfreq⟩

end Sys2Proof.Machine

/-! PROOFS. The layout of a codeword (O22). -/

namespace Sys2Proof.Machine

/-- Byte `k` of piece `i`, in the pieces put together. -/
theorem flatten_append_getElem? {size : Nat} {l : List (List Byte)} (rest : List Byte) (hl : ∀ x ∈ l, x.length = size)
    {i k : Nat} (hi : i < l.length) (hk : k < size) : (l.flatten ++ rest)[size * i + k]? = l[i][k]? := by
  have h := chunks_getElem? size l.length (l.flatten ++ rest) i
  rw [chunks_flatten_append l rest hl, if_pos hi, List.getElem?_eq_getElem hi, Option.some_inj] at h
  rw [h, List.getElem?_take_of_lt hk, List.getElem?_drop]

section
variable (g : Decided) {plain : List Byte}

/-- The 40 data blocks that PACKET_ENCODE lays out (R71, R72). -/
def Decided.encodedBlocks (plain : List Byte) : List (List Byte) :=
  (chunks shardLen kData plain).map g.dataBlock

/-- A codeword: the data blocks, then the parity shards (R71). -/
theorem packetEncode_eq (plain : List Byte) : g.packetEncode plain =
    (g.encodedBlocks plain).flatten ++ (g.rsParityShards (chunks shardLen kData plain)).flatten := by
  rw [Decided.packetEncode, Decided.encodedBlocks, List.flatMap_def]

theorem shard_length (h : plain.length = 200) {i : Nat} (hi : i < 40) : ((plain.drop (5 * i)).take 5).length = 5 := by
  rw [List.length_take, List.length_drop]
  omega

theorem shard_length_of_mem (h : plain.length = 200) : ∀ x ∈ chunks shardLen kData plain, x.length = shardLen := by
  intro x hx
  obtain ⟨i, hi⟩ := List.mem_iff_getElem?.mp hx
  rw [chunks_getElem?] at hi
  split at hi <;> cases hi
  next hlt => exact shard_length h hlt

theorem encodedBlock_length_of_mem (h : plain.length = 200) : ∀ x ∈ g.encodedBlocks plain, x.length = shardLen + 1 := by
  intro x hx
  obtain ⟨shard, hshard, rfl⟩ := List.mem_map.mp hx
  rw [dataBlock_length, shard_length_of_mem h shard hshard]

theorem rsParityShard_length_of_mem (d : List (List Byte)) : ∀ x ∈ g.rsParityShards d, x.length = shardLen := by
  intro x hx
  obtain ⟨j, -, rfl⟩ := List.mem_map.mp hx
  exact parityShard_length g d j

theorem flatten_length {size : Nat} {l : List (List Byte)} (hl : ∀ x ∈ l, x.length = size) :
    l.flatten.length = l.length * size := by
  rw [List.length_flatten, List.sum_eq_card_nsmul _ size (by simpa using hl), List.length_map, smul_eq_mul]

@[simp] theorem encodedBlocks_length (plain : List Byte) : (g.encodedBlocks plain).length = kData := by
  simp [Decided.encodedBlocks]

theorem encodedBlocks_flatten_length (h : plain.length = 200) : (g.encodedBlocks plain).flatten.length = 240 := by
  rw [flatten_length (encodedBlock_length_of_mem g h), encodedBlocks_length]; rfl

theorem packetEncode_length (h : plain.length = 200) : (g.packetEncode plain).length = 255 := by
  rw [packetEncode_eq, List.length_append, encodedBlocks_flatten_length g h,
    flatten_length (rsParityShard_length_of_mem g _), rsParityShards_length]; rfl

/-- Byte `k` of data block `i`: a byte of the shard, or its CRC (R72). -/
theorem packetEncode_block (h : plain.length = 200) {i k : Nat} (hi : i < 40) (hk : k < 6) :
    (g.packetEncode plain)[6 * i + k]? = (g.dataBlock ((plain.drop (5 * i)).take 5))[k]? := by
  have hi' : i < (g.encodedBlocks plain).length := by rwa [encodedBlocks_length]
  rw [packetEncode_eq]
  refine (flatten_append_getElem? _ (encodedBlock_length_of_mem g h) hi' hk).trans ?_
  have hblock : (g.encodedBlocks plain)[i]? = some (g.dataBlock ((plain.drop (5 * i)).take 5)) := by
    rw [Decided.encodedBlocks, List.getElem?_map, chunks_getElem?, if_pos (show i < kData from hi)]; rfl
  rw [List.getElem?_eq_getElem hi', Option.some_inj] at hblock
  rw [hblock]

/-- Byte `k` of parity shard `j` (R73). -/
theorem packetEncode_parity (h : plain.length = 200) {j k : Nat} (hj : j < 3) (hk : k < 5) :
    (g.packetEncode plain)[240 + 5 * j + k]? =
      some (g.parityTerms (chunks shardLen kData plain) j k (List.range kData)) := by
  have hj' : j < (g.rsParityShards (chunks shardLen kData plain)).length := by rwa [rsParityShards_length]
  have hat := flatten_append_getElem? [] (rsParityShard_length_of_mem g (chunks shardLen kData plain)) hj' hk
  rw [List.append_nil] at hat
  rw [packetEncode_eq, Nat.add_assoc, List.getElem?_append_right (by rw [encodedBlocks_flatten_length g h]; omega),
    encodedBlocks_flatten_length g h, Nat.add_sub_cancel_left]
  refine hat.trans ?_
  have hk' : k < shardLen := hk
  simp [Decided.rsParityShards, Decided.parityShard, hk']

theorem shardByte_chunks {i k : Nat} (hi : i < kData) (hk : k < shardLen) :
    shardByte (chunks shardLen kData plain) i k = plain.getD (shardLen * i + k) 0 := by
  rw [shardByte, chunks_getD plain hi, List.getD_eq_getElem?_getD, List.getElem?_take_of_lt hk, List.getElem?_drop,
    ← List.getD_eq_getElem?_getD]

end

theorem exec_packetEncode {plain : List Byte} (h : plain.length = 200) (s : State) :
    exec (.packetEncode plain) s = .next (s.respond none .ok (.bytes (s.cfg.packetEncode plain))) :=
  if_pos h

/-- Settles O22: the pieces of the codeword are its data blocks and its parity shards, and a byte of it is a byte of a piece. -/
theorem packetEncodeLayout : Obligations.PacketEncodeLayout := by
  refine fun plain s h => ⟨s.cfg.packetEncode plain, exec_packetEncode h s, packetEncode_length _ h, fun i hi k hk => ?_,
    fun i hi => ?_, fun j hj k hk => ?_⟩
  · rw [packetEncode_block _ h hi (by omega), Decided.dataBlock, List.getElem?_append_left (by rwa [shard_length h hi]),
      List.getElem?_take_of_lt hk, List.getElem?_drop]
  · rw [packetEncode_block _ h hi (by omega), Decided.dataBlock, List.getElem?_append_right (shard_length h hi).le,
      shard_length h hi]; rfl
  · rw [packetEncode_parity _ h hj hk, Decided.parityTerms, gfSum]
    congr 2
    refine List.map_congr_left fun i hi => ?_
    rw [shardByte_chunks (List.mem_range.mp hi) hk]; rfl

end Sys2Proof.Machine

/-! PROOFS. The statuses that each command can return (O7). -/

namespace Sys2Proof.Machine

section
variable {s t u : State} {allowed : List Status}

/-- From `s` to `t` one response is given, with one of these statuses. -/
def RespondsOnce (allowed : List Status) (s t : State) : Prop :=
  ∃ r : Response, t.responses = s.responses ++ [r] ∧ r.status ∈ allowed

/-! ## The ends of a command -/

theorem RespondsOnce.of_respond (id : Option Nat) {e : Status} (r : Results) (he : e ∈ allowed)
    (h : u.responses = s.responses := by rfl) : RespondsOnce allowed s (u.respond id e r) :=
  ⟨⟨id, e, r⟩, by rw [State.respond_responses, h], he⟩

/-- A sub-operation gives no response itself, and raises one of these statuses only. -/
def RaisesOneOf {α : Type} (allowed : List Status) (s : State) (r : Res α) : Prop :=
  r.All (fun _ u => u.responses = s.responses ∧ u.cfg = s.cfg) fun e u => e ∈ allowed ∧ u.responses = s.responses

/-- A command without results, by what its sub-operation can raise. -/
theorem RaisesOneOf.respondsOnce {r : Res Unit} (hr : RaisesOneOf allowed s r) (hok : .ok ∈ allowed)
    (h : endCommand r = .next t) : RespondsOnce allowed s t := by
  cases r with
  | done _ u => cases h; exact .of_respond none .none hok hr.1
  | raised e u => cases h; exact .of_respond none .none hr.1 hr.2

/-- The rule of sequence. -/
theorem RaisesOneOf.andThen {α β : Type} {r : Res α} {f : α → State → Res β} (h : RaisesOneOf allowed s r)
    (hf : ∀ a u, u.cfg = s.cfg → RaisesOneOf allowed u (f a u)) : RaisesOneOf allowed s (r.andThen f) :=
  Res.All.andThen h fun a u ⟨hresp, hcfg⟩ => (hf a u hcfg).mono
    (fun _ _ ⟨hv, hvcfg⟩ => ⟨hv.trans hresp, hvcfg.trans hcfg⟩) fun _ _ ⟨he, hv⟩ => ⟨he, hv.trans hresp⟩

theorem setMode_raises (m : Byte) (hio : .ioError ∈ allowed) : RaisesOneOf allowed s (setMode m s) :=
  (setMode_spec m s).mono (fun _ _ h => ⟨h.1.responses, h.1.cfg⟩) fun _ _ h => ⟨h.1 ▸ hio, h.2.1.responses⟩

theorem enterRx_raises (hio : .ioError ∈ allowed) : RaisesOneOf allowed s (enterRx s) :=
  (enterRx_spec s).mono (fun _ _ h => ⟨h.1.responses, h.1.cfg⟩) fun _ _ h => ⟨h.1 ▸ hio, h.2.1.responses⟩

/-- INITIALIZE of a valid record that has been stored (R121). -/
theorem initializeChip_raises {p : RadioParameters} (h : s.cfg.validParams p = true) (hio : .ioError ∈ allowed)
    (hinit : .initializationError ∈ allowed) :
    RaisesOneOf allowed s (initializeChip p { s with st := { s.st with params := some p } }) := by
  refine (initializeChip_spec (s := { s with st := { s.st with params := some p } }) h).mono ?_ ?_
  · rintro - u ⟨hsub, -⟩
    exact ⟨hsub.responses, hsub.cfg⟩
  · rintro e u ⟨he, hsub, -⟩
    exact ⟨by rcases he with rfl | rfl <;> assumption, hsub.responses⟩

/-! ## The commands -/

theorem execConfigure_responds {p : RadioParameters} (h : execConfigure p s = .next t) :
    RespondsOnce [.ok, .configurationError, .ioError, .initializationError] s t := by
  unfold execConfigure at h
  split at h
  · cases h
  · split at h
    next hvalid =>
      split at h
      · exact (initializeChip_raises hvalid (by decide) (by decide)).respondsOnce (by decide) h
      · cases h
    · cases h; exact .of_respond none .none (by decide)

theorem execReconfigure_responds {p : RadioParameters} (h : execReconfigure p s = .next t) :
    RespondsOnce [.ok, .configurationError, .ioError, .initializationError, .busyError] s t := by
  unfold execReconfigure at h
  split at h
  · cases h; exact .of_respond none .none (by decide)
  · split at h
    next hvalid =>
      split at h
      · refine RaisesOneOf.respondsOnce ((setMode_raises _ (by decide)).andThen fun _ u hcfg => ?_) (by decide) h
        exact (initializeChip_raises (hcfg ▸ hvalid) (by decide) (by decide)).andThen fun _ v _ => enterRx_raises (by decide)
      · cases h
    · cases h; exact .of_respond none .none (by decide)

theorem execStart_responds (h : execStart s = .next t) : RespondsOnce [.ok, .initializationError, .ioError] s t := by
  unfold execStart at h
  split at h
  · cases h; exact .of_respond none .none (by decide)
  · split at h
    · refine RaisesOneOf.respondsOnce (s := { s with st := { s.st with irqPending := 0, msgPending := 0, stopPending := false } })
        ((enterRx_raises (by decide)).andThen fun _ u _ => ?_) (by decide) h
      exact ⟨rfl, rfl⟩
    · cases h; exact .of_respond none .none (by decide)

theorem execStop_responds (h : execStop s = .next t) : RespondsOnce [.ok] s t := by
  unfold execStop at h
  split at h <;> cases h <;> exact .of_respond none .none (by decide)

theorem execSend_responds {msg : List Byte} (h : execSend msg s = .next t) :
    RespondsOnce [.ok, .messageTooLongError] s t := by
  unfold execSend at h
  split at h
  · cases h
  · split at h
    · cases h
    · split at h <;> cases h <;> exact .of_respond none .none (by decide)

theorem execFlushRx_responds (h : execFlushRx s = .next t) : RespondsOnce [.ok] s t := by
  cases h
  exact .of_respond none _ (by decide)

theorem execPacketEncode_responds {plain : List Byte} (h : execPacketEncode plain s = .next t) : RespondsOnce [.ok] s t := by
  unfold execPacketEncode at h
  split at h <;> cases h
  exact .of_respond none _ (by decide)

theorem execPacketDecode_responds {rx : List Byte} (h : execPacketDecode rx s = .next t) :
    RespondsOnce [.ok, .fecFailure] s t := by
  unfold execPacketDecode at h
  split at h
  · split at h <;> cases h <;> exact .of_respond none _ (by decide)
  · cases h

/-! ## SEND_SYNC -/

/-- At most one response, which ends the SEND_SYNC `id` with one of these statuses. -/
def SyncResponds (allowed : List Status) (id : Nat) (s t : State) : Prop :=
  t.responses = s.responses ∨ ∃ e ∈ allowed, t.responses = s.responses ++ ([⟨some id, e, .none⟩] : List Response)

theorem syncBegin_responds {id : Nat} {msg : List Byte} (h : syncBegin id msg s = .next t) :
    SyncResponds [.ioError] id s t := by
  rcases syncBegin_spec h with ⟨-, -, -, hresp, -⟩ | ⟨-, -, -, -, hresp, -⟩
  · exact .inl hresp
  · exact .inr ⟨.ioError, by decide, hresp⟩

theorem syncStep_responds {id : Nat} (h : syncStep id s = .next t) : SyncResponds [.ok, .ioError] id s t := by
  rcases syncStep_cases h with rfl | ⟨msg, -, -, h⟩ | ⟨n, -, h⟩
  · exact .inl rfl
  · exact (syncBegin_responds h).imp_right fun ⟨e, he, hresp⟩ => ⟨e, List.mem_cons_of_mem _ he, hresp⟩
  · obtain ⟨-, ⟨-, hresp, -⟩ | ⟨-, ⟨e, he, hresp⟩, -⟩⟩ := syncPoll_spec h
    · exact .inl hresp
    · exact .inr ⟨e, by simpa using he, hresp⟩

theorem execSendSync_responds {msg : List Byte} (h : execSendSync msg s = .next t) :
    t.responses = s.responses ∨ RespondsOnce [.ok, .messageTooLongError, .ioError] s t := by
  unfold execSendSync at h
  split at h
  · cases h
  · split at h
    · cases h
    · split at h
      · cases h; exact .inr (.of_respond none .none (by decide))
      · split at h
        · refine (syncBegin_responds h).imp_right ?_
          rintro ⟨e, he, hresp⟩
          exact ⟨_, hresp, List.mem_cons_of_mem _ (List.mem_cons_of_mem _ he)⟩
        · cases h; exact .inl rfl

/-! ## The obligation -/

/-- What R90 says of one instruction that ended in `t`, with its list of statuses. -/
def ReturnsOneOf (i : Instr) (allowed : List Status) (s t : State) : Prop :=
  ∃ new, t.responses = s.responses ++ new ∧ new.length ≤ 1 ∧
    (i.isCommand = false → new = []) ∧
    (i.isCommand = true → (∀ msg, i ≠ .sendSync msg) → new.length = 1) ∧
    ∀ r ∈ new, r.status ∈ allowed

theorem RespondsOnce.returnsOneOf {i : Instr} (h : RespondsOnce allowed s t) (hi : i.isCommand = true) :
    ReturnsOneOf i allowed s t := by
  obtain ⟨r, hresp, hr⟩ := h
  exact ⟨[r], hresp, le_rfl, by simp [hi], fun _ _ => rfl, by simpa using hr⟩

theorem returnsOneOf_of_silent {i : Instr} (h : t.responses = s.responses)
    (hi : i.isCommand = true → ∃ msg, i = .sendSync msg) : ReturnsOneOf i allowed s t :=
  ⟨[], by simp [h], by simp, fun _ => rfl, fun hc hne => absurd (hi hc) (by simpa using hne), by simp⟩

end

/-- Settles O7, by the response that each instruction and each step of a SEND_SYNC gives. -/
theorem statusesEachCommandCanReturn : Obligations.StatusesEachCommandCanReturn := by
  refine ⟨fun i s t h => ?_, fun id s t h => ?_⟩
  · cases i with
    | configure p => exact (execConfigure_responds h).returnsOneOf rfl
    | reconfigure p => exact (execReconfigure_responds h).returnsOneOf rfl
    | start => exact (execStart_responds h).returnsOneOf rfl
    | stop => exact (execStop_responds h).returnsOneOf rfl
    | send msg => exact (execSend_responds h).returnsOneOf rfl
    | sendSync msg =>
      rcases execSendSync_responds h with hsilent | honce
      · exact returnsOneOf_of_silent hsilent fun _ => ⟨msg, rfl⟩
      · exact honce.returnsOneOf rfl
    | flushRx => exact (execFlushRx_responds h).returnsOneOf rfl
    | packetEncode plain => exact (execPacketEncode_responds h).returnsOneOf rfl
    | packetDecode rx => exact (execPacketDecode_responds h).returnsOneOf rfl
    | evIrq => exact returnsOneOf_of_silent (execEvIrq_op h).responses nofun
    | evMsg => exact returnsOneOf_of_silent (execEvMsg_op h).1.responses nofun
    | evStop => exact returnsOneOf_of_silent (execEvStop_op h).1.responses nofun
  · rcases syncStep_responds h with hsilent | ⟨e, he, hresp⟩
    · exact ⟨[], by simp [hsilent], by simp, by simp⟩
    · exact ⟨_, hresp, le_rfl, by simpa using he⟩

end Sys2Proof.Machine

/-! PROOFS. The mode accesses (O28), the courses of CONFIGURE and RECONFIGURE (O32, O34, O35, O36) and the return to receive
after a transmission (O52). -/

namespace Sys2Proof.Machine

section
variable {s t : State}

/-! ## Mode access -/

theorem getMode_of_gives {v : Byte} {d : List Byte} {rest : List ChipAnswer} (hd : s.decidedDefaults)
    (h : s.chip = .gives (v :: d) :: rest) :
    getMode s = .done (v &&& 0x87) ((s.useAnswer 1).record (.getByte regOpMode (some v))) := by
  rw [getMode, getByte_of_gives _ h, Res.andThen_done, State.record_cfg, State.useAnswer_cfg, hd, maskMode_eq]

theorem getMode_of_fails (h : nextAnswer s = .fails) :
    getMode s = .raised .ioError ((s.useAnswer 1).record (.getByte regOpMode none)) := by
  rw [getMode, getByte_of_fails _ h]; rfl

/-! ## The two programming commands on a script of the chip's answers -/

theorem exec_reconfigure_transmitting {p : RadioParameters} (h : s.transmitting = true) :
    exec (.reconfigure p) s = .next (s.respond none .busyError .none) := by
  simp only [exec, execReconfigure, h, if_true, endCommand_raised]

/-- INITIALIZE and ENTER_RX when an attempt verifies and all eighteen transactions after it succeed (R121, R123, R124). -/
theorem initializeChip_enterRx_succeeds {p : RadioParameters} {code v1 v2 v3 : Byte} {d d' : Nat → List Byte}
    {bad : List (ChipAnswer × ChipAnswer)} {a : ChipAnswer × ChipAnswer}
    (hd : s.decidedDefaults) (hbw : ∃ c, Decided.standard.bwCode p.bandwidthHz = some c ∧ c.setWidth 8 = code)
    (hsf : spreadingFactorOk p.spreadingFactor = true) (hcr : codingRateOk p.codingRate = true)
    (hpre : preambleLengthOk p.preambleLength = true) (hn : bad.length ≤ 9)
    (hbad : ∀ a ∈ bad, a.2 = .fails ∨ ∃ b d, a.2 = .gives (b :: d) ∧ b &&& 0x87 ≠ 0x80)
    (ha : ∃ b d, a.2 = .gives (b :: d) ∧ b &&& 0x87 = 0x80) {rest : List ChipAnswer}
    (hc : s.chip = (bad ++ [a]).flatMap (fun a => [a.1, a.2]) ++
      (answersTo (programmingSteps p s.cfg code v1 v2 v3 d ++ enterRxSteps d') 18 ++ rest)) :
    ∃ t, ((initializeChip p s).andThen fun _ s => enterRx s) = .done () t ∧
      Initialized s t (bad ++ [a]) (succeeding (programmingSteps p s.cfg code v1 v2 v3 d ++ enterRxSteps d')) true rest := by
  obtain ⟨hdone, -⟩ := initializeChip_follows (v1 := v1) (v2 := v2) (v3 := v3) (d := d) hd hbw hsf hcr hpre hn hbad ha
  obtain ⟨t, ht, hinit⟩ := hdone (answersTo (enterRxSteps d') 2 ++ rest) hc
  have hdt : t.decidedDefaults := by rw [State.decidedDefaults, hinit.cfg]; exact hd
  obtain ⟨_, u, hu, -, hafter⟩ := (enterRx_follows d' hdt).succeeds rest hinit.chip
  exact ⟨u, by rw [ht]; exact hu, hinit.andAfter hafter⟩

/-! ## EV_IRQ on a transmit-complete with an empty backlog -/

theorem afterTx_of_done (hb : s.st.backlog = []) (h : enterRx s = .done () t) : afterTx s = t := by
  rw [afterTx, hb, h]; rfl

theorem afterTx_of_raised {e : Status} (hb : s.st.backlog = []) (h : enterRx s = .raised e t) :
    afterTx s = t.logEvent .irqIoError := by
  rw [afterTx, hb, h]; rfl

/-- What EV_IRQ on a transmit-complete leaves when its ENTER_RX issued `new` and then `events` was logged (R148, R149, R226). -/
structure TransmitCompleted (s t : State) (flags : Byte) (t0 : Nat) (new : List BusTxn) (events : List LogEvent)
    (rest : List ChipAnswer) : Prop where
  clock : s.clock ≤ t.clock
  st : t.st = { s.st with
    irqPending := s.st.irqPending - 1, lastTxElapsed := some (t.clock - t0), txLock := .free,
    mode := lastModeWrite s.st.mode new }
  trace : t.trace = s.trace ++ .getByte 0x12 (some flags) :: (new ++ ([.setByte 0x12 0xFF true] : List BusTxn))
  log : t.log = s.log ++ .txElapsed (t.clock - t0) :: events
  responses : t.responses = s.responses
  chip : t.chip = rest
  hosts : s.sameHosts t

section
variable {flags : Byte} {t0 : Nat} {d : List Byte} {rest : List ChipAnswer} (hd : s.decidedDefaults)
  (hrun : s.st.running = true) (hirq : 0 < s.st.irqPending) (hm : s.st.mode = some 0x83) (h0 : s.st.txStart = some t0)
  (hflag : flags.getLsbD 3 = true)
include hd hrun hirq hm h0 hflag

/-- EV_IRQ around what follows the transmit-complete, whichever way that ends. -/
theorem evIrq_transmitComplete {new : List BusTxn} {events : List LogEvent} {c : List ChipAnswer}
    (hc : s.chip = .gives [flags] :: c) (hcourse : After (txDone (flagsRead s flags c) t0) t new (.gives d :: rest))
    (hafter : afterTx (txDone (flagsRead s flags c) t0) = { t with log := t.log ++ events }) :
    ∃ u, exec .evIrq s = .next u ∧ TransmitCompleted s u flags t0 new events rest := by
  have hbranch := irqBranch_txDone c hd hm h0 hflag
  rw [hafter] at hbranch
  refine ⟨_, evIrq_gives hrun hirq hc hbranch hcourse.chip, ?_, ?_, ?_, ?_, hcourse.responses, rfl, hcourse.hosts⟩ <;> dsimp only
  · rw [hcourse.clock]; exact nextTime_ge (flagsRead s flags c)
  · rw [hcourse.st, hcourse.clock]; rfl
  · rw [hcourse.trace]; simp [txDone, flagsRead]
  · rw [hcourse.log, hcourse.clock]; simp [txDone, flagsRead]

variable (hb : s.st.backlog = []) {e : Nat → List Byte}
include hb

theorem evIrq_enterRx_succeeds (hc : s.chip = .gives [flags] :: (answersTo (enterRxSteps e) 2 ++ .gives d :: rest)) :
    ∃ u, exec .evIrq s = .next u ∧ TransmitCompleted s u flags t0 (succeeding (enterRxSteps e)) [] rest := by
  obtain ⟨_, t, ht, -, hcourse⟩ :=
    (enterRx_follows e (s := txDone (flagsRead s flags _) t0) hd).succeeds (.gives d :: rest) rfl
  exact evIrq_transmitComplete hd hrun hirq hm h0 hflag hc hcourse (by rw [List.append_nil]; exact afterTx_of_done hb ht)

theorem evIrq_enterRx_fails {k : Nat} (hk : k < 2)
    (hc : s.chip = .gives [flags] :: (answersTo (enterRxSteps e) k ++ .fails :: .gives d :: rest)) :
    ∃ u, exec .evIrq s = .next u ∧ TransmitCompleted s u flags t0 (failingAt (enterRxSteps e) k) [.irqIoError] rest := by
  obtain ⟨t, ht, hcourse⟩ :=
    (enterRx_follows e (s := txDone (flagsRead s flags _) t0) hd).fails k hk (.gives d :: rest) rfl
  exact evIrq_transmitComplete hd hrun hirq hm h0 hflag hc hcourse (afterTx_of_raised hb ht)

end

end

/-- Settles O28: both accesses are one transaction on the mode register. -/
theorem modeIsCachedOnSuccessfulWritesOnly : Obligations.ModeIsCachedOnSuccessfulWritesOnly := by
  refine fun s hd => ⟨fun m d h => ?_, fun m h => ?_, fun v d rest h => ?_, fun h => ?_⟩
  · exact ⟨_, setMode_of_gives m h, rfl, rfl, rfl, rfl, rfl, rfl, rfl, rfl, rfl⟩
  · exact ⟨_, setMode_of_fails m h, rfl, rfl, rfl, rfl, rfl, rfl, rfl, rfl, rfl⟩
  · exact ⟨_, getMode_of_gives hd h, rfl, rfl, rfl, rfl, rfl, rfl, rfl, rfl, rfl⟩
  · exact ⟨_, getMode_of_fails h, rfl, rfl, rfl, rfl, rfl, rfl, rfl, rfl, rfl⟩

/-- Settles O35: the cached TX mode is tested before the record. -/
theorem reconfigureIsBusyWhileTransmitting : Obligations.ReconfigureIsBusyWhileTransmitting := by
  intro p s hd hm
  exact exec_reconfigure_transmitting (by rw [State.transmitting, hm, hd, modeTx_eq]; rfl)

/-- Settles O32, by the course of INITIALIZE with every transaction accepted. -/
theorem configureProgramsTheChip : Obligations.ConfigureProgramsTheChip := by
  intro p s code bad w r v1 v2 v3 d rest hd hrun hbw hsf hsf' hcr hcr' hpre hfreq hn hbad hr attempts steps hc
  have hcode := bwCode_of_mem hbw
  have hvalid := validParams_of_domains hd hcode hsf hsf' hcr hcr' hpre
  rw [List.append_assoc] at hc
  obtain ⟨u, hinit, hu⟩ := (initializeChip_follows (s := { s with st := { s.st with params := some p } }) (a := (w, .gives [r]))
    hd hcode (spreadingFactorOk_of hsf hsf') (codingRateOk_of hcr hcr') (preambleLengthOk_of hpre) hn hbad ⟨r, [], rfl, hr⟩).1
    rest hc
  refine ⟨u.respond none .ok .none, ?_, ?_, hu.trace, hu.log, ?_, hu.chip, hu.clock, hu.hosts⟩
  · rw [exec_configure_valid hrun hvalid (frequencyEncodable_of hfreq), hinit, endCommand_done]
  · rw [State.respond_st, hu.st]; rfl
  · rw [State.respond_responses, hu.responses]

/-- Settles O34: none of the ten attempts lets INITIALIZE go on. -/
theorem tenFailedAttemptsGiveInitializationError : Obligations.TenFailedAttemptsGiveInitializationError := by
  intro p s bad rest hd hrun hbw hsf hsf' hcr hcr' hpre hfreq hn hbad hc
  obtain ⟨code, hcode⟩ := bwCode_of_mem_bandwidths hbw
  have hvalid := validParams_of_domains hd hcode hsf hsf' hcr hcr' hpre
  obtain ⟨u, hinit, hu⟩ := initializeChip_exhausted (p := p) (s := { s with st := { s.st with params := some p } }) hd hn hc hbad
  refine ⟨u.respond none .initializationError .none, ?_, hu.trace, hu.log, ?_, ?_, hu.chip, hu.clock, hu.hosts⟩
  · rw [exec_configure_valid hrun hvalid (frequencyEncodable_of hfreq), hinit, endCommand_raised]
  · rw [State.respond_responses, hu.responses]
  · rw [State.respond_st, hu.st]

/-- Settles O36: after the STANDBY write the course of INITIALIZE and ENTER_RX with every transaction accepted. -/
theorem reconfigureReentersReceive : Obligations.ReconfigureReentersReceive := by
  intro p s code bad w r v1 v2 v3 d d' d0 rest hd hm hbw hsf hsf' hcr hcr' hpre hfreq hn hbad hr attempts steps hc
  have hcode := bwCode_of_mem hbw
  have hvalid := validParams_of_domains hd hcode hsf hsf' hcr hcr' hpre
  have hexec := reconfigure_of_gives hd hm hvalid (frequencyEncodable_of hfreq) (nextAnswer_of_chip hc)
  have hchip : (reconfiguring p s).chip = attempts.flatMap (fun a => [a.1, a.2]) ++ (answersTo steps 18 ++ rest) := by
    change s.chip.tail = _
    rw [hc, List.tail_cons, List.append_assoc]
  obtain ⟨u, hdone, hu⟩ := initializeChip_enterRx_succeeds (s := reconfiguring p s) hd hcode (spreadingFactorOk_of hsf hsf')
    (codingRateOk_of hcr hcr') (preambleLengthOk_of hpre) hn hbad ⟨r, [], rfl, hr⟩ hchip
  refine ⟨u.respond none .ok .none, ?_, ?_, hu.trace, hu.log, ?_, hu.chip, hu.clock, hu.hosts⟩
  · rw [hexec, hdone, endCommand_done]
  · rw [State.respond_st, hu.st]; rfl
  · rw [State.respond_responses, hu.responses]; rfl

/-- Settles O52: the course of ENTER_RX, complete, cut at the DIO mapping and cut at the mode write, within EV_IRQ. -/
theorem transmitCompleteReturnsToReceive : Obligations.TransmitCompleteReturnsToReceive := by
  intro s t0 flags d1 d2 d3 rest hd hrun hirq hm h0 hb hflag
  refine ⟨fun hc => ?_, fun hc => ?_, fun hc => ?_⟩
  · obtain ⟨t, hexec, h⟩ := evIrq_enterRx_succeeds hd hrun hirq hm h0 hflag hb (e := fun i => [d1, d2].getD i []) hc
    exact ⟨t, hexec, h.clock, h.st, h.trace, h.log, h.responses, h.chip, h.hosts⟩
  · obtain ⟨t, hexec, h⟩ := evIrq_enterRx_fails hd hrun hirq hm h0 hflag hb (e := fun _ => []) Nat.two_pos hc
    exact ⟨t, hexec, h.clock, h.st, h.trace, h.log, h.responses, h.chip, h.hosts⟩
  · obtain ⟨t, hexec, h⟩ := evIrq_enterRx_fails hd hrun hirq hm h0 hflag hb (e := fun _ => d1) Nat.one_lt_two hc
    exact ⟨t, hexec, h.clock, h.st, h.trace, h.log, h.responses, h.chip, h.hosts⟩

end Sys2Proof.Machine

/-! PROOFS. The commands of the arbiter that transmit nothing (O39, O40, O41, O42, O43) and its event steps when they are not
enabled (O47). -/

namespace Sys2Proof.Machine

section
variable {s t : State} {msg : List Byte}

/-! ## START -/

/-- START clears the three handoffs before it enters RXCONTINUOUS (R141). -/
def handoffsCleared (s : State) : State :=
  { s with st := { s.st with irqPending := 0, msgPending := 0, stopPending := false } }

theorem exec_start_of_running (hrun : s.st.running = true) : exec .start s = .next (s.respond none .ok .none) := by
  simp only [exec, execStart, hrun, if_true, endCommand_done]

theorem exec_start_configured (hrun : s.st.running = false) (hconf : s.st.configured = true) :
    exec .start s = endCommand ((enterRx (handoffsCleared s)).andThen fun _ s =>
      .done () { s with st := { s.st with running := true } }) := by
  change execStart s = _
  rw [execStart, if_neg (by simp [hrun]), if_pos hconf]
  rfl

/-- START of a configured block when the chip accepts both writes of ENTER_RX. -/
theorem exec_start_succeeds {d : Nat → List Byte} {rest : List ChipAnswer} (hd : s.decidedDefaults)
    (hrun : s.st.running = false) (hconf : s.st.configured = true) (hc : s.chip = answersTo (enterRxSteps d) 2 ++ rest) :
    ∃ u, exec .start s = .next ({ u with st := { u.st with running := true } }.respond none .ok .none) ∧
      After (handoffsCleared s) u (succeeding (enterRxSteps d)) rest := by
  obtain ⟨_, u, hu, -, hafter⟩ := (enterRx_follows d (s := handoffsCleared s) hd).succeeds rest hc
  exact ⟨u, by rw [exec_start_configured hrun hconf, hu]; rfl, hafter⟩

/-- START of a configured block when a write of ENTER_RX fails. -/
theorem exec_start_fails {d : Nat → List Byte} {k : Nat} {rest : List ChipAnswer} (hd : s.decidedDefaults)
    (hrun : s.st.running = false) (hconf : s.st.configured = true) (hk : k < 2)
    (hc : s.chip = answersTo (enterRxSteps d) k ++ .fails :: rest) :
    ∃ u, exec .start s = .next (u.respond none .ioError .none) ∧
      After (handoffsCleared s) u (failingAt (enterRxSteps d) k) rest := by
  obtain ⟨u, hu, hafter⟩ := (enterRx_follows d (s := handoffsCleared s) hd).fails k hk rest hc
  exact ⟨u, by rw [exec_start_configured hrun hconf, hu]; rfl, hafter⟩

/-! ## SEND and SEND_SYNC -/

theorem exec_send_of_stopped (hrun : s.st.running = false) : exec (.send msg) s = .refused .notRunning := by
  simp [exec, execSend, hrun]

theorem exec_sendSync_of_stopped (hrun : s.st.running = false) : exec (.sendSync msg) s = .refused .notRunning := by
  simp [exec, execSendSync, hrun]

theorem exec_send_of_empty (hrun : s.st.running = true) : exec (.send []) s = .refused .emptyMessage := by
  simp [exec, execSend, hrun]

theorem exec_sendSync_of_empty (hrun : s.st.running = true) : exec (.sendSync []) s = .refused .emptyMessage := by
  simp [exec, execSendSync, hrun]

theorem isEmpty_eq_false_of_length_pos (h : 1 ≤ msg.length) : msg.isEmpty = false := by
  rw [List.isEmpty_eq_false_iff]
  exact List.ne_nil_of_length_pos h

theorem exec_send_tooLong (hrun : s.st.running = true) (h : 255 < msg.length) :
    exec (.send msg) s = .next (s.respond none .messageTooLongError .none) := by
  simp [exec, execSend, hrun, isEmpty_eq_false_of_length_pos (by omega : 1 ≤ msg.length), msgMax, h]

theorem exec_send_of_messageOk (hrun : s.st.running = true) (hmsg : messageOk msg) :
    exec (.send msg) s = .next ({ s with st := { s.st with
      backlog := trim s.cfg.pileupLimit (s.st.backlog ++ [msg]), msgPending := s.st.msgPending + 1 } }.respond none .ok .none) := by
  obtain ⟨hpos, hlen⟩ := hmsg
  simp [exec, execSend, hrun, isEmpty_eq_false_of_length_pos hpos, msgMax, Nat.not_lt.mpr hlen]

/-! ## The event steps that are not enabled -/

theorem exec_evIrq_idle (h : s.st.running = false ∨ s.st.irqPending = 0) : exec .evIrq s = .next s := by
  rcases h with h | h <;> simp [exec, execEvIrq, h]

theorem exec_evMsg_idle (h : s.st.running = false ∨ s.st.msgPending = 0) : exec .evMsg s = .next s := by
  rcases h with h | h <;> simp [exec, execEvMsg, h]

theorem exec_evStop_idle (h : s.st.running = false ∨ s.st.stopPending = false) : exec .evStop s = .next s := by
  rcases h with h | h <;> simp [exec, execEvStop, h]

end

/-- Settles O39: the guards of START, then the course of ENTER_RX from the cleared handoffs: complete, cut at the DIO mapping and
cut at the mode write. -/
theorem startEntersReceive : Obligations.StartEntersReceive := by
  refine fun s => ⟨fun hrun => exec_start_of_running hrun, fun hrun hconf => ?_, fun hd hrun hconf =>
    ⟨fun d1 d2 rest hc => ?_, fun rest hc => ?_, fun d1 rest hc => ?_⟩⟩
  · simp only [exec, execStart, hrun, hconf, Bool.false_eq_true, if_false]; rfl
  · obtain ⟨u, hexec, hu⟩ := exec_start_succeeds (d := fun i => [d1, d2].getD i []) hd hrun hconf hc
    refine ⟨_, hexec, ?_, hu.trace, ?_, hu.log, hu.chip, hu.hosts⟩
    · rw [State.respond_st, hu.st]; rfl
    · rw [State.respond_responses, hu.responses]; rfl
  · obtain ⟨u, hexec, hu⟩ := exec_start_fails (d := fun _ => []) hd hrun hconf Nat.two_pos hc
    exact ⟨_, hexec, hu.st, hu.trace, by rw [State.respond_responses, hu.responses]; rfl, hu.log, hu.hosts⟩
  · obtain ⟨u, hexec, hu⟩ := exec_start_fails (d := fun _ => d1) hd hrun hconf Nat.one_lt_two hc
    exact ⟨_, hexec, hu.st, hu.trace, by rw [State.respond_responses, hu.responses]; rfl, hu.log, hu.hosts⟩

/-- Settles O40, by the two cases of STOP. -/
theorem stopRaisesTheStopSignal : Obligations.StopRaisesTheStopSignal := by
  intro s
  change execStop s = _
  unfold execStop
  split <;> rfl

/-- Settles O41: the new backlog is TRIM of the old one with the message appended, a suffix of known length. -/
theorem sendAppendsAndTrims : Obligations.SendAppendsAndTrims := by
  refine fun msg s hrun hpos => ⟨fun hlen => ⟨_, exec_send_of_messageOk hrun ⟨hpos, hlen⟩, trim_suffix _ _, ?_⟩,
    fun hlen => exec_send_tooLong hrun hlen⟩
  rw [trim_length, List.length_append, List.length_singleton]

/-- Settles O42, by the first two guards of both commands. -/
theorem whereSendingIsRefused : Obligations.WhereSendingIsRefused := by
  refine fun msg s => ⟨fun hrun => ⟨exec_send_of_stopped hrun, exec_sendSync_of_stopped hrun⟩, ?_⟩
  rintro hrun rfl
  exact ⟨exec_send_of_empty hrun, exec_sendSync_of_empty hrun⟩

/-- Settles O43: the buffer moves into the response. -/
theorem flushRxSwapsTheBuffer : Obligations.FlushRxSwapsTheBuffer :=
  fun _ => ⟨_, rfl, rfl, rfl⟩

/-- Settles O47, by the guards of the event steps. -/
theorem arbiterIsSuspendedWhenNothingIsPending : Obligations.ArbiterIsSuspendedWhenNothingIsPending :=
  fun _ => ⟨exec_evIrq_idle, exec_evMsg_idle, exec_evStop_idle⟩

end Sys2Proof.Machine

/-! PROOFS. SEND_SYNC: its begin step, in its own or a later step (O44, O45), and its polls (O46). -/

namespace Sys2Proof.Machine

section
variable {s t : State} {id n : Nat} {msg : List Byte} {ws : List (List Byte)} {rest : List ChipAnswer}

/-! ## The begin step -/

theorem transmitting_iff (hd : s.decidedDefaults) : s.transmitting = true ↔ s.st.mode = some 0x83 := by
  rw [State.transmitting, hd, modeTx_eq, beq_iff_eq]

/-- Where the begin step of a SEND_SYNC is enabled, at the decided defaults (R144). -/
theorem canBeginSync_of_quiet (hd : s.decidedDefaults) (hrun : s.st.running = true) (hfree : s.st.txLock = .free)
    (hm : s.st.mode ≠ some 0x83) : s.canBeginSync = true :=
  s.canBeginSync_iff.mpr ⟨hrun, hfree, transmitting_eq_false hd hm⟩

theorem canBeginSync_eq_false (hd : s.decidedDefaults)
    (h : s.st.running = false ∨ s.st.txLock ≠ .free ∨ s.st.mode = some 0x83) : s.canBeginSync = false := by
  rw [Bool.eq_false_iff, Ne, s.canBeginSync_iff]
  rintro ⟨hrun, hfree, hquiet⟩
  rcases h with h | h | h
  · simp [h] at hrun
  · exact h hfree
  · simp [(transmitting_iff hd).mpr h] at hquiet

theorem setSyncPhase_syncs_eq (s : State) (id : Nat) (ph : SyncPhase) :
    (s.setSyncPhase id ph).syncs = s.syncs.map fun a => if a.id = id then ⟨id, ph⟩ else a := by
  refine List.map_congr_left fun a _ => ?_
  split
  next h => rw [h]
  · rfl

/-- What a begin step leaves whose six transactions succeed (R144, R155). -/
structure SyncBegun (id : Nat) (msg : List Byte) (s t : State) (rest : List ChipAnswer) : Prop where
  st : t.st = { s.st with txLock := .sync id, mode := some 0x83, txStart := some t.clock }
  clock : s.clock ≤ t.clock
  trace : t.trace = s.trace ++ (beginTxTxns msg).map (fun x => x true)
  syncs : t.syncs = s.syncs.map fun a => if a.id = id then ⟨id, .polling 0⟩ else a
  nextSyncId : t.nextSyncId = s.nextSyncId
  responses : t.responses = s.responses
  log : t.log = s.log
  chip : t.chip = rest
  port : t.port = s.port
  turns : t.turns = s.turns
  cfg : t.cfg = s.cfg

theorem syncBegin_gives (id : Nat) (msg : List Byte) (hd : s.decidedDefaults) (hw : ws.length = 6)
    (hc : s.chip = ws.map ChipAnswer.gives ++ rest) : ∃ t, syncBegin id msg s = .next t ∧ SyncBegun id msg s t rest := by
  obtain ⟨u, hu, hst, hclock, htrace, hchip, hlog, hresp, hsyncs, hnext, hport, hturns, hcfg⟩ :=
    beginTx_gives (msg := msg) (s := { s with st := { s.st with txLock := .sync id } }) hd hw hc
  refine ⟨u.setSyncPhase id (.polling 0), by rw [syncBegin, hu], hst, hclock, htrace, ?_, hnext, hresp, hlog, hchip, hport,
    hturns, hcfg⟩
  rw [setSyncPhase_syncs_eq, hsyncs]

/-- What a begin step leaves whose transactions succeed as far as the answers `ws` go, and whose next one fails (R144, R155,
R221). -/
structure SyncBeginFailed (id : Nat) (msg : List Byte) (ws : List (List Byte)) (s t : State) (rest : List ChipAnswer) : Prop where
  st : t.st = { s.st with mode := if ws = [] then s.st.mode else some 0x81 }
  trace : t.trace = s.trace ++ cutShort (beginTxTxns msg) ws.length
  syncs : t.syncs = s.syncs.filter fun a => a.id ≠ id
  responses : t.responses = s.responses ++ ([⟨some id, .ioError, .none⟩] : List Response)
  chip : t.chip = rest
  log : t.log = s.log
  nextSyncId : t.nextSyncId = s.nextSyncId
  clock : t.clock = s.clock
  port : t.port = s.port
  turns : t.turns = s.turns
  cfg : t.cfg = s.cfg

theorem syncBegin_fails (id : Nat) (msg : List Byte) (hd : s.decidedDefaults) (hfree : s.st.txLock = .free)
    (hw : ws.length < 6) (hc : s.chip = ws.map ChipAnswer.gives ++ .fails :: rest) :
    ∃ t, syncBegin id msg s = .next t ∧ SyncBeginFailed id msg ws s t rest := by
  obtain ⟨u, hu, hst, htrace, hchip, hlog, hresp, hclock, hsyncs, hnext, hport, hturns, hcfg⟩ :=
    beginTx_fails (msg := msg) (s := { s with st := { s.st with txLock := .sync id } }) hd hw hc
  refine ⟨({ u with st := { u.st with txLock := .free } } : State).endSync id .ioError, by rw [syncBegin, hu], ?_, htrace, ?_, ?_,
    hchip, hlog, hnext, hclock, hport, hturns, hcfg⟩
  · rw [State.endSync_st, hst, ← hfree]
  · rw [State.endSync_syncs, hsyncs]
  · rw [State.endSync_responses, hresp]

/-! ## The command's own step -/

theorem exec_sendSync_tooLong (hrun : s.st.running = true) (h : 255 < msg.length) :
    exec (.sendSync msg) s = .next (s.respond none .messageTooLongError .none) := by
  simp [exec, execSendSync, hrun, isEmpty_eq_false_of_length_pos (by omega : 1 ≤ msg.length), msgMax, h]

theorem exec_sendSync_of_messageOk (hrun : s.st.running = true) (hmsg : messageOk msg) :
    exec (.sendSync msg) s =
      if s.canBeginSync then syncBegin s.nextSyncId msg (s.issueSync msg) else .next (s.issueSync msg) := by
  obtain ⟨hpos, hlen⟩ := hmsg
  simp [exec, execSendSync, hrun, isEmpty_eq_false_of_length_pos hpos, msgMax, Nat.not_lt.mpr hlen]

/-- The agent just issued is the only one with its id. -/
theorem issueSync_map_new (hold : ∀ a ∈ s.syncs, a.id < s.nextSyncId) (ph : SyncPhase) :
    ((s.issueSync msg).syncs.map fun a => if a.id = s.nextSyncId then ⟨s.nextSyncId, ph⟩ else a) =
      s.syncs ++ ([⟨s.nextSyncId, ph⟩] : List SyncAgent) := by
  rw [State.issueSync_syncs, List.map_append, List.map_singleton, if_pos rfl]
  congr 1
  exact (List.map_congr_left fun a ha => if_neg (hold a ha).ne).trans (List.map_id' _)

theorem issueSync_filter_new (hold : ∀ a ∈ s.syncs, a.id < s.nextSyncId) :
    ((s.issueSync msg).syncs.filter fun a => a.id ≠ s.nextSyncId) = s.syncs := by
  rw [State.issueSync_syncs, List.filter_append, List.filter_eq_self.mpr fun a ha => by simpa using (hold a ha).ne]
  simp

/-! ## A later step of the agent -/

theorem syncStep_none (h : s.syncs.find? (fun a => a.id = id) = none) : syncStep id s = .next s := by
  rw [syncStep, h]

theorem syncStep_waiting (h : s.syncs.find? (fun a => a.id = id) = some ⟨id, .waiting msg⟩) :
    syncStep id s = if s.canBeginSync then syncBegin id msg s else .next s := by
  rw [syncStep, h]

theorem syncStep_polling (h : s.syncs.find? (fun a => a.id = id) = some ⟨id, .polling n⟩) :
    syncStep id s = syncPoll id n s := by
  rw [syncStep, h]

/-! ## A poll -/

theorem pollsExhausted_iff (limit : Option Nat) (n : Nat) :
    pollsExhausted limit n = true ↔ ∃ m, limit = some m ∧ m ≤ n := by
  cases limit <;> simp [pollsExhausted]

theorem pollsExhausted_eq_false {limit : Option Nat} (h : ∀ m, limit = some m → n < m) : pollsExhausted limit n = false := by
  rw [Bool.eq_false_iff, Ne, pollsExhausted_iff]
  rintro ⟨m, hm, hle⟩
  exact Nat.not_lt.mpr hle (h m hm)

/-- The state after a poll whose read of the mode register was answered so (R145). -/
def modeRead (s : State) (answer : Option Byte) : State :=
  (s.useAnswer 1).record (.getByte regOpMode answer)

theorem syncPoll_of_gives {v : Byte} {d : List Byte} (hd : s.decidedDefaults)
    (hmax : ∀ m, s.cfg.syncPollMax = some m → n < m) (hc : s.chip = .gives (v :: d) :: rest) :
    syncPoll id n s = if v &&& 0x87 = 0x83 then .next ((modeRead s (some v)).setSyncPhase id (.polling (n + 1)))
      else .next (((modeRead s (some v)).releaseSync id).endSync id .ok) := by
  rw [syncPoll, if_neg (by simp [pollsExhausted_eq_false hmax]), getMode_of_gives hd hc]
  dsimp only
  rw [State.record_cfg, State.useAnswer_cfg, hd, modeTx_eq]
  rfl

theorem syncPoll_of_fails (hmax : ∀ m, s.cfg.syncPollMax = some m → n < m) (hc : s.chip = .fails :: rest) :
    syncPoll id n s = .next (((modeRead s none).releaseSync id).endSync id .ioError) := by
  rw [syncPoll, if_neg (by simp [pollsExhausted_eq_false hmax]), getMode_of_fails (nextAnswer_of_chip hc)]
  rfl

/-- A SEND_SYNC that returns after a poll frees its lock. -/
theorem endSync_releaseSync (id : Nat) (e : Status) (answer : Option Byte) (s : State) :
    let t := ((modeRead s answer).releaseSync id).endSync id e
    t.st = { s.st with txLock := if s.st.txLock = .sync id then .free else s.st.txLock } ∧
      t.responses = s.responses ++ ([⟨some id, e, .none⟩] : List Response) ∧
      t.trace = s.trace ++ ([.getByte 0x01 answer] : List BusTxn) ∧ t.syncs = s.syncs.filter fun a => a.id ≠ id := by
  rw [State.releaseSync_eq]
  exact ⟨rfl, rfl, rfl, rfl⟩

end

/-- Settles O44: by the length of the message and by whether the begin step is enabled, at issue and in a later step. -/
theorem sendSyncBeginsOrWaits : Obligations.SendSyncBeginsOrWaits := by
  refine ⟨fun msg s hd hrun hpos => ⟨fun hlen => exec_sendSync_tooLong hrun hlen, fun hlen hbusy => ?_,
    fun hlen hfree hm hold ws rest hw hc => ?_⟩, fun id s hnone => syncStep_none hnone,
    fun id msg s hd hfind hpos hlen => ⟨fun hbusy => ?_, fun hrun hfree hm ws rest hw hc => ?_⟩⟩
  · rw [exec_sendSync_of_messageOk hrun ⟨hpos, hlen⟩, canBeginSync_eq_false hd (.inr hbusy)]
    rfl
  · rw [exec_sendSync_of_messageOk hrun ⟨hpos, hlen⟩, if_pos (canBeginSync_of_quiet hd hrun hfree hm)]
    obtain ⟨t, ht, h⟩ := syncBegin_gives s.nextSyncId msg (s := s.issueSync msg) hd hw hc
    exact ⟨t, ht, h.st, h.clock, h.trace, h.syncs.trans (issueSync_map_new hold _), h.nextSyncId, h.responses, h.log, h.chip,
      h.port, h.turns, h.cfg⟩
  · rw [syncStep_waiting hfind, canBeginSync_eq_false hd hbusy]
    rfl
  · rw [syncStep_waiting hfind, if_pos (canBeginSync_of_quiet hd hrun hfree hm)]
    obtain ⟨t, ht, h⟩ := syncBegin_gives id msg hd hw hc
    exact ⟨t, ht, h.st, h.clock, h.trace, h.syncs, h.nextSyncId, h.responses, h.log, h.chip, h.port, h.turns, h.cfg⟩

/-- Settles O45: the begin step that fails, at issue and in a later step. -/
theorem failedSendSyncReturnsIoError : Obligations.FailedSendSyncReturnsIoError := by
  refine ⟨fun msg s ws rest hd hrun hpos hlen hfree hm hold hw hc => ?_,
    fun id msg s ws rest hfind hd hrun hpos hlen hfree hm hw hc => ?_⟩
  · rw [exec_sendSync_of_messageOk hrun ⟨hpos, hlen⟩, if_pos (canBeginSync_of_quiet hd hrun hfree hm)]
    obtain ⟨t, ht, h⟩ := syncBegin_fails s.nextSyncId msg (s := s.issueSync msg) hd hfree hw hc
    exact ⟨t, ht, h.st, h.trace, h.syncs.trans (issueSync_filter_new hold),
      h.responses, h.chip, h.log, h.nextSyncId, h.clock, h.port, h.turns, h.cfg⟩
  · rw [syncStep_waiting hfind, if_pos (canBeginSync_of_quiet hd hrun hfree hm)]
    obtain ⟨t, ht, h⟩ := syncBegin_fails id msg hd hfree hw hc
    exact ⟨t, ht, h.st, h.trace, h.syncs, h.responses, h.chip, h.log, h.nextSyncId,
      h.clock, h.port, h.turns, h.cfg⟩

/-- Settles O46: by the bound on the polls and by what the chip answers to the read of its mode. -/
theorem syncPollReturnsWhenTheChipLeavesTx : Obligations.SyncPollReturnsWhenTheChipLeavesTx := by
  intro id n s hd hfind
  rw [syncStep_polling hfind]
  refine ⟨fun hmax => ?_, fun hmax => ⟨fun v d rest hc hv => ?_, fun v d rest hc hv => ?_, fun rest hc => ?_⟩⟩
  · rw [syncPoll, if_pos ((pollsExhausted_iff _ _).mpr hmax)]
  · rw [syncPoll_of_gives hd hmax hc, if_pos hv]
    exact ⟨_, rfl, rfl, rfl, rfl, setSyncPhase_syncs_eq _ _ _⟩
  · rw [syncPoll_of_gives hd hmax hc, if_neg hv]
    exact ⟨_, rfl, endSync_releaseSync id .ok (some v) s⟩
  · rw [syncPoll_of_fails hmax hc]
    exact ⟨_, rfl, endSync_releaseSync id .ioError none s⟩

end Sys2Proof.Machine

/-! PROOFS. EV_IRQ: the flags (O48), a received packet (O50), nothing to do (O51), the next message after a transmit-complete
(O53); EV_MSG (O55); a failed start in both (O56); EV_STOP (O57). -/

namespace Sys2Proof.Machine

section
variable {s t : State} {mode : Option Byte} {flags : Byte} {d : List Byte} {c rest : List ChipAnswer}

/-! ## EV_IRQ -/

theorem exec_evIrq_enabled (hrun : s.st.running = true) (hirq : 0 < s.st.irqPending) : exec .evIrq s = handleIrq s :=
  if_pos (by simp [hrun, hirq])

/-- Without flags EV_IRQ takes no branch. -/
theorem irqBranch_none (mode : Option Byte) (s : State) : irqBranch mode none s = .next s := by
  unfold irqBranch
  split
  · rfl
  · split <;> rfl

/-- The branch leaves the count of edges alone. -/
theorem irqBranch_irqPending {flags : Option Byte} (h : irqBranch mode flags s = .next t) :
    t.st.irqPending = s.st.irqPending := by
  rcases irqBranch_cases h with rfl | ⟨t0, rfl⟩ | h
  · rfl
  · rw [(afterTx_op (txDone s t0)).st]; rfl
  · obtain ⟨-, ⟨hst, -⟩ | ⟨m, hst, -⟩⟩ := rxPacket_spec h <;> rw [hst]

/-- The state after a read of the flags that failed and is logged (R148, R226). -/
def flagsUnread (s : State) : State :=
  (((irqTaken s).useAnswer 1).record (.getByte regIrqFlags none)).logEvent .irqIoError

/-- EV_IRQ when the read of the flags fails: no branch runs, the flags are cleared. -/
theorem evIrq_unread (hrun : s.st.running = true) (hirq : 0 < s.st.irqPending) (hc : s.chip = .fails :: c) :
    exec .evIrq s = .next (clearIrqFlags (flagsUnread s)) := by
  have hread : readIrqFlags (irqTaken s) = (none, flagsUnread s) := by
    rw [readIrqFlags, getByte_of_fails _ (nextAnswer_of_chip (s := irqTaken s) hc)]; rfl
  rw [exec_evIrq_enabled hrun hirq]
  change onNext (irqBranch s.st.mode (readIrqFlags (irqTaken s)).1 (readIrqFlags (irqTaken s)).2) _ = _
  rw [hread, irqBranch_none]; rfl

theorem clearIrqFlags_of_gives (h : s.chip = .gives d :: rest) :
    clearIrqFlags s = (s.useAnswer 0).record (.setByte regIrqFlags irqClearAll true) := by
  rw [clearIrqFlags, setByte_of_gives _ _ (nextAnswer_of_chip h)]

/-! ## RX_PACKET -/

/-- The bound on the receive buffer is tested as the bound on the polls is (U4, U8). -/
theorem capReached_eq_pollsExhausted (cap : Option Nat) (n : Nat) : capReached cap n = pollsExhausted cap n := by
  cases cap <;> rfl

theorem rxPacket_of_raised {e : Status} (h : readPacket s = .raised e t) : rxPacket s = .next (t.logEvent .irqIoError) := by
  rw [rxPacket, h]

variable {pay : List Byte} {snr rssi : Byte} {p : RadioParameters}

theorem rxPacket_full (h : readPacket s = .done (pay, snr, rssi) t) (hp : t.st.params = some p)
    (hcap : capReached t.cfg.rxbufCap t.st.rxbuf.length = true) : rxPacket s = .fault .rxbufFull := by
  simp only [rxPacket, h, hp, hcap, if_true]

/-- The state after a packet has been appended, stamped with the time (R152). -/
def packetAppended (s : State) (pay : List Byte) (snr rssi : Byte) (p : RadioParameters) : State :=
  { s.sampleTime with st := { s.st with rxbuf := s.st.rxbuf ++ [⟨pay, rssi, snr, nextTime s, p⟩] } }

theorem rxPacket_appends (h : readPacket s = .done (pay, snr, rssi) t) (hp : t.st.params = some p)
    (hcap : capReached t.cfg.rxbufCap t.st.rxbuf.length = false) :
    rxPacket s = .next (packetAppended t pay snr rssi p) := by
  simp only [rxPacket, packetAppended, h, hp, hcap, Bool.false_eq_true, if_false]

/-- The branch EV_IRQ takes in RXCONTINUOUS on a packet without CRC error (R148, R150). -/
theorem irqBranch_rxPacket (hd : s.decidedDefaults) (hm : s.st.mode = some 0x85) (hdone : flags.getLsbD 6 = true)
    (hcrc : flags.getLsbD 5 = false) :
    irqBranch s.st.mode (some flags) (flagsRead s flags c) = rxPacket (flagsRead s flags c) := by
  have hd' : (flagsRead s flags c).decidedDefaults := hd
  rw [hm, irqBranch_rx hd', rxBranch_ready hd' hdone hcrc]

/-! ## The branch with nothing to do -/

theorem rxBranch_idle (hd : s.decidedDefaults) (h : flags.getLsbD 5 = true ∨ flags.getLsbD 6 = false) :
    rxBranch flags s = .next s := by
  have hready : s.cfg.rxPacketReady flags = false := by
    rw [hd, Decided.rxPacketReady, flagSet_irqRxDone, flagSet_irqCrcErr]
    rcases h with h | h <;> rw [h]
    · rfl
    · exact Bool.and_false _
  rw [rxBranch, hready]; rfl

theorem irqBranch_other (hd : s.decidedDefaults) (htx : mode ≠ some 0x83) (hrx : mode ≠ some 0x85) :
    irqBranch mode (some flags) s = .next s := by
  rw [irqBranch, hd, modeTx_eq, modeRxContinuous_eq, if_neg htx, if_neg hrx]

/-- No branch of EV_IRQ has anything to do on these flags (R149 to R151). -/
theorem irqBranch_idle (hd : s.decidedDefaults)
    (h : (mode = some 0x85 ∧ (flags.getLsbD 5 = true ∨ flags.getLsbD 6 = false)) ∨
      (mode = some 0x83 ∧ flags.getLsbD 3 = false) ∨ (mode ≠ some 0x85 ∧ mode ≠ some 0x83)) :
    irqBranch mode (some flags) s = .next s := by
  rcases h with ⟨rfl, hflags⟩ | ⟨rfl, hflag⟩ | ⟨hrx, htx⟩
  · rw [irqBranch_rx hd, rxBranch_idle hd hflags]
  · rw [irqBranch_tx hd, txBranch_idle s (by rw [hd, flagSet_irqTxDone, hflag])]
  · exact irqBranch_other hd htx hrx

/-! ## The next message -/

theorem afterTx_of_cons {msg : List Byte} {more : List (List Byte)} (hb : s.st.backlog = msg :: more) :
    afterTx s = startNext s := by
  rw [afterTx, hb]; rfl

/-- EV_IRQ on a transmit-complete with a message waiting, whichever way the start ends (R148, R149). -/
theorem evIrq_startNext {t0 : Nat} {msg : List Byte} {more : List (List Byte)} (hd : s.decidedDefaults)
    (hrun : s.st.running = true) (hirq : 0 < s.st.irqPending) (hm : s.st.mode = some 0x83) (h0 : s.st.txStart = some t0)
    (hb : s.st.backlog = msg :: more) (hflag : flags.getLsbD 3 = true) (hc : s.chip = .gives [flags] :: c)
    (hnext : startNext (txDone (flagsRead s flags c) t0) = t) (ht : t.chip = .gives d :: rest) :
    exec .evIrq s =
      .next { t with chip := rest, draws := t.draws + 1, trace := t.trace ++ ([.setByte 0x12 0xFF true] : List BusTxn) } := by
  have hbranch := irqBranch_txDone c hd hm h0 hflag
  rw [afterTx_of_cons (s := txDone (flagsRead s flags c) t0) hb, hnext] at hbranch
  exact evIrq_gives hrun hirq hc hbranch ht

/-! ## EV_MSG -/

/-- One message notification is consumed (R153). -/
def msgTaken (s : State) : State :=
  { s with st := { s.st with msgPending := s.st.msgPending - 1 } }

theorem exec_evMsg_enabled (hrun : s.st.running = true) (hmsg : 0 < s.st.msgPending) :
    exec .evMsg s = .next (if s.transmitting then msgTaken s else startNext (msgTaken s)) :=
  if_pos (by simp [hrun, hmsg])

theorem exec_evMsg_quiet (hd : s.decidedDefaults) (hrun : s.st.running = true) (hmsg : 0 < s.st.msgPending)
    (hm : s.st.mode ≠ some 0x83) : exec .evMsg s = .next (startNext (msgTaken s)) := by
  rw [exec_evMsg_enabled hrun hmsg, transmitting_eq_false hd hm]; rfl

/-! ## EV_STOP -/

theorem exec_evStop_enabled (hrun : s.st.running = true) (hstop : s.st.stopPending = true) :
    exec .evStop s = .next (handleStop s) :=
  if_pos (by simp [hrun, hstop])

theorem enterStandbyForStop_of_gives (hd : s.decidedDefaults) (h : nextAnswer s = .gives d) :
    enterStandbyForStop s = modeWritten s 0x81 := by
  rw [enterStandbyForStop, hd, modeStandby_eq, setMode_of_gives _ h]

theorem enterStandbyForStop_of_fails (hd : s.decidedDefaults) (h : nextAnswer s = .fails) :
    enterStandbyForStop s = ((s.useAnswer 0).record (.setByte 0x01 0x81 false)).logEvent .stopIoError := by
  rw [enterStandbyForStop, hd, modeStandby_eq, setMode_of_fails _ h]; rfl

end

/-- Settles O48: the read of the flags, what the branch adds, and the clearing of the flags, put together. -/
theorem interruptFlagsAreAlwaysCleared : Obligations.InterruptFlagsAreAlwaysCleared := by
  intro s t hrun hirq h
  rw [exec_evIrq_enabled hrun hirq] at h
  obtain ⟨u, hbranch, rfl⟩ := handleIrq_eq_next h
  obtain ⟨hread, -, -, htrace, -⟩ := readIrqFlags_spec (irqTaken s)
  obtain ⟨ok, hcleared, hlog, hst, -⟩ := clearIrqFlags_spec u
  obtain ⟨mid, hmid, -⟩ := (irqBranch_op hbranch).trace
  refine ⟨by rw [hst, irqBranch_irqPending hbranch, hread]; rfl, _, mid, ok, by rw [hcleared, hmid, htrace]; rfl,
    fun hnone => ?_, fun hfail => ?_⟩
  · rw [hnone, irqBranch_none] at hbranch
    cases hbranch
    simpa using hmid
  · rw [hlog, hfail]; simp

/-- Settles O50: the course of RX_PACKET within EV_IRQ, complete, with the receive buffer full or not, and cut at any
transaction; and the read of the flags that fails. -/
theorem receivedPacketIsAppended : Obligations.ReceivedPacketIsAppended := by
  intro s p flags n a snr rssi pay d1 d2 rest hd hrun hirq hm hp hdone hcrc hl txns
  refine ⟨fun hc => ?_, fun k hk hc => ?_, fun hc => ?_⟩
  · have hbranch := irqBranch_rxPacket (c := txns.map (fun x => x.1) ++ .gives d2 :: rest) hd hm hdone hcrc
    obtain ⟨u, hread, hst, htrace, hchip, hlog, hresp, hclock, -, hhosts⟩ :=
      readPacket_gives (s := flagsRead s flags (txns.map (fun x => x.1) ++ .gives d2 :: rest)) hd hl rfl
    obtain ⟨-, -, -, -, hcfg⟩ := id hhosts
    have hpar : u.st.params = some p := by rw [hst]; exact hp
    refine ⟨fun hfull => ?_, fun hroom => ?_⟩
    · have hcap : capReached u.cfg.rxbufCap u.st.rxbuf.length = true := by
        rw [capReached_eq_pollsExhausted, hcfg, hst]; exact (pollsExhausted_iff _ _).mpr hfull
      exact evIrq_fault hrun hirq hc (hbranch.trans (rxPacket_full hread hpar hcap))
    · have hcap : capReached u.cfg.rxbufCap u.st.rxbuf.length = false := by
        rw [capReached_eq_pollsExhausted, hcfg, hst]; exact pollsExhausted_eq_false hroom
      refine ⟨_, evIrq_gives hrun hirq hc (hbranch.trans (rxPacket_appends hread hpar hcap)) hchip, ?_, ?_, ?_, hlog,
        hresp, rfl, hhosts⟩
      · exact hclock.symm.trans_le (nextTime_ge u)
      · dsimp only [packetAppended]
        rw [hst]; rfl
      · change u.trace ++ _ = _
        rw [htrace]; rfl
  · have hbranch := irqBranch_rxPacket (c := (txns.take k).map (fun x => x.1) ++ .fails :: .gives d2 :: rest) hd hm hdone hcrc
    obtain ⟨u, hread, hst, htrace, hchip, hlog, hresp, hclock, -, hhosts⟩ :=
      readPacket_fails (s := flagsRead s flags ((txns.take k).map (fun x => x.1) ++ .fails :: .gives d2 :: rest)) hd hl hk rfl
    refine ⟨_, evIrq_gives hrun hirq hc (hbranch.trans (rxPacket_of_raised hread)) hchip, hst, ?_, ?_, hresp, rfl,
      hclock, hhosts⟩
    · change u.trace ++ _ = _
      rw [htrace, failingAt, ← List.append_assoc]; rfl
    · change u.log ++ _ = _
      rw [hlog]; rfl
  · have hchip : (flagsUnread s).chip = .gives d2 :: rest := congrArg List.tail hc
    rw [evIrq_unread hrun hirq hc, clearIrqFlags_of_gives hchip]
    exact ⟨_, rfl, rfl, by simp [flagsUnread, irqTaken, regIrqFlags, irqClearAll], rfl, rfl, congrArg List.tail hchip,
      rfl, rfl, rfl, rfl, rfl, rfl⟩

/-- Settles O51: the branch has nothing to do. -/
theorem interruptWithoutItsFlagChangesNothing : Obligations.InterruptWithoutItsFlagChangesNothing := by
  intro s flags d rest hd hrun hirq hc hidle
  have hbranch := irqBranch_idle (s := flagsRead s flags (.gives d :: rest)) hd hidle
  refine ⟨_, evIrq_gives hrun hirq hc hbranch rfl, rfl, ?_, rfl, rfl, rfl, rfl, rfl, rfl, rfl, rfl, rfl⟩
  simp [flagsRead]

/-- Settles O53: START_NEXT after the transmit-complete, with every transaction accepted. -/
theorem transmitCompleteStartsTheNextMessage : Obligations.TransmitCompleteStartsTheNextMessage := by
  intro s t0 flags msg more ws rest hd hrun hirq hm h0 hb hflag hw hc
  obtain rfl | ⟨ws, d, rfl⟩ := List.eq_nil_or_concat ws
  · cases hw
  have hw : ws.length = 6 := by simpa using hw
  have hc : s.chip = .gives [flags] :: (ws.map ChipAnswer.gives ++ .gives d :: rest) := by simpa using hc
  obtain ⟨t, hnext, hst, hclock, htrace, hchip, hlog, hresp, hhosts⟩ :=
    startNext_gives (s := txDone (flagsRead s flags (ws.map ChipAnswer.gives ++ .gives d :: rest)) t0) hd hb hw rfl
  refine ⟨_, nextTime (flagsRead s flags (ws.map ChipAnswer.gives ++ .gives d :: rest)),
    evIrq_startNext hd hrun hirq hm h0 hb hflag hc hnext hchip, nextTime_ge (flagsRead s flags _), hclock, hst, ?_, hlog,
    hresp, rfl, hhosts⟩
  change t.trace ++ _ = _
  rw [htrace]
  simp [txDone, flagsRead, beginTxTxns]

/-- Settles O55: EV_MSG while transmitting, with an empty backlog, and START_NEXT with every transaction accepted. -/
theorem newMessageStartsWhenIdle : Obligations.NewMessageStartsWhenIdle := by
  refine fun s hd hrun hmsg => ⟨fun hidle => ?_, fun msg more ws rest hm hb hw hc => ?_⟩
  · rw [exec_evMsg_enabled hrun hmsg]
    split
    · rfl
    next hquiet =>
      have hb : s.st.backlog = [] := hidle.resolve_left fun hm => hquiet ((transmitting_iff hd).mpr hm)
      rw [startNext_nil (s := msgTaken s) hb]; rfl
  · obtain ⟨t, hnext, hst, hclock, htrace, hchip, hlog, hresp, hhosts⟩ := startNext_gives (s := msgTaken s) hd hb hw hc
    exact ⟨t, by rw [exec_evMsg_quiet hd hrun hmsg hm, hnext], hclock, hst, htrace, hlog, hresp, hchip, hhosts⟩

/-- Settles O56: START_NEXT when one of its transactions fails, from EV_MSG and from EV_IRQ. -/
theorem failedStartConsumesTheMessage : Obligations.FailedStartConsumesTheMessage := by
  refine ⟨fun s msg more ws rest hd hrun hmsg hm hb hw hc => ?_,
    fun s t0 flags msg d more ws rest hd hrun hirq hm h0 hb hflag hw hc => ?_⟩
  · obtain ⟨t, hnext, hst, hclock, htrace, hchip, hlog, hresp, hhosts⟩ := startNext_fails (s := msgTaken s) hd hb hw hc
    exact ⟨t, by rw [exec_evMsg_quiet hd hrun hmsg hm, hnext], hst, htrace, hlog, hresp, hchip, hclock, hhosts⟩
  · obtain ⟨t, hnext, hst, hclock, htrace, hchip, hlog, hresp, hhosts⟩ :=
      startNext_fails (s := txDone (flagsRead s flags (ws.map ChipAnswer.gives ++ .fails :: .gives d :: rest)) t0) hd hb hw rfl
    refine ⟨_, evIrq_startNext hd hrun hirq hm h0 hb hflag hc hnext hchip, ?_, ?_, ?_, ?_, hresp, rfl, hhosts⟩
    · exact (nextTime_ge (flagsRead s flags _)).trans_eq hclock.symm
    · dsimp only
      rw [hst, hclock, ← hm]; rfl
    · change t.trace ++ _ = _
      rw [htrace]; rfl
    · dsimp only
      rw [hlog, hclock]
      simp [txDone, flagsRead]

/-- Settles O57: the STANDBY write, accepted or not, and then the end of the loop. -/
theorem stopEventEndsTheLoop : Obligations.StopEventEndsTheLoop := by
  intro s hd hrun hstop
  rw [exec_evStop_enabled hrun hstop, handleStop]
  cases h : nextAnswer s with
  | fails =>
    rw [enterStandbyForStop_of_fails (s := { s with st := { s.st with stopPending := false } }) hd h]
    exact ⟨_, rfl, rfl, rfl, rfl, rfl, rfl, rfl, rfl, rfl, rfl, rfl⟩
  | gives d =>
    rw [enterStandbyForStop_of_gives (s := { s with st := { s.st with stopPending := false } }) hd h]
    exact ⟨_, rfl, rfl, rfl, (List.append_nil _).symm, rfl, rfl, rfl, rfl, rfl, rfl, rfl⟩

end Sys2Proof.Machine

/-! PROOFS. Who touches the bus (O60), and how the TX mode is left (O16). -/

namespace Sys2Proof.Machine

section
variable {s t u v : State} {id : Nat} {msg : List Byte}

/-! ## Steps that do not touch the bus -/

/-- From `s` to `t` no transaction is issued and no answer of the chip is used. -/
structure BusUntouched (s t : State) : Prop where
  trace : t.trace = s.trace
  chip : t.chip = s.chip
  mode : t.st.mode = s.st.mode

theorem execStop_bus (h : execStop s = .next t) : BusUntouched s t := by
  unfold execStop at h
  split at h <;> cases h <;> exact ⟨rfl, rfl, rfl⟩

theorem execSend_bus (h : execSend msg s = .next t) : BusUntouched s t := by
  unfold execSend at h
  split at h
  · cases h
  · split at h
    · cases h
    · split at h <;> cases h <;> exact ⟨rfl, rfl, rfl⟩

theorem execFlushRx_bus (h : execFlushRx s = .next t) : BusUntouched s t := by
  cases h
  exact ⟨rfl, rfl, rfl⟩

theorem execPacketEncode_bus {plain : List Byte} (h : execPacketEncode plain s = .next t) : BusUntouched s t := by
  unfold execPacketEncode at h
  split at h <;> cases h
  exact ⟨rfl, rfl, rfl⟩

theorem execPacketDecode_bus {rx : List Byte} (h : execPacketDecode rx s = .next t) : BusUntouched s t := by
  unfold execPacketDecode at h
  split at h
  · split at h <;> cases h <;> exact ⟨rfl, rfl, rfl⟩
  · cases h

theorem envEdge_bus (h : envEdge s = .next t) : BusUntouched s t := by
  unfold envEdge at h
  split at h
  · split at h <;> cases h
    exact ⟨rfl, rfl, rfl⟩
  · cases h; exact ⟨rfl, rfl, rfl⟩

/-- A SEND_SYNC whose begin step is not enabled. -/
theorem execSendSync_bus (hbusy : s.canBeginSync = false) (h : execSendSync msg s = .next t) : BusUntouched s t := by
  unfold execSendSync at h
  split at h
  · cases h
  · split at h
    · cases h
    · split at h
      · cases h; exact ⟨rfl, rfl, rfl⟩
      · rw [hbusy] at h
        cases h; exact ⟨rfl, rfl, rfl⟩

/-- On a stopped arbiter only CONFIGURE, RECONFIGURE and START touch the bus (R240). -/
theorem exec_stopped_bus {i : Instr} (hrun : s.st.running = false) (hconf : ∀ p, i ≠ .configure p)
    (hreconf : ∀ p, i ≠ .reconfigure p) (hstart : i ≠ .start) (h : exec i s = .next t) : BusUntouched s t := by
  cases i with
  | configure p => exact absurd rfl (hconf p)
  | reconfigure p => exact absurd rfl (hreconf p)
  | start => exact absurd rfl hstart
  | stop => exact execStop_bus h
  | send msg => exact execSend_bus h
  | sendSync msg => rw [exec_sendSync_of_stopped hrun] at h; cases h
  | flushRx => exact execFlushRx_bus h
  | packetEncode plain => exact execPacketEncode_bus h
  | packetDecode rx => exact execPacketDecode_bus h
  | evIrq => rw [exec_evIrq_idle (.inl hrun)] at h; cases h; exact ⟨rfl, rfl, rfl⟩
  | evMsg => rw [exec_evMsg_idle (.inl hrun)] at h; cases h; exact ⟨rfl, rfl, rfl⟩
  | evStop => rw [exec_evStop_idle (.inl hrun)] at h; cases h; exact ⟨rfl, rfl, rfl⟩

/-! ## Leaving the TX mode -/

/-- What R157 and R160 say of a step from `s`, where TX is cached, to `t`. -/
def LeavesTxDrained (s t : State) : Prop :=
  (t.st.mode = some 0x85 → s.st.backlog = [] ∧ t.st.backlog = []) ∧
    (t.st.mode = some 0x83 ∨ t.st.mode = some 0x85 ∨
      (t.st.mode = some 0x81 ∧ (t.st.running = false ∨ LogEvent.txStartFailed ∈ t.log.drop s.log.length)))

theorem LeavesTxDrained.of_tx (h : t.st.mode = some 0x83) : LeavesTxDrained s t :=
  ⟨fun hrx => by simp [h] at hrx, .inl h⟩

theorem LeavesTxDrained.of_bus (hm : s.st.mode = some 0x83) (h : BusUntouched s t) : LeavesTxDrained s t :=
  .of_tx (h.mode.trans hm)

theorem LeavesTxDrained.of_standby (h : t.st.mode = some 0x81)
    (hwhy : t.st.running = false ∨ LogEvent.txStartFailed ∈ t.log.drop s.log.length) : LeavesTxDrained s t :=
  ⟨fun hrx => by simp [h] at hrx, .inr (.inr ⟨h, hwhy⟩)⟩

/-- What comes before and after may log more, but not change the backlog, and afterwards nothing of `st`. -/
theorem LeavesTxDrained.within (h : LeavesTxDrained u v) (hback : u.st.backlog = s.st.backlog) (hlog : s.log <+: u.log)
    (hst : t.st = v.st) (hlog' : v.log <+: t.log) : LeavesTxDrained s t := by
  obtain ⟨hrx, hleft⟩ := h
  have hmem : ∀ e ∈ v.log.drop u.log.length, e ∈ t.log.drop s.log.length := fun e he =>
    List.drop_subset_drop_left _ hlog.length_le ((hlog'.drop _).subset he)
  rw [LeavesTxDrained, hst, ← hback]
  exact ⟨hrx, hleft.imp_right (Or.imp_right (And.imp_right (Or.imp_right (hmem _))))⟩

/-- After a transmit-complete the next message is begun, or its start has failed; the radio goes back to receive when none
waits (R149). -/
theorem afterTx_leavesTxDrained (hd : s.decidedDefaults) (hm : s.st.mode = some 0x83) : LeavesTxDrained s (afterTx s) := by
  obtain ⟨-, ⟨msg, more, -, ⟨hst, -⟩ | ⟨-, hmode | hmode, hlog, -⟩⟩ | ⟨hb, -, ⟨hst, -⟩ | ⟨hst, -⟩⟩⟩ := afterTx_spec s
  · exact .of_tx (by rw [hst, hd, modeTx_eq])
  · exact .of_tx (hmode.trans hm)
  · exact .of_standby (by rw [hmode, hd, modeStandby_eq]) (.inr (by simp [hlog]))
  · rw [LeavesTxDrained, hst, hd, modeRxContinuous_eq]
    exact ⟨fun _ => ⟨hb, hb⟩, .inr (.inl rfl)⟩
  · exact .of_tx (by rw [hst, hm])

theorem irqBranch_leavesTxDrained {mode flags : Option Byte} (hd : s.decidedDefaults) (hm : s.st.mode = some 0x83)
    (h : irqBranch mode flags s = .next t) : LeavesTxDrained s t := by
  rcases irqBranch_cases h with rfl | ⟨t0, rfl⟩ | h
  · exact .of_tx hm
  · exact (afterTx_leavesTxDrained (s := txDone s t0) hd hm).within rfl (txDone_subOp s t0).log rfl List.prefix_rfl
  · obtain ⟨-, ⟨hst, -⟩ | ⟨m, hst, -⟩⟩ := rxPacket_spec h <;> exact .of_tx (by rw [hst, hm])

theorem handleIrq_leavesTxDrained (hd : s.decidedDefaults) (hm : s.st.mode = some 0x83) (h : handleIrq s = .next t) :
    LeavesTxDrained s t := by
  obtain ⟨u, hbranch, rfl⟩ := handleIrq_eq_next h
  obtain ⟨hread, -, hsub, -⟩ := readIrqFlags_spec (irqTaken s)
  obtain ⟨-, -, -, hclear, -, -, -, hsub'⟩ := clearIrqFlags_spec u
  refine (irqBranch_leavesTxDrained ?_ ?_ hbranch).within ?_ hsub.log hclear hsub'.log
  · rw [State.decidedDefaults, hsub.cfg]; exact hd
  · rw [hread]; exact hm
  · rw [hread]; rfl

/-- EV_STOP ends the loop. -/
theorem handleStop_leavesTxDrained (hd : s.decidedDefaults) (hm : s.st.mode = some 0x83) : LeavesTxDrained s (handleStop s) := by
  obtain ⟨-, -, hmode | hmode⟩ := enterStandbyForStop_spec { s with st := { s.st with stopPending := false } }
  · exact .of_tx (hmode.trans hm)
  · exact .of_standby (hmode.trans (by rw [hd, modeStandby_eq])) (.inl rfl)

theorem exec_leavesTxDrained {i : Instr} (hd : s.decidedDefaults) (hrun : s.st.running = true) (hm : s.st.mode = some 0x83)
    (h : exec i s = .next t) : LeavesTxDrained s t := by
  have htx : s.transmitting = true := (transmitting_iff hd).mpr hm
  cases i with
  | configure p => rw [exec_configure_running hrun] at h; cases h
  | reconfigure p => rw [exec_reconfigure_transmitting htx] at h; cases h; exact .of_tx hm
  | start => rw [exec_start_of_running hrun] at h; cases h; exact .of_tx hm
  | stop => exact .of_bus hm (execStop_bus h)
  | send msg => exact .of_bus hm (execSend_bus h)
  | sendSync msg => exact .of_bus hm (execSendSync_bus (canBeginSync_eq_false hd (.inr (.inr hm))) h)
  | flushRx => exact .of_bus hm (execFlushRx_bus h)
  | packetEncode plain => exact .of_bus hm (execPacketEncode_bus h)
  | packetDecode rx => exact .of_bus hm (execPacketDecode_bus h)
  | evIrq =>
    rcases Nat.eq_zero_or_pos s.st.irqPending with hnone | hirq
    · rw [exec_evIrq_idle (.inr hnone)] at h; cases h; exact .of_tx hm
    · exact handleIrq_leavesTxDrained hd hm ((exec_evIrq_enabled hrun hirq).symm.trans h)
  | evMsg =>
    rcases Nat.eq_zero_or_pos s.st.msgPending with hnone | hmsg
    · rw [exec_evMsg_idle (.inr hnone)] at h; cases h; exact .of_tx hm
    · rw [exec_evMsg_enabled hrun hmsg, htx] at h; cases h; exact .of_tx hm
  | evStop =>
    cases hstop : s.st.stopPending with
    | false => rw [exec_evStop_idle (.inr hstop)] at h; cases h; exact .of_tx hm
    | true => rw [exec_evStop_enabled hrun hstop] at h; cases h; exact handleStop_leavesTxDrained hd hm

/-- While TX is cached no SEND_SYNC begins, and a poll does not write the mode. -/
theorem syncStep_leavesTxDrained (hd : s.decidedDefaults) (hm : s.st.mode = some 0x83) (h : syncStep id s = .next t) :
    LeavesTxDrained s t := by
  rcases syncStep_cases h with rfl | ⟨msg, -, hbegin, -⟩ | ⟨n, -, h⟩
  · exact .of_tx hm
  · simp [canBeginSync_eq_false hd (.inr (.inr hm))] at hbegin
  · obtain ⟨-, -, -, hst⟩ := syncPoll_op h
    exact .of_tx (by rw [hst]; exact hm)

end

/-- Settles O60: by instruction, and by what a step of a SEND_SYNC's agent can be. -/
theorem busIsTouchedByItsOwnersOnly : Obligations.BusIsTouchedByItsOwnersOnly := by
  refine ⟨fun i s t h hcase => ?_, fun id s t hd h => ⟨fun hpolls hbusy => ?_, fun hwaits => ?_⟩⟩
  · have hbus : BusUntouched s t := by
      rcases hcase with ⟨msg, rfl⟩ | rfl | rfl | ⟨plain, rfl⟩ | ⟨rx, rfl⟩ | ⟨hrun, hconf, hreconf, hstart⟩
      · exact execSend_bus h
      · exact execStop_bus h
      · exact execFlushRx_bus h
      · exact execPacketEncode_bus h
      · exact execPacketDecode_bus h
      · exact exec_stopped_bus hrun hconf hreconf hstart h
    exact ⟨hbus.trace, hbus.chip, hbus.mode⟩
  · rcases syncStep_cases h with rfl | ⟨msg, -, hbegin, -⟩ | ⟨n, hmem, -⟩
    · exact ⟨rfl, rfl, rfl⟩
    · simp [canBeginSync_eq_false hd hbusy] at hbegin
    · exact absurd hmem (hpolls n)
  · rcases syncStep_cases h with rfl | ⟨msg, hmem, -⟩ | ⟨n, -, h⟩
    · exact ⟨.inl rfl, rfl⟩
    · exact absurd hmem (hwaits msg)
    · obtain ⟨⟨-, -, -, -, -, -, htrace⟩, -⟩ := syncPoll_spec h
      obtain ⟨-, -, -, hst⟩ := syncPoll_op h
      exact ⟨.inr htrace, by rw [hst]⟩

/-- Settles O16: while TX is cached only EV_IRQ on a transmit-complete and EV_STOP write the mode. -/
theorem transmitModeIsLeftOnlyWhenDrained : Obligations.TransmitModeIsLeftOnlyWhenDrained := by
  intro s t _ hd hrun hm hstep
  rcases step_cases hstep with rfl | ⟨i, rest, h⟩ | ⟨id, h⟩ | h
  · exact LeavesTxDrained.of_tx hm
  · exact exec_leavesTxDrained (s := { s.takeTurn with port := rest }) hd hrun hm h
  · exact syncStep_leavesTxDrained (s := s.takeTurn) hd hm h
  · exact LeavesTxDrained.of_bus (s := s.takeTurn) hm (envEdge_bus h)

end Sys2Proof.Machine

/-! PROOFS. The field GF(2^8) (O17) and the tables of powers and logarithms (O18). `⊗` makes the bytes a commutative ring for
every `GF_POLY`, because doubling is linear: a product is a sum of doublings of its left factor, one for each bit of the right
one. Only the inverses rest on the decided polynomial and generator. -/

namespace Sys2Proof.Machine

/-! ## gf_mul as a sum of doublings -/

/-- A reduction by `p` where a bit asks for it is linear in the bit and the byte: two reductions cancel. -/
theorem xor_reduce (x y : Bool) (a b p : Byte) :
    (if x ^^ y then a ^^^ b ^^^ p else a ^^^ b) = (if x then a ^^^ p else a) ^^^ (if y then b ^^^ p else b) := by
  cases x <;> cases y
  · rfl
  · exact BitVec.xor_assoc a b p
  · simp only [Bool.true_xor, Bool.not_false, if_true, Bool.false_eq_true, if_false]
    ac_rfl
  · calc a ^^^ b = a ^^^ b ^^^ (p ^^^ p) := by simp
      _ = a ^^^ p ^^^ (b ^^^ p) := by ac_rfl

section
variable (d : Decided)

theorem gfDouble_xor (a b : Byte) : d.gfDouble (a ^^^ b) = d.gfDouble a ^^^ d.gfDouble b := by
  rw [Decided.gfDouble, BitVec.getLsbD_xor, BitVec.shiftLeft_xor_distrib, xor_reduce]; rfl

theorem gfDouble_iterate_xor (n : Nat) (a b : Byte) :
    d.gfDouble^[n] (a ^^^ b) = d.gfDouble^[n] a ^^^ d.gfDouble^[n] b := by
  induction n with
  | zero => rfl
  | succ n ih => simp only [Function.iterate_succ_apply', ih, gfDouble_xor]

/-- The result of gf_mul after the turns for the first `n` bits of `b`. -/
def Decided.gfMulBits (a b : Byte) : Nat → Byte
  | 0 => 0
  | n + 1 => if b.getLsbD n then gfMulBits a b n ^^^ d.gfDouble^[n] a else gfMulBits a b n

theorem gfMulStep_foldl (a b : Byte) (n : Nat) :
    (List.range n).foldl (d.gfMulStep b) (a, 0) = (d.gfDouble^[n] a, d.gfMulBits a b n) := by
  induction n with
  | zero => rfl
  | succ n ih =>
    simp only [List.range_succ, List.foldl_append, ih, List.foldl_cons, List.foldl_nil, Decided.gfMulStep,
      Decided.gfMulBits, Function.iterate_succ_apply']

theorem gfMul_eq_gfMulBits (a b : Byte) : d.gfMul a b = d.gfMulBits a b 8 := by
  rw [Decided.gfMul, gfMulStep_foldl]

/-- A map that is linear and commutes with doubling goes through every turn of gf_mul. -/
theorem map_gfMul {f : Byte → Byte} (hxor : ∀ a b, f (a ^^^ b) = f a ^^^ f b)
    (hdouble : ∀ a, f (d.gfDouble a) = d.gfDouble (f a)) (a b : Byte) : f (d.gfMul a b) = d.gfMul (f a) b := by
  have hzero : f 0 = 0 := by simpa using hxor 0 0
  have hiterate (n : Nat) : f (d.gfDouble^[n] a) = d.gfDouble^[n] (f a) := Function.Semiconj.iterate_right hdouble n a
  have hbits (n : Nat) : f (d.gfMulBits a b n) = d.gfMulBits (f a) b n := by
    induction n with
    | zero => exact hzero
    | succ n ih => rw [Decided.gfMulBits, Decided.gfMulBits, apply_ite f, hxor, hiterate, ih]
  rw [gfMul_eq_gfMulBits, gfMul_eq_gfMulBits, hbits]

/-! ## The laws of a commutative ring -/

theorem xor_gfMulBits (a b c : Byte) (n : Nat) :
    d.gfMulBits (a ^^^ b) c n = d.gfMulBits a c n ^^^ d.gfMulBits b c n := by
  induction n with
  | zero => simp [Decided.gfMulBits]
  | succ n ih =>
    simp only [Decided.gfMulBits, ih, gfDouble_iterate_xor]
    split
    · ac_rfl
    · rfl

theorem xor_gfMul (a b c : Byte) : d.gfMul (a ^^^ b) c = d.gfMul a c ^^^ d.gfMul b c := by
  simp only [gfMul_eq_gfMulBits, xor_gfMulBits]

theorem gfDouble_gfMul (a b : Byte) : d.gfMul (d.gfDouble a) b = d.gfDouble (d.gfMul a b) :=
  (map_gfMul d (gfDouble_xor d) (fun _ => rfl) a b).symm

/-- The right factors of a product may change places: multiplication by `c` is linear and commutes with doubling. -/
theorem gfMul_right_comm (a b c : Byte) : d.gfMul (d.gfMul a b) c = d.gfMul (d.gfMul a c) b :=
  map_gfMul d (f := (d.gfMul · c)) (xor_gfMul d · · c) (gfDouble_gfMul d · c) a b

theorem gfDouble_iterate_one {n : Nat} (hn : n < 8) : d.gfDouble^[n] 1 = BitVec.twoPow 8 n := by
  induction n with
  | zero => rfl
  | succ n ih =>
    rw [Function.iterate_succ_apply', ih (by omega), Decided.gfDouble, BitVec.getLsbD_twoPow, if_neg (by simp; omega),
      BitVec.twoPow, BitVec.twoPow, BitVec.shiftLeft_add]

theorem gfMulBits_one_getLsbD (b : Byte) {n : Nat} (hn : n ≤ 8) (k : Nat) :
    (d.gfMulBits 1 b n).getLsbD k = (decide (k < n) && b.getLsbD k) := by
  induction n with
  | zero => simp [Decided.gfMulBits]
  | succ n ih =>
    have ih := ih (by omega)
    rw [Decided.gfMulBits, gfDouble_iterate_one d (by omega), apply_ite (BitVec.getLsbD · k), BitVec.getLsbD_xor, ih,
      BitVec.getLsbD_twoPow]
    obtain hlt | rfl | hgt := lt_trichotomy k n
    · simp [hlt, hlt.ne', show k < n + 1 by omega]
    · cases b.getLsbD k <;> simp [show k < 8 by omega]
    · simp [hgt.ne, show ¬ k < n by omega, show ¬ k < n + 1 by omega]

@[simp] theorem one_gfMul (b : Byte) : d.gfMul 1 b = b := by
  refine BitVec.eq_of_getLsbD_eq fun k hk => ?_
  rw [gfMul_eq_gfMulBits, gfMulBits_one_getLsbD d b le_rfl, decide_eq_true hk, Bool.true_and]

theorem gfMul_comm (a b : Byte) : d.gfMul a b = d.gfMul b a := by
  simpa only [one_gfMul] using gfMul_right_comm d 1 a b

@[simp] theorem gfMul_one (a : Byte) : d.gfMul a 1 = a := by
  rw [gfMul_comm, one_gfMul]

theorem gfMul_assoc (a b c : Byte) : d.gfMul (d.gfMul a b) c = d.gfMul a (d.gfMul b c) := by
  rw [gfMul_comm d a b, gfMul_right_comm, gfMul_comm]

theorem gfMul_xor (a b c : Byte) : d.gfMul a (b ^^^ c) = d.gfMul a b ^^^ d.gfMul a c := by
  simp only [gfMul_comm d a, xor_gfMul]

@[simp] theorem gfMul_zero (a : Byte) : d.gfMul a 0 = 0 := by
  simpa using gfMul_xor d a 0 0

theorem gfExp_add (m n : Nat) : d.gfExp (m + n) = d.gfMul (d.gfExp m) (d.gfExp n) := by
  induction m with
  | zero => rw [Nat.zero_add, Decided.gfExp, one_gfMul]
  | succ m ih => rw [Nat.add_right_comm, Decided.gfExp, ih, Decided.gfExp, gfMul_assoc]

theorem gfExp_eq_iterate (n : Nat) : d.gfExp n = (d.gfMul d.gfGen)^[n] 1 := by
  induction n with
  | zero => rfl
  | succ n ih => rw [Decided.gfExp, ih, Function.iterate_succ_apply']

/-- The search for a logarithm ends at the first exponent whose power is `a`. -/
theorem gfLogFrom_eq {a : Byte} {n i k : Nat} (hik : i ≤ k) (hkn : k < i + n) (hk : d.gfExp k = a)
    (hfirst : ∀ m < k, d.gfExp m ≠ a) : d.gfLogFrom a n i (d.gfExp i) = k := by
  induction n generalizing i with
  | zero => omega
  | succ n ih =>
    rw [Decided.gfLogFrom]
    obtain rfl | hlt := hik.eq_or_lt
    · rw [if_pos hk]
    · rw [if_neg (hfirst i hlt)]
      exact ih hlt (by omega)

end

/-! ## The powers of the generator -/

theorem map_gfExp_range : (List.range 256).map Decided.standard.gfExp = printedExp := by
  rw [List.map_congr_left fun i _ => gfExp_eq_iterate Decided.standard i, List.range_map_iterate]
  decide +kernel

theorem gfExp_eq_getD {i : Nat} (hi : i < 256) : Decided.standard.gfExp i = printedExp.getD i 0 := by
  rw [← map_gfExp_range, List.getD_eq_getElem?_getD, List.getElem?_map, List.getElem?_range hi]; rfl

theorem gfExp_255 : Decided.standard.gfExp 255 = 1 :=
  gfExp_eq_getD (by decide)

/-- The powers to the exponents of the printed LOG are the non-zero bytes in their order. -/
theorem map_gfExp_printedLog : printedLog.map (fun l => Decided.standard.gfExp l.toNat) =
    (List.range 255).map fun i => BitVec.ofNat 8 (i + 1) := by
  rw [List.map_congr_left fun l _ => gfExp_eq_getD l.isLt]
  decide +kernel

theorem printedLog_lt {l : Byte} (hl : l ∈ printedLog) : l.toNat < 255 :=
  of_decide_eq_true (List.all_eq_true.mp (show printedLog.all (·.toNat < 255) = true by decide +kernel) l hl)

theorem exists_gfExp_eq {a : Byte} (ha : a ≠ 0) : ∃ i < 255, Decided.standard.gfExp i = a := by
  have hpos : a.toNat ≠ 0 := fun h => ha (BitVec.eq_of_toNat_eq h)
  have hmem : a ∈ printedLog.map fun l => Decided.standard.gfExp l.toNat := by
    rw [map_gfExp_printedLog]
    refine List.mem_map.mpr ⟨a.toNat - 1, List.mem_range.mpr (by omega), ?_⟩
    rw [Nat.sub_add_cancel (by omega), BitVec.ofNat_toNat, BitVec.setWidth_eq]
  obtain ⟨l, hl, rfl⟩ := List.mem_map.mp hmem
  exact ⟨l.toNat, printedLog_lt hl, rfl⟩

/-- The first 255 powers differ, for they reach the 255 non-zero bytes. -/
theorem gfExp_injOn : Set.InjOn Decided.standard.gfExp (Finset.range 255) := by
  refine Finset.injOn_of_card_image_eq (le_antisymm Finset.card_image_le ?_)
  calc (Finset.range 255).card = (Finset.univ.erase (0 : Byte)).card := by
        rw [Finset.card_erase_of_mem (Finset.mem_univ _), Finset.card_univ, ← FinEnum.card_eq_fintypeCard,
          FinEnum.card_bitVec, Finset.card_range]
        rfl
    _ ≤ _ := Finset.card_le_card fun a ha => by simpa using exists_gfExp_eq (Finset.ne_of_mem_erase ha)

theorem gfLog_gfExp {i : Nat} (hi : i < 255) : Decided.standard.gfLog (Decided.standard.gfExp i) = i :=
  gfLogFrom_eq _ (Nat.zero_le i) (by omega) rfl fun m hm h =>
    hm.ne (gfExp_injOn (by simpa using hm.trans hi) (by simpa using hi) h)

theorem gfMul_gfInv {a : Byte} (ha : a ≠ 0) : Decided.standard.gfMul a (Decided.standard.gfInv a) = 1 := by
  obtain ⟨i, hi, rfl⟩ := exists_gfExp_eq ha
  rw [Decided.gfInv, gfLog_gfExp hi, ← gfExp_add]
  obtain rfl | hpos := Nat.eq_zero_or_pos i
  · rfl
  · rw [Nat.mod_eq_of_lt (by omega), Nat.add_sub_cancel' hi.le, gfExp_255]

theorem eq_zero_or_eq_zero_of_gfMul {a b : Byte} (h : Decided.standard.gfMul a b = 0) : a = 0 ∨ b = 0 := by
  refine or_iff_not_imp_left.mpr fun ha => ?_
  calc b = Decided.standard.gfMul (Decided.standard.gfMul (Decided.standard.gfInv a) a) b := by
        rw [gfMul_comm _ _ a, gfMul_gfInv ha, one_gfMul]
    _ = 0 := by rw [gfMul_assoc, h, gfMul_zero]

/-- Settles O17: the laws of a commutative ring hold for every `GF_POLY`, and a power of the generator less than the 255th has
the inverse that completes it to the 255th, which is 1. -/
theorem bytesFormAField : Obligations.BytesFormAField := fun a b c =>
  ⟨BitVec.xor_comm a b, BitVec.xor_assoc a b c, BitVec.xor_self, gfMul_comm _ a b, gfMul_assoc _ a b c, gfMul_xor _ a b c,
    gfMul_zero _ a, gfMul_one _ a, eq_zero_or_eq_zero_of_gfMul, gfMul_gfInv⟩

theorem crcTable_getElem? (d : Decided) {v : Nat} (hv : v < 256) : d.crcTable[v]? = some (d.crc8 [BitVec.ofNat 8 v]) := by
  simp [Decided.crcTable, hv]

theorem map_gfLog_range : (List.range 255).map (fun i => Decided.standard.gfLog (BitVec.ofNat 8 (i + 1))) =
    printedLog.map BitVec.toNat := by
  rw [← Function.comp_def Decided.standard.gfLog, ← List.map_map, ← map_gfExp_printedLog, List.map_map]
  exact List.map_congr_left fun l hl => gfLog_gfExp (printedLog_lt hl)

theorem crcTable_eq : Decided.standard.crcTable = printedCrcTable := by
  decide +kernel

/-- Settles O18: the three tables, computed, are the printed ones, and a logarithm is the one exponent below 255 of its byte. -/
theorem constantTablesAgreeWithTheirRules : Obligations.ConstantTablesAgreeWithTheirRules :=
  ⟨rfl, fun _ hi => ⟨rfl, gfLog_gfExp hi⟩, fun _ hv => crcTable_getElem? _ hv, map_gfExp_range, map_gfLog_range,
    crcTable_eq⟩

end Sys2Proof.Machine

/-! PROOFS. CRC8 (O19) and the linearity of the codeword map (O23). -/

namespace Sys2Proof.Machine

/-! ## CRC8 -/

section
variable (d : Decided)

theorem crcShift_xor (a b : Byte) : d.crcShift (a ^^^ b) = d.crcShift a ^^^ d.crcShift b := by
  rw [Decided.crcShift, BitVec.getLsbD_xor, BitVec.ushiftRight_xor_distrib, xor_reduce]; rfl

theorem crcByte_eq (c b : Byte) : d.crcByte c b = d.crcShift^[8] (c ^^^ b) :=
  List.foldl_const ..

theorem crcByte_xor (c c' b b' : Byte) : d.crcByte (c ^^^ c') (b ^^^ b') = d.crcByte c b ^^^ d.crcByte c' b' := by
  have hshifts (n : Nat) (x y : Byte) : d.crcShift^[n] (x ^^^ y) = d.crcShift^[n] x ^^^ d.crcShift^[n] y :=
    Function.Semiconj₂.iterate (crcShift_xor d) n x y
  rw [crcByte_eq, crcByte_eq, crcByte_eq, ← hshifts]
  congr 1
  ac_rfl

theorem foldl_crcByte_xor {a b : List Byte} (h : a.length = b.length) (c c' : Byte) :
    (List.zipWith (· ^^^ ·) a b).foldl d.crcByte (c ^^^ c') = a.foldl d.crcByte c ^^^ b.foldl d.crcByte c' := by
  induction a generalizing b c c' with
  | nil => cases b with
    | nil => rfl
    | cons y b => cases h
  | cons x a ih => cases b with
    | nil => cases h
    | cons y b => simpa [crcByte_xor] using ih (Nat.succ.inj h) (d.crcByte c x) (d.crcByte c' y)

end

theorem crc8_xor {a b : List Byte} (h : a.length = b.length) :
    Decided.standard.crc8 (List.zipWith (· ^^^ ·) a b) = Decided.standard.crc8 a ^^^ Decided.standard.crc8 b := by
  rw [crc8_eq, crc8_eq, crc8_eq, ← foldl_crcByte_xor _ h]; rfl

/-- A shift step loses nothing: the bit shifted out shows in the highest bit of `CRC_POLY_REFLECTED`. -/
theorem crcShift_injective : Function.Injective Decided.standard.crcShift := by
  intro a b h
  have hker : ∀ c : Byte, Decided.standard.crcShift c = 0#8 → c = 0#8 := by decide
  exact BitVec.xor_eq_zero_iff.mp (hker (a ^^^ b) (by rw [crcShift_xor, h, BitVec.xor_self]))

theorem crcByte_injective_left (b : Byte) : Function.Injective (Decided.standard.crcByte · b) := by
  intro c c' h
  simp only [crcByte_eq] at h
  exact BitVec.xor_left_inj b |>.mp (crcShift_injective.iterate 8 h)

theorem crcByte_injective_right (c : Byte) : Function.Injective (Decided.standard.crcByte c) := by
  intro b b' h
  simp only [crcByte_eq] at h
  exact BitVec.xor_right_inj c |>.mp (crcShift_injective.iterate 8 h)

theorem foldl_crcByte_injective (bs : List Byte) : Function.Injective (bs.foldl Decided.standard.crcByte) := by
  induction bs with
  | nil => exact Function.injective_id
  | cons b bs ih => exact ih.comp (crcByte_injective_left b)

/-- Settles O19: each byte enters by a linear map, and neither it nor the bytes after it lose a difference. -/
theorem crcIsLinearAndSeesOneByteChanges : Obligations.CrcIsLinearAndSeesOneByteChanges := by
  refine ⟨fun a b h => crc8_xor h, fun before after x y hne h => hne ?_⟩
  rw [crc8_eq, crc8_eq, List.foldl_append, List.foldl_append, List.foldl_cons, List.foldl_cons] at h
  exact crcByte_injective_right _ (foldl_crcByte_injective after h)

/-! ## The codeword map -/

section
variable (g : Decided)

theorem foldl_xor (bs : List Byte) (c : Byte) : bs.foldl (· ^^^ ·) c = c ^^^ gfSum bs := by
  induction bs generalizing c with
  | nil => exact BitVec.xor_zero.symm
  | cons b bs ih =>
    rw [gfSum, List.foldl_cons, List.foldl_cons, ih, ih (0 ^^^ b)]
    simp [BitVec.xor_assoc]

theorem gfSum_cons (b : Byte) (bs : List Byte) : gfSum (b :: bs) = b ^^^ gfSum bs := by
  simpa [gfSum] using foldl_xor bs b

theorem gfSum_map_xor {α : Type} (l : List α) (f f' : α → Byte) :
    gfSum (l.map fun i => f i ^^^ f' i) = gfSum (l.map f) ^^^ gfSum (l.map f') := by
  induction l with
  | nil => exact BitVec.xor_self.symm
  | cons x l ih =>
    simp only [List.map_cons, gfSum_cons, ih]
    ac_rfl

variable {a b : List Byte}

/-- The pieces of a byte-wise sum are the byte-wise sums of the pieces. -/
theorem piece_xor (i n : Nat) : (((List.zipWith (· ^^^ ·) a b).drop i).take n) =
    List.zipWith (· ^^^ ·) ((a.drop i).take n) ((b.drop i).take n) := by
  rw [List.drop_zipWith, List.take_zipWith]

theorem dataBlock_xor (h : a.length = b.length) : Decided.standard.dataBlock (List.zipWith (· ^^^ ·) a b) =
    List.zipWith (· ^^^ ·) (Decided.standard.dataBlock a) (Decided.standard.dataBlock b) := by
  rw [Decided.dataBlock, crc8_xor h, Decided.dataBlock, Decided.dataBlock, List.zipWith_append h]; rfl

theorem zipWith_xor_getD (h : a.length = b.length) (n : Nat) :
    (List.zipWith (· ^^^ ·) a b).getD n 0 = a.getD n 0 ^^^ b.getD n 0 := by
  simp only [List.getD_eq_getElem?_getD, List.getElem?_zipWith]
  obtain hn | hn := lt_or_ge n a.length
  · simp [hn, h ▸ hn]
  · simp [hn, h ▸ hn]

theorem parityTerms_xor (h : a.length = b.length) {k : Nat} (hk : k < shardLen) (j : Nat) :
    g.parityTerms (chunks shardLen kData (List.zipWith (· ^^^ ·) a b)) j k (List.range kData) =
      g.parityTerms (chunks shardLen kData a) j k (List.range kData) ^^^
        g.parityTerms (chunks shardLen kData b) j k (List.range kData) := by
  rw [Decided.parityTerms, Decided.parityTerms, Decided.parityTerms, ← gfSum_map_xor]
  refine congrArg gfSum (List.map_congr_left fun i hi => ?_)
  have hi := List.mem_range.mp hi
  rw [shardByte_chunks hi hk, shardByte_chunks hi hk, shardByte_chunks hi hk, zipWith_xor_getD h, gfMul_xor]

end

/-- Settles O23: each byte of the codeword is a byte of a data block, or a field sum of products with entries of the matrix. -/
theorem packetEncodeIsLinear : Obligations.PacketEncodeIsLinear := by
  intro a b ha hb
  have hlen : a.length = b.length := ha.trans hb.symm
  have hab : (List.zipWith (· ^^^ ·) a b).length = 200 := by rw [List.length_zipWith, ha, hb]; rfl
  refine List.ext_getElem? fun n => ?_
  rw [List.getElem?_zipWith]
  obtain hn | hn | hn : n < 240 ∨ (240 ≤ n ∧ n < 255) ∨ 255 ≤ n := by omega
  · obtain ⟨i, k, hi, hk, rfl⟩ : ∃ i k, i < 40 ∧ k < 6 ∧ n = 6 * i + k :=
      ⟨n / 6, n % 6, by omega, by omega, by omega⟩
    rw [packetEncode_block _ hab hi hk, packetEncode_block _ ha hi hk, packetEncode_block _ hb hi hk, piece_xor,
      dataBlock_xor ((shard_length ha hi).trans (shard_length hb hi).symm), List.getElem?_zipWith]
  · obtain ⟨j, k, hj, hk, rfl⟩ : ∃ j k, j < 3 ∧ k < 5 ∧ n = 240 + 5 * j + k :=
      ⟨(n - 240) / 5, (n - 240) % 5, by omega, by omega, by omega⟩
    rw [packetEncode_parity _ hab hj hk, packetEncode_parity _ ha hj hk, packetEncode_parity _ hb hj hk,
      parityTerms_xor _ hlen hk]
  · have hnone {plain : List Byte} (h : plain.length = 200) : (Decided.standard.packetEncode plain)[n]? = none :=
      List.getElem?_eq_none (by rwa [packetEncode_length _ h])
    rw [hnone hab, hnone ha]

end Sys2Proof.Machine

/-! PROOFS. The parity matrix (O20), by linear algebra over a field in which the bytes are read: `RS_PARITY` is a Cauchy matrix
with scaled columns, so none of its minors vanishes. -/

namespace Sys2Proof.Machine

/-! ## Reading the bytes in a field -/

/-- A map of the bytes into a field that takes `⊕` to the sum and `⊗` to the product. -/
structure FieldReading (K : Type) [Field K] where
  val : Byte → K
  val_xor : ∀ a b, val (a ^^^ b) = val a + val b
  val_gfMul : ∀ a b, val (Decided.standard.gfMul a b) = val a * val b
  val_one : val 1 = 1

/-- The bytes with `⊕` and `⊗`, as a field of the library (R185). R184 leaves the inverse of 0 open; the library wants 0. -/
abbrev byteField : Field Byte :=
  @Field.ofMinimalAxioms Byte ⟨(· ^^^ ·)⟩ ⟨Decided.standard.gfMul⟩ ⟨id⟩
    ⟨fun a => if a = 0 then 0 else Decided.standard.gfInv a⟩ ⟨0⟩ ⟨1⟩
    BitVec.xor_assoc (fun _ => BitVec.zero_xor) (fun _ => BitVec.xor_self) (gfMul_assoc _) (gfMul_comm _) (one_gfMul _)
    (fun _ ha => (congrArg _ (if_neg ha)).trans (gfMul_gfInv ha)) (if_pos rfl) (gfMul_xor _) ⟨0, 1, by decide⟩

theorem exists_fieldReading : ∃ (K : Type) (_ : Field K), Nonempty (FieldReading K) :=
  ⟨Byte, byteField, ⟨@FieldReading.mk Byte byteField id (fun _ _ => rfl) (fun _ _ => rfl) rfl⟩⟩

namespace FieldReading

section
variable {K : Type} [Field K] (v : FieldReading K)

@[simp] theorem val_zero : v.val 0 = 0 := by
  simpa using v.val_xor 0 0

theorem val_ne_zero {a : Byte} (ha : a ≠ 0) : v.val a ≠ 0 := by
  intro h
  have hone := v.val_gfMul a (Decided.standard.gfInv a)
  rw [gfMul_gfInv ha, v.val_one, h, zero_mul] at hone
  exact one_ne_zero hone

include v in
theorem charTwo : CharP K 2 := by
  refine CharTwo.of_one_ne_zero_of_two_eq_zero one_ne_zero ?_
  rw [← one_add_one_eq_two, ← v.val_one, ← v.val_xor, BitVec.xor_self]
  exact v.val_zero

/-- Addition in the field is subtraction (R181). -/
theorem val_xor_sub (a b : Byte) : v.val (a ^^^ b) = v.val a - v.val b := by
  have := v.charTwo
  rw [v.val_xor, CharTwo.sub_eq_add]

theorem val_injective : Function.Injective v.val := by
  intro a b h
  by_contra hne
  refine v.val_ne_zero (a := a ^^^ b) (fun h0 => hne (BitVec.xor_eq_zero_iff.mp h0)) ?_
  rw [val_xor_sub, h, sub_self]

theorem val_gfInv {a : Byte} (ha : a ≠ 0) : v.val (Decided.standard.gfInv a) = (v.val a)⁻¹ := by
  refine eq_inv_of_mul_eq_one_right ?_
  rw [← v.val_gfMul, gfMul_gfInv ha, v.val_one]

theorem val_gfSum (bs : List Byte) : v.val (gfSum bs) = (bs.map v.val).sum := by
  induction bs with
  | nil => exact v.val_zero
  | cons b bs ih => rw [gfSum_cons, v.val_xor, ih, List.map_cons, List.sum_cons]

theorem val_gfDet2 (m : Matrix (Fin 2) (Fin 2) Byte) :
    v.val (Decided.standard.gfDet2 (m 0 0) (m 0 1) (m 1 0) (m 1 1)) = (m.map v.val).det := by
  rw [Decided.gfDet2, val_xor_sub, v.val_gfMul, v.val_gfMul, Matrix.det_fin_two]; rfl

theorem val_gfDet3 (m : Matrix (Fin 3) (Fin 3) Byte) :
    v.val (Decided.standard.gfDet3 (m 0 0) (m 0 1) (m 0 2) (m 1 0) (m 1 1) (m 1 2) (m 2 0) (m 2 1) (m 2 2)) =
      (m.map v.val).det := by
  simp only [Decided.gfDet3, Decided.gfDet2, v.val_xor (_ ^^^ _), val_xor_sub, v.val_gfMul, Matrix.det_fin_three,
    Matrix.map_apply]
  ring

end
end FieldReading

/-! ## Cauchy matrices -/

section
open Finset Lagrange
variable {K : Type} [Field K] {n : Nat} {x y : Fin n → K}

/-- The polynomial of degree less than `n` with the values `r q` at the `y q` is determined by its values at the `x p` too. -/
theorem eq_zero_of_sum_nodalWeight (hx : Function.Injective x) (hy : Function.Injective y) (hxy : ∀ p q, x p ≠ y q)
    {r : Fin n → K} (h : ∀ p, ∑ q, nodalWeight univ y q * (x p - y q)⁻¹ * r q = 0) : r = 0 := by
  have hroot (p : Fin n) : (interpolate univ y r).eval (x p) = 0 := by
    rw [eval_interpolate_not_at_node r fun q _ => hxy p q, h, mul_zero]
  have hzero : interpolate univ y r = 0 :=
    Polynomial.eq_zero_of_degree_lt_of_eval_index_eq_zero univ hx.injOn (degree_interpolate_lt r hy.injOn) fun p _ => hroot p
  funext q
  rw [← eval_interpolate_at_node r hy.injOn (mem_univ q), hzero, Polynomial.eval_zero, Pi.zero_apply]

/-- A Cauchy matrix with scaled columns is invertible: its kernel is trivial. -/
theorem det_cauchy_ne_zero (hx : Function.Injective x) (hy : Function.Injective y) (hxy : ∀ p q, x p ≠ y q)
    {w : Fin n → K} (hw : ∀ q, w q ≠ 0) : (Matrix.of fun p q => w q * (x p - y q)⁻¹).det ≠ 0 := by
  intro hdet
  obtain ⟨a, ha, hker⟩ := Matrix.exists_mulVec_eq_zero_iff.mpr hdet
  have hweight (q : Fin n) : nodalWeight univ y q ≠ 0 := nodalWeight_ne_zero hy.injOn (mem_univ q)
  have hzero := eq_zero_of_sum_nodalWeight hx hy hxy (r := fun q => w q * a q / nodalWeight univ y q) fun p => by
    refine Eq.trans (sum_congr rfl fun q _ => ?_) (congrFun hker p)
    calc nodalWeight univ y q * (x p - y q)⁻¹ * (w q * a q / nodalWeight univ y q)
      _ = w q * a q / nodalWeight univ y q * nodalWeight univ y q * (x p - y q)⁻¹ := by ring
      _ = w q * (x p - y q)⁻¹ * a q := by rw [div_mul_cancel₀ _ (hweight q), mul_right_comm]
  refine ha (funext fun q => ?_)
  have hq : w q * a q / nodalWeight univ y q = 0 := congrFun hzero q
  simpa [hw q, hweight q] using hq

end

/-! ## The parity matrix -/

/-- What scales column `i` of `RS_PARITY`. -/
def rsWeight (i : Nat) : Byte :=
  Decided.standard.gfMul (Decided.standard.rsParity 0 i) (BitVec.ofNat 8 40 ^^^ BitVec.ofNat 8 i)

/-- The entry of row `j` and column `i` is the column's weight over the difference of the rows 40 + `j` and `i` of the
Vandermonde matrix it comes from (R190). -/
theorem rsParity_gfMul : ∀ j < 3, ∀ i < 40, rsWeight i ≠ 0 ∧
    Decided.standard.gfMul (Decided.standard.rsParity j i) (BitVec.ofNat 8 (40 + j) ^^^ BitVec.ofNat 8 i) = rsWeight i := by
  decide +kernel

/-- A choice of rows and of as many columns of `RS_PARITY`, in any order. -/
structure MinorChoice {n : Nat} (rows cols : Fin n → Nat) : Prop where
  rows_injective : Function.Injective rows
  rows_lt : ∀ p, rows p < 3
  cols_injective : Function.Injective cols
  cols_lt : ∀ q, cols q < 40

/-- The square submatrix of `RS_PARITY` with these rows and columns. -/
def parityMinor {n : Nat} (rows cols : Fin n → Nat) : Matrix (Fin n) (Fin n) Byte :=
  .of fun p q => Decided.standard.rsParity (rows p) (cols q)

namespace FieldReading

section
variable {K : Type} [Field K] (v : FieldReading K)

/-- Row numbers of the Vandermonde matrix are different field elements. -/
theorem val_ofNat_inj {i j : Nat} (hi : i < 256) (hj : j < 256) (h : v.val (BitVec.ofNat 8 i) = v.val (BitVec.ofNat 8 j)) :
    i = j := by
  have h := congrArg BitVec.toNat (v.val_injective h)
  rwa [BitVec.toNat_ofNat, BitVec.toNat_ofNat, Nat.mod_eq_of_lt hi, Nat.mod_eq_of_lt hj] at h

theorem det_parityMinor_ne_zero {n : Nat} {rows cols : Fin n → Nat} (h : MinorChoice rows cols) :
    ((parityMinor rows cols).map v.val).det ≠ 0 := by
  have hrow (p : Fin n) : 40 + rows p < 256 := by have := h.rows_lt p; omega
  have hcol (q : Fin n) : cols q < 256 := (h.cols_lt q).trans (by decide)
  have hdiff (p q : Fin n) : v.val (BitVec.ofNat 8 (40 + rows p)) ≠ v.val (BitVec.ofNat 8 (cols q)) := fun heq => by
    have := v.val_ofNat_inj (hrow p) (hcol q) heq
    have := h.cols_lt q
    omega
  have hcauchy : (parityMinor rows cols).map v.val = .of fun p q =>
      v.val (rsWeight (cols q)) * (v.val (BitVec.ofNat 8 (40 + rows p)) - v.val (BitVec.ofNat 8 (cols q)))⁻¹ := by
    ext p q
    obtain ⟨-, hw⟩ := rsParity_gfMul _ (h.rows_lt p) _ (h.cols_lt q)
    rw [Matrix.map_apply, parityMinor, Matrix.of_apply, Matrix.of_apply, ← hw, v.val_gfMul, val_xor_sub,
      mul_inv_cancel_right₀]
    exact sub_ne_zero.mpr (hdiff p q)
  rw [hcauchy]
  refine det_cauchy_ne_zero (fun p p' heq => ?_) (fun q q' heq => ?_) hdiff fun q => ?_
  · exact h.rows_injective (Nat.add_left_cancel (v.val_ofNat_inj (hrow p) (hrow p') heq))
  · exact h.cols_injective (v.val_ofNat_inj (hcol q) (hcol q') heq)
  · exact v.val_ne_zero (rsParity_gfMul 0 (by decide) _ (h.cols_lt q)).1

/-- A byte that is the determinant of a minor is not zero. -/
theorem ne_zero_of_val_eq_det {n : Nat} {rows cols : Fin n → Nat} (h : MinorChoice rows cols) {a : Byte}
    (ha : v.val a = ((parityMinor rows cols).map v.val).det) : a ≠ 0 := by
  rintro rfl
  exact v.det_parityMinor_ne_zero h (ha.symm.trans v.val_zero)

end
end FieldReading

theorem minorChoice_of_strictMono {n : Nat} {rows cols : Fin n → Nat} (hrows : StrictMono rows) (hr : ∀ p, rows p < 3)
    (hcols : StrictMono cols) (hc : ∀ q, cols q < 40) : MinorChoice rows cols :=
  ⟨hrows.injective, hr, hcols.injective, hc⟩

/-- Settles O20: the determinants are those of minors of `RS_PARITY`, read in a field. -/
theorem everyParitySubmatrixIsInvertible : Obligations.EveryParitySubmatrixIsInvertible := by
  obtain ⟨K, _, ⟨v⟩⟩ := exists_fieldReading
  refine ⟨fun j hj i hi => ?_, fun j hj j' hj' a ha b hb => ?_, fun a ha b hb c hc => ?_⟩
  · have hminor : MinorChoice ![j] ![i] :=
      ⟨Function.injective_of_subsingleton _, by simpa, Function.injective_of_subsingleton _, by simpa⟩
    exact v.ne_zero_of_val_eq_det hminor (Matrix.det_fin_one ((parityMinor ![j] ![i]).map v.val)).symm
  · have hminor : MinorChoice ![j', j] ![b, a] :=
      minorChoice_of_strictMono (by simpa) (by simp [Fin.forall_fin_succ]; omega) (by simpa)
        (by simp [Fin.forall_fin_succ]; omega)
    exact v.ne_zero_of_val_eq_det hminor (v.val_gfDet2 (parityMinor ![j', j] ![b, a]))
  · have hminor : MinorChoice ![0, 1, 2] ![c, b, a] :=
      minorChoice_of_strictMono (by simp) (by simp [Fin.forall_fin_succ]) (by simp [hb, hc])
        (by simp [Fin.forall_fin_succ]; omega)
    exact v.ne_zero_of_val_eq_det hminor (v.val_gfDet3 (parityMinor ![0, 1, 2] ![c, b, a]))

end Sys2Proof.Machine

/-! PROOFS. GF_SOLVE (O21) is Cramer's rule, read in a field. -/

namespace Sys2Proof.Machine

/-- Cramer's rule as an equivalence. -/
theorem mulVec_eq_iff_cramer {K : Type} [Field K] {n : Nat} {M : Matrix (Fin n) (Fin n) K} (hM : M.det ≠ 0)
    (x s : Fin n → K) : M.mulVec x = s ↔ x = M.det⁻¹ • M.cramer s := by
  constructor
  · rintro rfl
    rw [Matrix.cramer_eq_adjugate_mulVec, Matrix.mulVec_mulVec, Matrix.adjugate_mul, Matrix.smul_mulVec, Matrix.one_mulVec,
      inv_smul_smul₀ hM]
  · rintro rfl
    rw [Matrix.mulVec_smul, Matrix.mulVec_cramer, inv_smul_smul₀ hM]

/-- For two unknowns the numerators are determinants with the right sides for a column, as those for three are. -/
theorem gfSolve_two (a b : Nat) (s : Nat → Byte) : Decided.standard.gfSolve [a, b] s =
    let m := Decided.standard.rsParity
    let di := Decided.standard.gfInv (Decided.standard.gfDet2 (m 0 a) (m 0 b) (m 1 a) (m 1 b))
    [Decided.standard.gfMul di (Decided.standard.gfDet2 (s 0) (m 0 b) (s 1) (m 1 b)),
      Decided.standard.gfMul di (Decided.standard.gfDet2 (m 0 a) (s 0) (m 1 a) (s 1))] := by
  simp only [Decided.gfSolve, Decided.gfDet2, gfMul_comm _ (s _), BitVec.xor_comm (Decided.standard.gfMul _ (s 1))]

theorem minorChoice_get {E : List Nat} (hnodup : E.Nodup) (hlt : ∀ i ∈ E, i < 40) (hle : E.length ≤ 3) :
    MinorChoice Fin.val E.get :=
  ⟨Fin.val_injective, fun p => p.isLt.trans_le hle, List.nodup_iff_injective_get.mp hnodup, fun q => hlt _ (E.get_mem q)⟩

namespace FieldReading

section
variable {K : Type} [Field K] (v : FieldReading K)

/-- The equations of R192 as one equation of vectors. -/
theorem equations_iff_mulVec (E : List Nat) (rhs : Nat → Byte) (X : Fin E.length → Byte) :
    (∀ j < E.length,
      gfSum (List.zipWith (fun i xi => Decided.standard.gfMul (Decided.standard.rsParity j i) xi) E (List.ofFn X)) = rhs j) ↔
    ((parityMinor Fin.val E.get).map v.val).mulVec (v.val ∘ X) = v.val ∘ rhs ∘ Fin.val := by
  have hterms (f : Nat → Byte → Byte) : List.zipWith f E (List.ofFn X) = List.ofFn fun t => f (E.get t) (X t) :=
    List.ext_getElem (by simp) (by simp)
  have hrow (j : Fin E.length) : v.val (gfSum (List.zipWith
      (fun i xi => Decided.standard.gfMul (Decided.standard.rsParity j i) xi) E (List.ofFn X))) =
      ((parityMinor Fin.val E.get).map v.val).mulVec (v.val ∘ X) j := by
    rw [val_gfSum, hterms, List.map_ofFn, List.sum_ofFn]
    exact Finset.sum_congr rfl fun t _ => v.val_gfMul _ _
  rw [funext_iff, Fin.forall_iff]
  exact forall₂_congr fun j hj => by rw [← hrow ⟨j, hj⟩]; exact v.val_injective.eq_iff.symm

/-- The solution by Cramer's rule, for the erased shards `cols`. -/
def cramerSolution {n : Nat} (cols : Fin n → Nat) (rhs : Fin n → Byte) : Fin n → K :=
  ((parityMinor Fin.val cols).map v.val).det⁻¹ • ((parityMinor Fin.val cols).map v.val).cramer (v.val ∘ rhs)

/-- A quotient of determinants, of which the second has the right sides in column `t`. -/
theorem val_gfInv_gfMul_eq_cramerSolution {n : Nat} {cols : Fin n → Nat} {rhs : Fin n → Byte} {d dt : Byte} {t : Fin n}
    (h : MinorChoice Fin.val cols) (hd : v.val d = ((parityMinor Fin.val cols).map v.val).det)
    (hdt : v.val dt = (((parityMinor Fin.val cols).updateCol t rhs).map v.val).det) :
    v.val (Decided.standard.gfMul (Decided.standard.gfInv d) dt) = v.cramerSolution cols rhs t := by
  rw [v.val_gfMul, v.val_gfInv (v.ne_zero_of_val_eq_det h hd), hd, hdt, Matrix.map_updateCol]
  rfl

/-- GF_SOLVE for one, two and three erased shards is Cramer's rule. -/
theorem val_gfSolve {E : List Nat} (h : MinorChoice Fin.val E.get) (hpos : 1 ≤ E.length) (hle : E.length ≤ 3)
    (rhs : Nat → Byte) : (Decided.standard.gfSolve E rhs).map v.val =
      List.ofFn (v.cramerSolution E.get (rhs ∘ Fin.val)) := by
  match E with
  | [a] =>
    have hd := (Matrix.det_fin_one ((parityMinor Fin.val [a].get).map v.val)).symm
    have ht := (Matrix.det_fin_one (((parityMinor Fin.val [a].get).updateCol 0 (rhs ∘ Fin.val)).map v.val)).symm
    exact congrArg (fun x => [x]) (v.val_gfInv_gfMul_eq_cramerSolution h hd ht)
  | [a, b] =>
    let m := parityMinor Fin.val [a, b].get
    have hd := v.val_gfDet2 m
    have ht (t : Fin 2) := v.val_gfInv_gfMul_eq_cramerSolution h hd (v.val_gfDet2 (m.updateCol t (rhs ∘ Fin.val)))
    rw [gfSolve_two]
    exact congrArg₂ (fun x y => [x, y]) (ht 0) (ht 1)
  | [a, b, c] =>
    let m := parityMinor Fin.val [a, b, c].get
    have hd := v.val_gfDet3 m
    have ht (t : Fin 3) := v.val_gfInv_gfMul_eq_cramerSolution h hd (v.val_gfDet3 (m.updateCol t (rhs ∘ Fin.val)))
    exact congrArg₂ List.cons (ht 0) (congrArg₂ (fun x y => [x, y]) (ht 1) (ht 2))

end
end FieldReading

/-- Settles O21: read in a field, the equations are one of vectors whose matrix is a minor of `RS_PARITY`; it is invertible,
and GF_SOLVE is Cramer's rule for it. -/
theorem solveGivesTheUniqueSolution : Obligations.SolveGivesTheUniqueSolution := by
  intro E rhs x hnodup hlt hpos hle hx
  obtain ⟨K, _, ⟨v⟩⟩ := exists_fieldReading
  have hminor := minorChoice_get hnodup hlt hle
  obtain ⟨X, rfl⟩ : ∃ X : Fin E.length → Byte, x = List.ofFn X :=
    ⟨fun t => x.get (t.cast hx.symm), List.ext_getElem (by simpa) (by simp)⟩
  rw [v.equations_iff_mulVec, mulVec_eq_iff_cramer (v.det_parityMinor_ne_zero hminor), ← List.ofFn_injective.eq_iff,
    ← List.map_ofFn, ← v.val_injective.list_map.eq_iff, v.val_gfSolve hminor hpos hle]
  rfl

end Sys2Proof.Machine

/-! PROOFS. RS_RECONSTRUCT by lanes, and PACKET_DECODE (O24 to O27). Every byte is named by its shard and its lane
(`shardByte`), so that the codeword's layout plays no part once a byte has its name. -/

namespace Sys2Proof.Machine

/-! ## Lists of shards -/

section
variable {size i k : Nat} {l : List (List Byte)}

theorem shardByte_of_getElem? {x : List Byte} (h : l[i]? = some x) (k : Nat) : shardByte l i k = x.getD k 0 := by
  rw [shardByte, List.getD_eq_getElem?_getD (l := l), h, Option.getD_some]

theorem flatten_getElem? (hl : ∀ x ∈ l, x.length = size) (hi : i < l.length) (hk : k < size) :
    l.flatten[size * i + k]? = some (shardByte l i k) := by
  have hk' : k < l[i].length := by rwa [hl _ (List.getElem_mem hi)]
  have h := flatten_append_getElem? [] hl hi hk
  rw [List.append_nil, List.getElem?_eq_getElem hk'] at h
  rw [h, shardByte_of_getElem? (List.getElem?_eq_getElem hi), List.getD_eq_getElem _ _ hk']

/-- A byte of a list, as byte `k` of the shard that was cut out of it. -/
theorem getElem?_eq_shardByte {bs : List Byte} {start : Nat} (h : l[i]? = some ((bs.drop start).take size)) (hk : k < size)
    (hlen : start + k < bs.length) : bs[start + k]? = some (shardByte l i k) := by
  rw [shardByte_of_getElem? h, List.getD_eq_getElem?_getD, List.getElem?_take_of_lt hk, List.getElem?_drop,
    List.getElem?_eq_getElem hlen, Option.getD_some]

/-- Two lists of equally many bytes with the same bytes in every shard. -/
theorem eq_of_shards_eq {a b : List Byte} {n : Nat} (ha : a.length = size * n) (hb : b.length = size * n)
    (h : ∀ i < n, ∀ k < size, a[size * i + k]? = b[size * i + k]?) : a = b := by
  refine List.ext_getElem? fun m => ?_
  obtain hm | hm := lt_or_ge m (size * n)
  · rw [← Nat.div_add_mod m size]
    exact h _ (Nat.div_lt_of_lt_mul hm) _ (Nat.mod_lt _ (Nat.pos_of_lt_mul_right hm))
  · rw [List.getElem?_eq_none (ha.trans_le hm), List.getElem?_eq_none (hb.trans_le hm)]

end

/-! ## RS_RECONSTRUCT (R192) -/

theorem gfSum_append (bs cs : List Byte) : gfSum (bs ++ cs) = gfSum bs ^^^ gfSum cs := by
  rw [gfSum, List.foldl_append, foldl_xor]; rfl

theorem gfSum_perm {bs cs : List Byte} (h : bs.Perm cs) : gfSum bs = gfSum cs :=
  h.foldl_eq' (fun x _ y _ z => by ac_rfl) 0

section
variable (g : Decided) (d q : List (List Byte)) {E : List Nat}

/-- A parity byte is made of the terms of the erased shards and those of the others. -/
theorem parityTerms_erased_xor_others (j k : Nat) (hnodup : E.Nodup) (hlt : ∀ i ∈ E, i < kData) :
    g.parityTerms d j k E ^^^ g.parityTerms d j k ((List.range kData).filter fun i => !E.contains i) =
      g.parityTerms d j k (List.range kData) := by
  have herased : E.Perm ((List.range kData).filter E.contains) :=
    (List.perm_ext_iff_of_nodup hnodup (List.nodup_range.filter _)).mpr fun i => by simpa using hlt i
  rw [Decided.parityTerms, Decided.parityTerms, ← gfSum_append, ← List.map_append]
  exact gfSum_perm (((herased.append_right _).trans (List.filter_append_perm _ _)).map _)

theorem rsReconstruct_nil (hd : d.length = kData) : g.rsReconstruct d q [] = d := by
  refine List.ext_getElem (by simp [hd]) fun i hi hi' => ?_
  simp [Decided.rsReconstruct, hi']

theorem rsReconstruct_shard_length (hd : ∀ x ∈ d, x.length = shardLen) (hlen : d.length = kData) :
    ∀ x ∈ g.rsReconstruct d q E, x.length = shardLen := by
  intro x hx
  obtain ⟨i, hi, rfl⟩ := List.mem_map.mp hx
  have hi' : i < d.length := by rw [hlen]; exact List.mem_range.mp hi
  split
  · simp [Decided.rebuiltShard]
  · rw [List.getD_eq_getElem _ _ hi']
    exact hd _ (List.getElem_mem hi')

theorem shardByte_rsReconstruct {i k : Nat} (hi : i < kData) (hk : k < shardLen) :
    shardByte (g.rsReconstruct d q E) i k =
      if i ∈ E then (g.laneSolution d q E k).getD (E.idxOf i) 0 else shardByte d i k := by
  have hshard : (g.rsReconstruct d q E)[i]? =
      some (if E.contains i then g.rebuiltShard d q E (E.idxOf i) else d.getD i []) := by
    rw [Decided.rsReconstruct, List.getElem?_map, List.getElem?_range hi, Option.map_some]
  rw [shardByte_of_getElem? hshard]
  by_cases hE : i ∈ E
  · simp [hE, Decided.rebuiltShard, hk]
  · simp [hE, shardByte]

theorem laneSolution_length (k : Nat) (hle : E.length ≤ 3) : (g.laneSolution d q E k).length = E.length := by
  match E with
  | [] | [_] | [_, _] | [_, _, _] => rfl

end

/-- A list that holds a value for each element of a list without repeats. -/
theorem eq_map_iff_getD_idxOf {E : List Nat} {x : List Byte} (hnodup : E.Nodup) (hx : x.length = E.length) (f : Nat → Byte) :
    x = E.map f ↔ ∀ i ∈ E, x.getD (E.idxOf i) 0 = f i := by
  constructor
  · rintro rfl i hi
    simp [List.idxOf_lt_length_of_mem hi]
  · intro h
    refine List.ext_getElem (by simpa) fun t ht ht' => ?_
    have ht : t < E.length := by omega
    have := h _ (List.getElem_mem ht)
    rw [hnodup.idxOf_getElem, List.getD_eq_getElem _ _ (by omega)] at this
    rw [this, List.getElem_map]

section
variable {p d q : List (List Byte)} {E : List Nat} {k : Nat} (hnodup : E.Nodup) (hlt : ∀ i ∈ E, i < 40) (hle : E.length ≤ 3)
  (hothers : ∀ i < 40, i ∉ E → shardByte d i k = shardByte p i k)
include hnodup hlt hle hothers

/-- Where the other shards are right, GF_SOLVE gives lane `k` of the erased shards of `p` exactly when the parity bytes it uses
are those of `p`: they satisfy the equations, which have one solution (O21). -/
theorem laneSolution_eq_iff : Decided.standard.laneSolution d q E k = E.map (shardByte p · k) ↔
    ∀ j < E.length, shardByte q j k = Decided.standard.parityTerms p j k (List.range kData) := by
  obtain rfl | hne := eq_or_ne E []
  · simp [Decided.laneSolution, Decided.gfSolve]
  have hpos : 1 ≤ E.length := List.length_pos_iff.mpr hne
  rw [eq_comm, Decided.laneSolution, ← solveGivesTheUniqueSolution E _ _ hnodup hlt hpos hle (List.length_map _)]
  refine forall₂_congr fun j _ => ?_
  have hterms : Decided.standard.parityTerms d j k ((List.range kData).filter fun i => !E.contains i) =
      Decided.standard.parityTerms p j k ((List.range kData).filter fun i => !E.contains i) := by
    refine congrArg gfSum (List.map_congr_left fun i hi => ?_)
    obtain ⟨hi, hiE⟩ := List.mem_filter.mp hi
    rw [hothers i (List.mem_range.mp hi) (by simpa using hiE)]
  rw [Decided.laneRhs, hterms, ← parityTerms_erased_xor_others _ p j k hnodup hlt, List.zipWith_map_right, List.zipWith_self,
    ← BitVec.xor_left_inj (Decided.standard.parityTerms p j k ((List.range kData).filter fun i => !E.contains i)),
    BitVec.xor_assoc (shardByte q j k), BitVec.xor_self, BitVec.xor_zero]
  exact eq_comm

theorem shardByte_rsReconstruct_eq_iff (hk : k < shardLen) :
    (∀ i ∈ E, shardByte (Decided.standard.rsReconstruct d q E) i k = shardByte p i k) ↔
      ∀ j < E.length, shardByte q j k = Decided.standard.parityTerms p j k (List.range kData) := by
  rw [← laneSolution_eq_iff hnodup hlt hle hothers, eq_map_iff_getD_idxOf hnodup (laneSolution_length _ d q k hle)]
  exact forall₂_congr fun i hi => by rw [shardByte_rsReconstruct _ d q (hlt i hi) hk, if_pos hi]

end

/-! ## The received word (R202) -/

section
variable (g : Decided) {rx : List Byte}

theorem dataBlocks_getElem? {i : Nat} (hi : i < 40) : (dataBlocks rx)[i]? = some ((rx.drop (6 * i)).take 6) :=
  (chunks_getElem? _ _ rx i).trans (if_pos hi)

/-- E, as the statements write it. -/
theorem erasures_eq (rx : List Byte) : g.erasures rx =
    (List.range 40).filter fun i => g.crc8 ((rx.drop (6 * i)).take 5) != rx.getD (6 * i + 5) 0 := by
  refine List.filter_congr fun i hi => ?_
  rw [List.getD_eq_getElem?_getD, dataBlocks_getElem? (List.mem_range.mp hi), Option.getD_some, Decided.blockFails,
    List.take_take]
  simp [shardLen]

theorem receivedShards_getElem? {i : Nat} (hi : i < 40) : (receivedShards rx)[i]? = some ((rx.drop (6 * i)).take 5) := by
  rw [receivedShards, List.getElem?_map, dataBlocks_getElem? hi, Option.map_some, List.take_take]; rfl

theorem receivedShard_length (h : rx.length = 255) : ∀ x ∈ receivedShards rx, x.length = shardLen := by
  intro x hx
  obtain ⟨i, hi, rfl⟩ := List.getElem_of_mem hx
  have hi' : i < 40 := by rwa [receivedShards_length] at hi
  have hshard := receivedShards_getElem? (rx := rx) hi'
  rw [List.getElem?_eq_getElem hi, Option.some_inj] at hshard
  rw [hshard, List.length_take, List.length_drop, shardLen]
  omega

theorem receivedShard_byte (h : rx.length = 255) {i k : Nat} (hi : i < 40) (hk : k < 5) :
    rx[6 * i + k]? = some (shardByte (receivedShards rx) i k) :=
  getElem?_eq_shardByte (receivedShards_getElem? hi) hk (by omega)

theorem receivedParity_byte (h : rx.length = 255) {j k : Nat} (hj : j < 3) (hk : k < 5) :
    rx[240 + 5 * j + k]? = some (shardByte (receivedParity rx) j k) := by
  have hshard : (receivedParity rx)[j]? = some ((rx.drop (240 + 5 * j)).take 5) := by
    rw [← List.drop_drop]
    exact (chunks_getElem? _ _ _ j).trans (if_pos hj)
  exact getElem?_eq_shardByte hshard hk (by omega)

/-! ## What PACKET_DECODE returns -/

/-- The 40 shards that PACKET_DECODE puts together; without erasures they are those received. -/
def Decided.decodedShards (rx : List Byte) : List (List Byte) :=
  g.rsReconstruct (receivedShards rx) (receivedParity rx) (g.erasures rx)

theorem packetDecodeData_eq (rx : List Byte) : g.packetDecodeData rx = (g.decodedShards rx).flatten := by
  rw [Decided.packetDecodeData, Decided.decodedShards]
  cases hE : g.erasures rx with
  | nil => rw [rsReconstruct_nil _ _ _ (receivedShards_length rx)]; rfl
  | cons i E => rfl

@[simp] theorem decodedShards_length (rx : List Byte) : (g.decodedShards rx).length = kData :=
  rsReconstruct_length ..

theorem decodedShard_length (h : rx.length = 255) : ∀ x ∈ g.decodedShards rx, x.length = shardLen :=
  rsReconstruct_shard_length _ _ _ (receivedShard_length h) (receivedShards_length rx)

theorem packetDecodeData_length (h : rx.length = 255) : (g.packetDecodeData rx).length = 200 := by
  rw [packetDecodeData_eq, flatten_length (decodedShard_length g h), decodedShards_length]; rfl

theorem packetDecodeData_byte (h : rx.length = 255) {i k : Nat} (hi : i < 40) (hk : k < 5) :
    (g.packetDecodeData rx)[5 * i + k]? = some (shardByte (g.decodedShards rx) i k) := by
  rw [packetDecodeData_eq]
  exact flatten_getElem? (decodedShard_length g h) (by rwa [decodedShards_length]) hk

/-- A shard that passes its CRC is returned as received (R202). -/
theorem packetDecodeData_of_notMem_erasures (h : rx.length = 255) {i k : Nat} (hi : i < 40) (hk : k < 5)
    (hE : i ∉ g.erasures rx) : (g.packetDecodeData rx)[5 * i + k]? = rx[6 * i + k]? := by
  rw [packetDecodeData_byte g h hi hk, receivedShard_byte h hi hk, Decided.decodedShards, shardByte_rsReconstruct _ _ _ hi hk,
    if_neg hE]

theorem exec_packetDecode_of_le {s : State} (h : rx.length = 255) (hle : (s.cfg.erasures rx).length ≤ 3) :
    exec (.packetDecode rx) s = .next (s.respond none .ok (.bytes (s.cfg.packetDecodeData rx))) :=
  (if_pos h).trans (if_neg (Nat.not_lt.mpr hle))

theorem exec_packetDecode_of_gt {s : State} (h : rx.length = 255) (hgt : 3 < (s.cfg.erasures rx).length) :
    exec (.packetDecode rx) s =
      .next ({ s with draws := s.draws + 200 }.respond none .fecFailure (.bytes (Config.freeBytes s.draws 200))) :=
  (if_pos h).trans (if_pos hgt)

/-! ## The codeword as received -/

variable {plain : List Byte}

theorem plain_byte (h : plain.length = 200) {i k : Nat} (hi : i < 40) (hk : k < 5) :
    plain[5 * i + k]? = some (shardByte (chunks shardLen kData plain) i k) :=
  getElem?_eq_shardByte ((chunks_getElem? _ _ plain i).trans (if_pos hi)) hk (by omega)

theorem packetEncode_data_byte (h : plain.length = 200) {i k : Nat} (hi : i < 40) (hk : k < 5) :
    (g.packetEncode plain)[6 * i + k]? = plain[5 * i + k]? := by
  rw [packetEncode_block g h hi (by omega), Decided.dataBlock, List.getElem?_append_left (by rwa [shard_length h hi]),
    List.getElem?_take_of_lt hk, List.getElem?_drop]

theorem dataBlocks_packetEncode (h : plain.length = 200) : dataBlocks (g.packetEncode plain) = g.encodedBlocks plain := by
  have hcut := chunks_flatten_append (g.encodedBlocks plain) (g.rsParityShards (chunks shardLen kData plain)).flatten
    (encodedBlock_length_of_mem g h)
  rwa [encodedBlocks_length, ← packetEncode_eq] at hcut

/-- Every block of a codeword passes its CRC. -/
theorem erasures_packetEncode (h : plain.length = 200) : g.erasures (g.packetEncode plain) = [] := by
  rw [Decided.erasures, dataBlocks_packetEncode g h, List.filter_eq_nil_iff]
  intro i hi
  have hi : i < (g.encodedBlocks plain).length := by simpa using hi
  obtain ⟨shard, hshard, hblock⟩ := List.mem_map.mp (List.getElem_mem hi)
  rw [List.getD_eq_getElem _ _ hi, ← hblock, blockFails_dataBlock g (shard_length_of_mem h shard hshard)]
  exact Bool.false_ne_true

theorem packetDecodeData_packetEncode (h : plain.length = 200) : g.packetDecodeData (g.packetEncode plain) = plain := by
  have hcw := packetEncode_length g h
  refine eq_of_shards_eq (size := 5) (n := 40) (packetDecodeData_length g hcw) h fun i hi k hk => ?_
  rw [packetDecodeData_of_notMem_erasures g hcw hi hk (by simp [erasures_packetEncode g h]), packetEncode_data_byte g h hi hk]

/-- Where the shards that pass their CRC are the plaintext's in lane `k`, the erased ones are exactly if no parity byte used in
that lane was changed (R205). -/
theorem lane_decoded_iff (hg : g = Decided.standard) (hplain : plain.length = 200) (hrx : rx.length = 255)
    (hle : (g.erasures rx).length ≤ 3) {k : Nat} (hk : k < 5)
    (hothers : ∀ i < 40, i ∉ g.erasures rx → rx[6 * i + k]? = plain[5 * i + k]?) :
    (∀ i ∈ g.erasures rx, (g.packetDecodeData rx)[5 * i + k]? = plain[5 * i + k]?) ↔
      ∀ j < (g.erasures rx).length, rx[240 + 5 * j + k]? = (g.packetEncode plain)[240 + 5 * j + k]? := by
  subst hg
  have hothers (i : Nat) (hi : i < 40) (hE : i ∉ Decided.standard.erasures rx) :
      shardByte (receivedShards rx) i k = shardByte (chunks shardLen kData plain) i k := by
    rw [← Option.some_inj, ← receivedShard_byte hrx hi hk, ← plain_byte hplain hi hk, hothers i hi hE]
  have hlane := shardByte_rsReconstruct_eq_iff (q := receivedParity rx) (erasures_nodup _ rx) (fun _ => erasures_lt) hle hothers hk
  refine Iff.trans (forall₂_congr fun i hi => ?_) (hlane.trans (forall₂_congr fun j hj => ?_))
  · rw [packetDecodeData_byte _ hrx (erasures_lt hi) hk, plain_byte hplain (erasures_lt hi) hk, Option.some_inj]; rfl
  · rw [receivedParity_byte hrx (hj.trans_le hle) hk, packetEncode_parity _ hplain (hj.trans_le hle) hk, Option.some_inj]

end

/-- Settles O24: no block of a codeword fails, so its shards are returned as received. -/
theorem decodeOfEncodedPacketIsThePlaintext : Obligations.DecodeOfEncodedPacketIsThePlaintext := by
  intro plain s h
  rw [exec_packetDecode_of_le (packetEncode_length _ h) (by simp [erasures_packetEncode _ h]), packetDecodeData_packetEncode _ h]
  rfl

/-- Settles O25: PACKET_DECODE branches on the number of erasures, and the shards that are not erased are returned as received. -/
theorem fecFailureExactlyAboveThreeErasures : Obligations.FecFailureExactlyAboveThreeErasures := by
  intro rx s h
  rw [← erasures_eq s.cfg.toDecided rx]
  obtain hle | hgt := le_or_gt (s.cfg.erasures rx).length 3
  · refine ⟨_, .ok, s.cfg.packetDecodeData rx, exec_packetDecode_of_le h hle, rfl, packetDecodeData_length _ h, ?_, ?_,
      fun _ i hi hE k hk => packetDecodeData_of_notMem_erasures _ h hi hk hE⟩
    all_goals simpa using hle
  · refine ⟨_, .fecFailure, Config.freeBytes s.draws 200, exec_packetDecode_of_gt h hgt, rfl, by simp [Config.freeBytes], ?_, ?_,
      nofun⟩
    all_goals simpa using hgt

/-- Settles O27: the shards that are not erased are returned as received, which is as encoded, and of the erased ones
`lane_decoded_iff` speaks. -/
theorem corruptedUsedParityGivesWrongData : Obligations.CorruptedUsedParityGivesWrongData := by
  intro plain rx s hd hplain hrx
  rw [← erasures_eq s.cfg.toDecided rx]
  refine ⟨fun hle hdata => ?_, fun hgt => ⟨_, _, exec_packetDecode_of_gt hrx hgt, rfl⟩⟩
  have hothers (i : Nat) (hi : i < 40) (hE : i ∉ s.cfg.erasures rx) (k : Nat) (hk : k < 5) :
      rx[6 * i + k]? = plain[5 * i + k]? := by
    rw [← packetEncode_data_byte s.cfg.toDecided hplain hi hk]
    by_contra hne
    exact hE (by simpa [show (6 * i + k) / 6 = i by omega] using hdata (6 * i + k) (by omega) hne)
  refine ⟨_, exec_packetDecode_of_le hrx hle, packetDecodeData_length _ hrx, fun i hi hE k hk => ?_, fun k hk => ?_⟩
  · rw [packetDecodeData_of_notMem_erasures _ hrx hi hk hE, hothers i hi hE k hk]
  · have hlane := lane_decoded_iff _ hd hplain hrx hle hk fun i hi hE => hothers i hi hE k hk
    simpa only [not_forall, exists_prop] using not_congr hlane

/-- Settles O26: the case of O27 in which no parity byte was changed. -/
theorem locatedCorruptionIsCorrected : Obligations.LocatedCorruptionIsCorrected := by
  intro plain rx s hd hplain hrx hchange hle
  obtain ⟨hdecode, -⟩ := corruptedUsedParityGivesWrongData plain rx s hd hplain hrx
  obtain ⟨data, hexec, hlen, hgood, hlane⟩ := hdecode hle fun n hn hne => by
    obtain ⟨-, hcrc⟩ := hchange n (by omega) hne
    exact List.mem_filter.mpr ⟨List.mem_range.mpr (by omega), bne_iff_ne.mpr hcrc⟩
  have hparity (j : Nat) (hj : j < 3) (k : Nat) (hk : k < 5) :
      rx[240 + 5 * j + k]? = (s.cfg.packetEncode plain)[240 + 5 * j + k]? := by
    by_contra hne
    obtain ⟨hlt, -⟩ := hchange _ (by omega) hne
    omega
  have heq : data = plain := eq_of_shards_eq (size := 5) (n := 40) hlen hplain fun i hi k hk => by
    by_contra hne
    obtain ⟨j, hj, hj'⟩ := (hlane k hk).mp ⟨i, by_contra fun hE => hne (hgood i hi hE k hk), hne⟩
    exact hj' (hparity j (by omega) k hk)
  rw [hexec, heq]

end Sys2Proof.Machine

/-! PROOFS. The event steps complete whatever the chip answers (O49), and the interrupt edge (O59). -/

namespace Sys2Proof.Machine

section
variable {s : State}

/-! ## The event steps complete -/

/-- RX_PACKET faults only without parameters or at a full buffer, and its transactions, failed or not, change neither. -/
theorem rxPacket_completes (hp : s.st.params.isSome = true) (hroom : ∀ c, s.cfg.rxbufCap = some c → s.st.rxbuf.length < c) :
    ∃ t, rxPacket s = .next t := by
  have hread := readPacket_spec s
  cases hr : readPacket s with
  | raised e u => exact ⟨_, rxPacket_of_raised hr⟩
  | done r u =>
    obtain ⟨pay, snr, rssi⟩ := r
    rw [hr] at hread
    obtain ⟨-, hop, hst⟩ := hread
    obtain ⟨p, hp⟩ := Option.isSome_iff_exists.mp hp
    have hcap : capReached u.cfg.rxbufCap u.st.rxbuf.length = false := by
      rw [capReached_eq_pollsExhausted, hop.cfg, hst]; exact pollsExhausted_eq_false hroom
    exact ⟨_, rxPacket_appends hr (hst ▸ hp) hcap⟩

theorem rxBranch_completes (flags : Byte) (hp : s.st.params.isSome = true)
    (hroom : ∀ c, s.cfg.rxbufCap = some c → s.st.rxbuf.length < c) : ∃ t, rxBranch flags s = .next t := by
  unfold rxBranch
  split
  · exact rxPacket_completes hp hroom
  · exact ⟨_, rfl⟩

/-- TX_BRANCH faults only without a start time. -/
theorem txBranch_completes (flags : Byte) (h0 : s.st.txStart.isSome = true) : ∃ t, txBranch flags s = .next t := by
  obtain ⟨t0, h0⟩ := Option.isSome_iff_exists.mp h0
  cases hf : flagSet flags s.cfg.irqTxDone with
  | false => exact ⟨_, txBranch_idle s hf⟩
  | true => exact ⟨_, txBranch_txDone hf h0⟩

theorem irqBranch_completes {mode flags : Option Byte} (htx : mode = some s.cfg.modeTx → s.st.txStart.isSome = true)
    (hp : s.st.params.isSome = true) (hroom : ∀ c, s.cfg.rxbufCap = some c → s.st.rxbuf.length < c) :
    ∃ t, irqBranch mode flags s = .next t := by
  cases flags with
  | none => exact ⟨_, irqBranch_none mode s⟩
  | some f =>
    unfold irqBranch
    split
    next hm => exact txBranch_completes f (htx hm)
    · split
      · exact rxBranch_completes f hp hroom
      · exact ⟨_, rfl⟩

/-- The invariant gives the values that the two branches of EV_IRQ need, and the read of the flags leaves them alone. -/
theorem handleIrq_completes (hi : s.Inv) (hrun : s.st.running = true)
    (hroom : ∀ c, s.cfg.rxbufCap = some c → s.st.rxbuf.length < c) : ∃ t, handleIrq s = .next t := by
  obtain ⟨hst, -, hread, -⟩ := readIrqFlags_spec (irqTaken s)
  have hcfg : (readIrqFlags (irqTaken s)).2.cfg = s.cfg := hread.cfg
  obtain ⟨u, hbranch⟩ := irqBranch_completes (s := (readIrqFlags (irqTaken s)).2) (mode := s.st.mode)
    (flags := (readIrqFlags (irqTaken s)).1)
    (fun hm => by rw [hst]; exact hi.tx_start_set (beq_iff_eq.mpr (hcfg ▸ hm)))
    (by rw [hst]; exact hi.running_params hrun)
    (by rw [hcfg, hst]; exact hroom)
  exact ⟨clearIrqFlags u, congrArg (onNext · fun s => .next (clearIrqFlags s)) hbranch⟩

theorem execEvIrq_completes (hi : s.Inv) (hroom : ∀ c, s.cfg.rxbufCap = some c → s.st.rxbuf.length < c) :
    ∃ t, execEvIrq s = .next t := by
  unfold execEvIrq
  split
  next hon => exact handleIrq_completes hi (Bool.and_eq_true_iff.mp hon).1 hroom
  · exact ⟨_, rfl⟩

theorem execEvMsg_completes (s : State) : ∃ t, execEvMsg s = .next t :=
  ⟨_, (apply_ite Host.Outcome.next _ _ _).symm⟩

theorem execEvStop_completes (s : State) : ∃ t, execEvStop s = .next t :=
  ⟨_, (apply_ite Host.Outcome.next _ _ _).symm⟩

/-! ## The interrupt edge -/

theorem envEdge_unregistered (hreg : s.st.irqRegistered = false) : envEdge s = .next s :=
  if_neg (by simp [hreg])

theorem envEdge_registered (hreg : s.st.irqRegistered = true) :
    envEdge s = if capReached s.cfg.irqQueueDepth s.st.irqPending then .fault .irqQueueFull
      else .next { s with st := { s.st with irqPending := s.st.irqPending + 1 } } :=
  if_pos hreg

end

/-- Settles O49: no part of an event step faults from the invariant, and EV_IRQ and EV_MSG do not write `running`. -/
theorem eventStepsNeverStopTheLoop : Obligations.EventStepsNeverStopTheLoop := by
  intro s hi hroom
  obtain ⟨t, hirq⟩ := execEvIrq_completes hi hroom
  obtain ⟨u, hmsg⟩ := execEvMsg_completes s
  obtain ⟨-, -, hst⟩ := execEvMsg_op hmsg
  exact ⟨⟨t, hirq, (congrArg LinkState.running (execEvIrq_op hirq).st :)⟩,
    ⟨u, hmsg, (congrArg LinkState.running hst :)⟩, execEvStop_completes s⟩

/-- Settles O59: the edge before and after the registration, and the bound of a finite queue. -/
theorem interruptEdgesAreCounted : Obligations.InterruptEdgesAreCounted := by
  refine fun s => ⟨envEdge_unregistered, fun hreg hdepth => ?_, fun n hreg hdepth => ?_⟩
  · rw [envEdge_registered hreg, hdepth]; rfl
  · have hcap : capReached (some n) s.st.irqPending = true ↔ ¬ s.st.irqPending < n := decide_eq_true_iff.trans not_lt.symm
    rw [envEdge_registered hreg, hdepth, if_congr hcap rfl rfl, ite_not]

end Sys2Proof.Machine
